-- ==== Sys2Proof/Word.lean ====
section
/-! DEFINITION. The machine word and the byte (00_scope R3, R7). -/

namespace Sys2Proof

/-- A 64-bit register, address or CSR value: XLEN = 64 (R3), an untyped bit vector (R7, R9). -/
abbrev Word := BitVec 64

/-- One byte of memory (10_state R39). -/
abbrev Byte := BitVec 8

end Sys2Proof
end

