-- ==== Sys2Proof/Syntax.lean ====
section
/-! DEFINITION. The instructions: one constructor per row of spec/opcode_table.json, with the operands of the row's
format (30_encoding R82-R88). -/

namespace Sys2Proof

/-- A general register's number, x0..x31 (10_state R12). -/
abbrev Reg := Fin 32

/-- A predecessor or successor set of FENCE (30_encoding R87): device input, device output, RAM read, RAM write. -/
structure FenceSet where
  i : Bool
  o : Bool
  r : Bool
  w : Bool
  deriving DecidableEq, Repr

/-- One constructor per row of the opcode table. Branch and jump offsets are the assembled immediates of R88, which are
even. The 33 rows the spec refuses (R81, R86, R87; 44_system R175-R177) have no operand fields in the table: those
with free bits carry the instruction's own bits (log entry 24). -/
inductive Instr where
  | csrrw (rd rs1 : Reg) (csr : BitVec 12)
  | csrrs (rd rs1 : Reg) (csr : BitVec 12)
  | csrrc (rd rs1 : Reg) (csr : BitVec 12)
  | csrrwi (rd : Reg) (uimm : BitVec 5) (csr : BitVec 12)
  | csrrsi (rd : Reg) (uimm : BitVec 5) (csr : BitVec 12)
  | csrrci (rd : Reg) (uimm : BitVec 5) (csr : BitVec 12)
  | lw (rd rs1 : Reg) (imm : BitVec 12)
  | ld (rd rs1 : Reg) (imm : BitVec 12)
  | sw (rs1 rs2 : Reg) (imm : BitVec 12)
  | sd (rs1 rs2 : Reg) (imm : BitVec 12)
  | amoswapW (rd rs1 rs2 : Reg) (aq rl : Bool)
  | amoswapD (rd rs1 rs2 : Reg) (aq rl : Bool)
  | amocasW (rd rs1 rs2 : Reg) (aq rl : Bool)
  | amocasD (rd rs1 rs2 : Reg) (aq rl : Bool)
  | fence (pred succ : FenceSet) (rs1 rd : Reg)
  | lui (rd : Reg) (imm : BitVec 20)
  | addi (rd rs1 : Reg) (imm : BitVec 12)
  | andi (rd rs1 : Reg) (imm : BitVec 12)
  | slli (rd rs1 : Reg) (shamt : BitVec 6)
  | add (rd rs1 rs2 : Reg)
  | beq (rs1 rs2 : Reg) (offset : BitVec 13)
  | bne (rs1 rs2 : Reg) (offset : BitVec 13)
  | jal (rd : Reg) (offset : BitVec 21)
  | mret
  | ecall
  | ebreak
  | wfi
  | sret
  | uret
  | sfenceVma (word : BitVec 32)
  | fenceI (word : BitVec 32)
  | auipc (word : BitVec 32)
  | jalr (word : BitVec 32)
  | sub (word : BitVec 32)
  | lb (word : BitVec 32)
  | lh (word : BitVec 32)
  | lbu (word : BitVec 32)
  | lhu (word : BitVec 32)
  | lwu (word : BitVec 32)
  | sb (word : BitVec 32)
  | sh (word : BitVec 32)
  | blt (word : BitVec 32)
  | bge (word : BitVec 32)
  | bltu (word : BitVec 32)
  | bgeu (word : BitVec 32)
  | lrW (word : BitVec 32)
  | lrD (word : BitVec 32)
  | scW (word : BitVec 32)
  | scD (word : BitVec 32)
  | amoaddW (word : BitVec 32)
  | amoaddD (word : BitVec 32)
  | systemFunct3_100 (word : BitVec 32)
  | fenceTso
  | short00 (parcel : BitVec 16)
  | short01 (parcel : BitVec 16)
  | short10 (parcel : BitVec 16)
  | long (word : BitVec 32)
  deriving DecidableEq, Repr

end Sys2Proof
end

