-- ==== Sys2Proof/WellFormed.lean ====
section
/-! DEFINITION. When an instruction term stands for an encoding: the checks the operand types do not make. -/

namespace Sys2Proof

/-- Every operand of an admitted instruction but a branch or jump offset is well formed by its type. An offset is a
multiple of 2 (30_encoding R88). A refused row that carries its word has the row's fixed bits in it (R81, R86, R87). -/
def Instr.wellFormed : Instr → Bool
  | .csrrw _ _ _ | .csrrs _ _ _ | .csrrc _ _ _ | .csrrwi _ _ _ | .csrrsi _ _ _ | .csrrci _ _ _ => true
  | .lw _ _ _ | .ld _ _ _ | .sw _ _ _ | .sd _ _ _ => true
  | .amoswapW _ _ _ _ _ | .amoswapD _ _ _ _ _ | .amocasW _ _ _ _ _ | .amocasD _ _ _ _ _ => true
  | .fence _ _ _ _ | .lui _ _ | .addi _ _ _ | .andi _ _ _ | .slli _ _ _ | .add _ _ _ => true
  | .beq _ _ offset => !offset.getLsbD 0
  | .bne _ _ offset => !offset.getLsbD 0
  | .jal _ offset => !offset.getLsbD 0
  | .mret | .ecall | .ebreak | .wfi | .sret | .uret | .fenceTso => true
  | .sfenceVma word => word &&& 0xFE007FFF == 0x12000073
  | .fenceI word => word &&& 0x707F == 0x100F
  | .auipc word => word &&& 0x7F == 0x17
  | .jalr word => word &&& 0x707F == 0x67
  | .sub word => word &&& 0xFE00707F == 0x40000033
  | .lb word => word &&& 0x707F == 0x3
  | .lh word => word &&& 0x707F == 0x1003
  | .lbu word => word &&& 0x707F == 0x4003
  | .lhu word => word &&& 0x707F == 0x5003
  | .lwu word => word &&& 0x707F == 0x6003
  | .sb word => word &&& 0x707F == 0x23
  | .sh word => word &&& 0x707F == 0x1023
  | .blt word => word &&& 0x707F == 0x4063
  | .bge word => word &&& 0x707F == 0x5063
  | .bltu word => word &&& 0x707F == 0x6063
  | .bgeu word => word &&& 0x707F == 0x7063
  | .lrW word => word &&& 0xF9F0707F == 0x1000202F
  | .lrD word => word &&& 0xF9F0707F == 0x1000302F
  | .scW word => word &&& 0xF800707F == 0x1800202F
  | .scD word => word &&& 0xF800707F == 0x1800302F
  | .amoaddW word => word &&& 0xF800707F == 0x202F
  | .amoaddD word => word &&& 0xF800707F == 0x302F
  | .systemFunct3_100 word => word &&& 0x707F == 0x4073
  | .short00 parcel => parcel &&& 0x3 == 0x0
  | .short01 parcel => parcel &&& 0x3 == 0x1
  | .short10 parcel => parcel &&& 0x3 == 0x2
  | .long word => word &&& 0x1F == 0x1F

end Sys2Proof
end

