-- ==== Sys2Proof/Decode.lean ====
section
/-! DEFINITION. The decoder, total on every list of bytes and rejecting by name, and the encoder, both written from
30_encoding R81-R90 and the opcode table. -/

namespace Sys2Proof

/-- Why the decoder reads no instruction of the table. All three are refusals of the spec and safe. -/
inductive Reject where
  /-- R86: the block gives the encoding no meaning. -/
  | outsideBlock
  /-- R87: FENCE with `fm` other than 0. -/
  | unmodelledFence
  /-- R81: fewer than four bytes are no instruction of 32 bits. -/
  | unmodelledLength
  deriving DecidableEq, Repr

/-! ### Fields (R82, R85, R87, R88) -/

def fieldRd (w : BitVec 32) : Reg := (w.extractLsb' 7 5).toFin
def fieldRs1 (w : BitVec 32) : Reg := (w.extractLsb' 15 5).toFin
def fieldRs2 (w : BitVec 32) : Reg := (w.extractLsb' 20 5).toFin
def fieldCsr (w : BitVec 32) : BitVec 12 := w.extractLsb' 20 12
def fieldUimm (w : BitVec 32) : BitVec 5 := w.extractLsb' 15 5
def fieldShamt (w : BitVec 32) : BitVec 6 := w.extractLsb' 20 6
def fieldAq (w : BitVec 32) : Bool := w.getLsbD 26
def fieldRl (w : BitVec 32) : Bool := w.getLsbD 25

/-- The four bits of a FENCE set, high to low I, O, R, W (R87). -/
def fenceSetAt (w : BitVec 32) (lo : Nat) : FenceSet :=
  { i := w.getLsbD (lo + 3), o := w.getLsbD (lo + 2), r := w.getLsbD (lo + 1), w := w.getLsbD lo }

def fieldPred (w : BitVec 32) : FenceSet := fenceSetAt w 24
def fieldSucc (w : BitVec 32) : FenceSet := fenceSetAt w 20

def immI (w : BitVec 32) : BitVec 12 := w.extractLsb' 20 12
def immS (w : BitVec 32) : BitVec 12 := w.extractLsb' 25 7 ++ w.extractLsb' 7 5
def immU (w : BitVec 32) : BitVec 20 := w.extractLsb' 12 20

/-- R88: `{inst[31], inst[7], inst[30:25], inst[11:8], 0}`. -/
def immB (w : BitVec 32) : BitVec 13 :=
  w.extractLsb' 31 1 ++ w.extractLsb' 7 1 ++ w.extractLsb' 25 6 ++ w.extractLsb' 8 4 ++ 0#1

/-- R88: `{inst[31], inst[19:12], inst[20], inst[30:21], 0}`. -/
def immJ (w : BitVec 32) : BitVec 21 :=
  w.extractLsb' 31 1 ++ w.extractLsb' 12 8 ++ w.extractLsb' 20 1 ++ w.extractLsb' 21 10 ++ 0#1

/-! ### The opcode table (R89, R90) -/

/-- A row of the opcode table: a word is the row's when `(word & mask) == match` (R90). -/
structure Row where
  mask : BitVec 32
  pattern : BitVec 32
  build : BitVec 32 → Instr

def Row.hits (r : Row) (w : BitVec 32) : Bool := w &&& r.mask == r.pattern

/-- The 24 admitted rows, in the table's order. -/
def admittedRows : List Row :=
  [ { mask := 0x0000707F, pattern := 0x00001073, build := fun w => .csrrw (fieldRd w) (fieldRs1 w) (fieldCsr w) },
    { mask := 0x0000707F, pattern := 0x00002073, build := fun w => .csrrs (fieldRd w) (fieldRs1 w) (fieldCsr w) },
    { mask := 0x0000707F, pattern := 0x00003073, build := fun w => .csrrc (fieldRd w) (fieldRs1 w) (fieldCsr w) },
    { mask := 0x0000707F, pattern := 0x00005073, build := fun w => .csrrwi (fieldRd w) (fieldUimm w) (fieldCsr w) },
    { mask := 0x0000707F, pattern := 0x00006073, build := fun w => .csrrsi (fieldRd w) (fieldUimm w) (fieldCsr w) },
    { mask := 0x0000707F, pattern := 0x00007073, build := fun w => .csrrci (fieldRd w) (fieldUimm w) (fieldCsr w) },
    { mask := 0x0000707F, pattern := 0x00002003, build := fun w => .lw (fieldRd w) (fieldRs1 w) (immI w) },
    { mask := 0x0000707F, pattern := 0x00003003, build := fun w => .ld (fieldRd w) (fieldRs1 w) (immI w) },
    { mask := 0x0000707F, pattern := 0x00002023, build := fun w => .sw (fieldRs1 w) (fieldRs2 w) (immS w) },
    { mask := 0x0000707F, pattern := 0x00003023, build := fun w => .sd (fieldRs1 w) (fieldRs2 w) (immS w) },
    { mask := 0xF800707F, pattern := 0x0800202F, build := fun w => .amoswapW (fieldRd w) (fieldRs1 w) (fieldRs2 w) (fieldAq w) (fieldRl w) },
    { mask := 0xF800707F, pattern := 0x0800302F, build := fun w => .amoswapD (fieldRd w) (fieldRs1 w) (fieldRs2 w) (fieldAq w) (fieldRl w) },
    { mask := 0xF800707F, pattern := 0x2800202F, build := fun w => .amocasW (fieldRd w) (fieldRs1 w) (fieldRs2 w) (fieldAq w) (fieldRl w) },
    { mask := 0xF800707F, pattern := 0x2800302F, build := fun w => .amocasD (fieldRd w) (fieldRs1 w) (fieldRs2 w) (fieldAq w) (fieldRl w) },
    { mask := 0xF000707F, pattern := 0x0000000F, build := fun w => .fence (fieldPred w) (fieldSucc w) (fieldRs1 w) (fieldRd w) },
    { mask := 0x0000007F, pattern := 0x00000037, build := fun w => .lui (fieldRd w) (immU w) },
    { mask := 0x0000707F, pattern := 0x00000013, build := fun w => .addi (fieldRd w) (fieldRs1 w) (immI w) },
    { mask := 0x0000707F, pattern := 0x00007013, build := fun w => .andi (fieldRd w) (fieldRs1 w) (immI w) },
    { mask := 0xFC00707F, pattern := 0x00001013, build := fun w => .slli (fieldRd w) (fieldRs1 w) (fieldShamt w) },
    { mask := 0xFE00707F, pattern := 0x00000033, build := fun w => .add (fieldRd w) (fieldRs1 w) (fieldRs2 w) },
    { mask := 0x0000707F, pattern := 0x00000063, build := fun w => .beq (fieldRs1 w) (fieldRs2 w) (immB w) },
    { mask := 0x0000707F, pattern := 0x00001063, build := fun w => .bne (fieldRs1 w) (fieldRs2 w) (immB w) },
    { mask := 0x0000007F, pattern := 0x0000006F, build := fun w => .jal (fieldRd w) (immJ w) },
    { mask := 0xFFFFFFFF, pattern := 0x30200073, build := fun _ => .mret } ]

/-- The 33 rows the spec refuses, in the table's order: the decoder names them, their meanings refuse. -/
def refusedRows : List Row :=
  [ { mask := 0xFFFFFFFF, pattern := 0x00000073, build := fun _ => .ecall },
    { mask := 0xFFFFFFFF, pattern := 0x00100073, build := fun _ => .ebreak },
    { mask := 0xFFFFFFFF, pattern := 0x10500073, build := fun _ => .wfi },
    { mask := 0xFFFFFFFF, pattern := 0x10200073, build := fun _ => .sret },
    { mask := 0xFFFFFFFF, pattern := 0x00200073, build := fun _ => .uret },
    { mask := 0xFE007FFF, pattern := 0x12000073, build := fun w => .sfenceVma w },
    { mask := 0x0000707F, pattern := 0x0000100F, build := fun w => .fenceI w },
    { mask := 0x0000007F, pattern := 0x00000017, build := fun w => .auipc w },
    { mask := 0x0000707F, pattern := 0x00000067, build := fun w => .jalr w },
    { mask := 0xFE00707F, pattern := 0x40000033, build := fun w => .sub w },
    { mask := 0x0000707F, pattern := 0x00000003, build := fun w => .lb w },
    { mask := 0x0000707F, pattern := 0x00001003, build := fun w => .lh w },
    { mask := 0x0000707F, pattern := 0x00004003, build := fun w => .lbu w },
    { mask := 0x0000707F, pattern := 0x00005003, build := fun w => .lhu w },
    { mask := 0x0000707F, pattern := 0x00006003, build := fun w => .lwu w },
    { mask := 0x0000707F, pattern := 0x00000023, build := fun w => .sb w },
    { mask := 0x0000707F, pattern := 0x00001023, build := fun w => .sh w },
    { mask := 0x0000707F, pattern := 0x00004063, build := fun w => .blt w },
    { mask := 0x0000707F, pattern := 0x00005063, build := fun w => .bge w },
    { mask := 0x0000707F, pattern := 0x00006063, build := fun w => .bltu w },
    { mask := 0x0000707F, pattern := 0x00007063, build := fun w => .bgeu w },
    { mask := 0xF9F0707F, pattern := 0x1000202F, build := fun w => .lrW w },
    { mask := 0xF9F0707F, pattern := 0x1000302F, build := fun w => .lrD w },
    { mask := 0xF800707F, pattern := 0x1800202F, build := fun w => .scW w },
    { mask := 0xF800707F, pattern := 0x1800302F, build := fun w => .scD w },
    { mask := 0xF800707F, pattern := 0x0000202F, build := fun w => .amoaddW w },
    { mask := 0xF800707F, pattern := 0x0000302F, build := fun w => .amoaddD w },
    { mask := 0x0000707F, pattern := 0x00004073, build := fun w => .systemFunct3_100 w },
    { mask := 0xFFFFFFFF, pattern := 0x8330000F, build := fun _ => .fenceTso },
    { mask := 0x00000003, pattern := 0x00000000, build := fun w => .short00 (w.setWidth 16) },
    { mask := 0x00000003, pattern := 0x00000001, build := fun w => .short01 (w.setWidth 16) },
    { mask := 0x00000003, pattern := 0x00000002, build := fun w => .short10 (w.setWidth 16) },
    { mask := 0x0000001F, pattern := 0x0000001F, build := fun w => .long w } ]

/-- R86, R87: why a word that matches no row of the table has no meaning. -/
def rejectReason (w : BitVec 32) : Reject :=
  if w &&& 0x0000707F == 0x0000000F then .unmodelledFence else .outsideBlock

/-- R90: the rows are tested one by one; a word that matches none is rejected by name. -/
def decode (w : BitVec 32) : Except Reject Instr :=
  match (admittedRows ++ refusedRows).find? (fun r => r.hits w) with
  | some r => .ok (r.build w)
  | none => .error (rejectReason w)

/-! ### Bytes (R44) -/

/-- The four bytes of an instruction as the hardware stores them, the lowest address first. -/
def wordBytes (w : BitVec 32) : List Byte :=
  [w.extractLsb' 0 8, w.extractLsb' 8 8, w.extractLsb' 16 8, w.extractLsb' 24 8]

/-- The decoder on the bytes at the program counter: `{byte[pc+3], byte[pc+2], byte[pc+1], byte[pc]}` (R44). -/
def decodeBytes : List Byte → Except Reject Instr
  | b0 :: b1 :: b2 :: b3 :: _ => decode (b3 ++ b2 ++ b1 ++ b0)
  | _ => .error .unmodelledLength

/-- The instruction the decoder reads from a table row's bits: every bit above `nbits` is 0. -/
def decodeTableWord (nbits w : Nat) : Option Instr :=
  match decodeBytes (wordBytes (BitVec.ofNat 32 (w % 2 ^ nbits))) with
  | .ok i => some i
  | .error _ => none

/-! ### The encoder (R82-R88) -/

def regBits (r : Reg) : BitVec 5 := BitVec.ofFin r
def boolBit (b : Bool) : BitVec 1 := BitVec.ofBool b

def encodeR (funct7 : BitVec 7) (rs2 rs1 : Reg) (funct3 : BitVec 3) (rd : Reg) (opcode : BitVec 7) : BitVec 32 :=
  funct7 ++ regBits rs2 ++ regBits rs1 ++ funct3 ++ regBits rd ++ opcode

def encodeI (imm : BitVec 12) (rs1 : BitVec 5) (funct3 : BitVec 3) (rd : Reg) (opcode : BitVec 7) : BitVec 32 :=
  imm ++ rs1 ++ funct3 ++ regBits rd ++ opcode

def encodeS (imm : BitVec 12) (rs2 rs1 : Reg) (funct3 : BitVec 3) : BitVec 32 :=
  imm.extractLsb' 5 7 ++ regBits rs2 ++ regBits rs1 ++ funct3 ++ imm.extractLsb' 0 5 ++ 0b0100011#7

def encodeB (offset : BitVec 13) (rs2 rs1 : Reg) (funct3 : BitVec 3) : BitVec 32 :=
  offset.extractLsb' 12 1 ++ offset.extractLsb' 5 6 ++ regBits rs2 ++ regBits rs1 ++ funct3 ++
    offset.extractLsb' 1 4 ++ offset.extractLsb' 11 1 ++ 0b1100011#7

def encodeAmo (funct5 : BitVec 5) (aq rl : Bool) (rs2 rs1 : Reg) (funct3 : BitVec 3) (rd : Reg) : BitVec 32 :=
  funct5 ++ boolBit aq ++ boolBit rl ++ regBits rs2 ++ regBits rs1 ++ funct3 ++ regBits rd ++ 0b0101111#7

def fenceSetBits (f : FenceSet) : BitVec 4 := boolBit f.i ++ boolBit f.o ++ boolBit f.r ++ boolBit f.w

/-- The word of a well-formed instruction; a 16-bit form fills the low half. -/
def encode : Instr → BitVec 32
  | .csrrw rd rs1 csr => encodeI csr (regBits rs1) 0b001 rd 0b1110011
  | .csrrs rd rs1 csr => encodeI csr (regBits rs1) 0b010 rd 0b1110011
  | .csrrc rd rs1 csr => encodeI csr (regBits rs1) 0b011 rd 0b1110011
  | .csrrwi rd uimm csr => encodeI csr uimm 0b101 rd 0b1110011
  | .csrrsi rd uimm csr => encodeI csr uimm 0b110 rd 0b1110011
  | .csrrci rd uimm csr => encodeI csr uimm 0b111 rd 0b1110011
  | .lw rd rs1 imm => encodeI imm (regBits rs1) 0b010 rd 0b0000011
  | .ld rd rs1 imm => encodeI imm (regBits rs1) 0b011 rd 0b0000011
  | .sw rs1 rs2 imm => encodeS imm rs2 rs1 0b010
  | .sd rs1 rs2 imm => encodeS imm rs2 rs1 0b011
  | .amoswapW rd rs1 rs2 aq rl => encodeAmo 0b00001 aq rl rs2 rs1 0b010 rd
  | .amoswapD rd rs1 rs2 aq rl => encodeAmo 0b00001 aq rl rs2 rs1 0b011 rd
  | .amocasW rd rs1 rs2 aq rl => encodeAmo 0b00101 aq rl rs2 rs1 0b010 rd
  | .amocasD rd rs1 rs2 aq rl => encodeAmo 0b00101 aq rl rs2 rs1 0b011 rd
  | .fence pred succ rs1 rd =>
      0b0000#4 ++ fenceSetBits pred ++ fenceSetBits succ ++ regBits rs1 ++ 0b000#3 ++ regBits rd ++ 0b0001111#7
  | .lui rd imm => imm ++ regBits rd ++ 0b0110111#7
  | .addi rd rs1 imm => encodeI imm (regBits rs1) 0b000 rd 0b0010011
  | .andi rd rs1 imm => encodeI imm (regBits rs1) 0b111 rd 0b0010011
  | .slli rd rs1 shamt => encodeI (0b000000#6 ++ shamt) (regBits rs1) 0b001 rd 0b0010011
  | .add rd rs1 rs2 => encodeR 0b0000000 rs2 rs1 0b000 rd 0b0110011
  | .beq rs1 rs2 offset => encodeB offset rs2 rs1 0b000
  | .bne rs1 rs2 offset => encodeB offset rs2 rs1 0b001
  | .jal rd offset =>
      offset.extractLsb' 20 1 ++ offset.extractLsb' 1 10 ++ offset.extractLsb' 11 1 ++ offset.extractLsb' 12 8 ++
        regBits rd ++ 0b1101111#7
  | .mret => 0x30200073
  | .ecall => 0x00000073
  | .ebreak => 0x00100073
  | .wfi => 0x10500073
  | .sret => 0x10200073
  | .uret => 0x00200073
  | .fenceTso => 0x8330000F
  | .sfenceVma word | .fenceI word | .auipc word | .jalr word | .sub word => word
  | .lb word | .lh word | .lbu word | .lhu word | .lwu word | .sb word | .sh word => word
  | .blt word | .bge word | .bltu word | .bgeu word => word
  | .lrW word | .lrD word | .scW word | .scD word | .amoaddW word | .amoaddD word => word
  | .systemFunct3_100 word | .long word => word
  | .short00 parcel | .short01 parcel | .short10 parcel => parcel.setWidth 32

/-- The bytes of an instruction, the lowest address first. -/
def encodeBytes (i : Instr) : List Byte := wordBytes (encode i)

end Sys2Proof
end

