-- ==== Sys2Proof/Config.lean ====
section
/-! DEFINITION. The parameters of 00_scope R6, which the machine never changes, and the values the spec leaves free.
The parameters are plain data that State carries (log entry 4), so a statement over all states is over all of them. -/

namespace Sys2Proof

/-- `EXT_IRQ` (R6, 10_state R38): the external interrupt inputs are held at 0, or the environment may change them. -/
inductive ExtIrq where
  | none
  | any
  deriving DecidableEq, Repr

/-- The parameters of 00_scope R6 and the launch's `EXIT_PC` (70_reset R206). `NHARTS` is the number of harts of the
state; `XLEN` and `IALIGN` are fixed by the types; no rule depends on `TICK`. -/
structure Config where
  /-- `TIMER_BASE`, the `B` of 41_timer_arming. -/
  timerBase : Word
  ramBase : Word
  /-- `RAM_SIZE` in bytes. -/
  ramSize : Nat
  textBase : Word
  /-- The length of `TEXT` in 32-bit words; its contents lie in RAM (20_memory R55). -/
  textWords : Nat
  resetVector : Word
  /-- `EXIT_PC`, if a launch has given one (R206). -/
  exitPc : Option Word
  ubits : Bool
  mieWmask : Word
  midelegWmask : Word
  medelegWmask : Word
  mstatusFixed : Word
  sstatusViewMask : Word
  satpModes : List (BitVec 4)
  asidLen : Nat
  npmp : Nat
  /-- `PMP_G`. -/
  pmpG : Nat
  hasC : Bool
  resetMcause : Word
  extIrq : ExtIrq
  deriving DecidableEq, Repr

/-- `MTVEC_LEGAL` on a value with MODE = 1 (R6, 10_state R32): the spec leaves the predicate OPEN, so nothing is known
of it. DESIGN CHOICE, safe (log entry 11). -/
opaque Config.mtvecVectoredLegal : Word → Bool

/-- The draw of 20_memory R49: whether the n-th misaligned AMO raises StoreAMOAccessFault (7) rather than
StoreAMOAddressMisaligned (6). A free value: nothing is known of it. DESIGN CHOICE, safe (log entry 10). -/
opaque Config.misalignedAmoIsAccessFault : Nat → Bool

/-- The bounds that 00_scope R6, 20_memory R54 and 70_reset R201 put on the parameters; and that neither region of the
address map runs past 2^64, which no rule says (DESIGN CHOICE, unsafe for a base that does; log entry 30). -/
abbrev Config.Legal (c : Config) : Prop :=
  c.timerBase.toNat % 8 = 0 ∧ c.timerBase.toNat + 0x10000 ≤ 2 ^ 64 ∧
  c.ramBase.toNat + c.ramSize ≤ 2 ^ 64 ∧
  (c.ramBase.toNat + c.ramSize ≤ c.timerBase.toNat ∨ c.timerBase.toNat + 0x10000 ≤ c.ramBase.toNat) ∧
  c.ramBase.toNat ≤ c.textBase.toNat ∧ c.textBase.toNat + 4 * c.textWords ≤ c.ramBase.toNat + c.ramSize ∧
  c.resetVector.toNat % 4 = 0 ∧
  c.textBase.toNat ≤ c.resetVector.toNat ∧ c.resetVector.toNat + 4 ≤ c.textBase.toNat + 4 * c.textWords ∧
  c.mieWmask &&& ~~~(0xAAA ||| (if c.ubits then 0x111 else 0)) = 0 ∧
  c.mstatusFixed.getLsbD 17 = false ∧
  c.sstatusViewMask &&& (0x122 ||| (if c.ubits then 0x011 else 0)) = (0x122 ||| (if c.ubits then 0x011 else 0)) ∧
  c.sstatusViewMask &&& 0x1888 = 0 ∧
  (0 : BitVec 4) ∈ c.satpModes ∧ c.asidLen ≤ 16 ∧ c.npmp ≤ 16

/-- The values State.reset takes: R6's own defaults for `UBITS` and `SSTATUS_VIEW_MASK`, the launch conventions of
95_test_vectors section 0 for the addresses, `HAS_C` and `MSTATUS_FIXED`, and the model's choice for the rest.
DESIGN CHOICE, unsafe for a claim about State.reset alone (log entry 4). -/
def Config.default : Config where
  timerBase := 0x02000000
  ramBase := 0x10000000
  ramSize := 0x10000
  textBase := 0x10000000
  textWords := 0
  resetVector := 0x10000000
  exitPc := Option.none
  ubits := true
  mieWmask := 0xBBB
  midelegWmask := 0xBBB
  medelegWmask := 0xBBFF
  mstatusFixed := 0
  sstatusViewMask := 0x80000003000DE133
  satpModes := [0]
  asidLen := 16
  npmp := 16
  pmpG := 0
  hasC := false
  resetMcause := 0
  extIrq := .none

end Sys2Proof
end

