-- ==== Sys2Proof/Machine/State.lean ====
section
/-! DEFINITION. The machine's state as plain data, the reasons a step stops, and the state after reset. Every field
cites the rule that names it; INVENTORY.md lists them with their reset values. -/

namespace Sys2Proof.Machine

/-- Memory by address: cells with strictly rising addresses, none equal to what an unlisted address reads as. -/
abbrev Memory := List Host.Cell

/-- The privilege modes (10_state R17). -/
inductive Priv where
  | user
  | supervisor
  | machine
  deriving DecidableEq, Repr

/-- The external interrupt inputs of a hart (10_state R38). -/
inductive ExtLine where
  | msip
  | meip
  | seip
  deriving DecidableEq, Repr

/-- One agent's step (10_state R11), with the choice the spec leaves open at it. -/
inductive Move where
  /-- Hart `h` executes an instruction; at a boundary where an interrupt is takeable, `takeInterrupt` says whether it
  takes the interrupt instead (60_exceptions R183). -/
  | hart (h : Nat) (takeInterrupt : Bool)
  /-- The counter's increment (41_timer_arming R120). -/
  | timer
  /-- The copy of `MTIP_dev[h]` into `MTIP_seen[h]` (41_timer_arming R126). -/
  | propagate (h : Nat)
  /-- The environment drives one input of hart `h` (10_state R38). -/
  | environment (h : Nat) (line : ExtLine) (level : Bool)
  deriving DecidableEq, Repr

/-- Who makes a memory event (20_memory R61). -/
inductive Agent where
  | hart (h : Nat)
  | timer
  deriving DecidableEq, Repr

/-- The class of a memory event (20_memory R61). -/
inductive Space where
  | ram
  | device
  deriving DecidableEq, Repr

/-- The kind of an event (20_memory R61, R62): a read, a write, the paired read and write of an AMO, or a fence. -/
inductive EventKind where
  | read
  | write
  | amoRead
  | amoWrite
  | fence (pred succ : FenceSet)
  deriving DecidableEq, Repr

/-- A memory event (20_memory R61). A fence covers no byte. -/
structure Event where
  agent : Agent
  /-- The position in the hart's program order. -/
  po : Nat
  kind : EventKind
  space : Space
  addr : Nat
  size : Nat
  /-- The value read or written, zero-extended. -/
  value : Word
  aq : Bool
  rl : Bool
  deriving DecidableEq, Repr

/-- One hart. Its number is its place in `State.harts` and reads as mhartid (10_state R35). -/
structure Hart where
  /-- x0..x31; x0 is never read or written here (R12, R13). -/
  regs : Vector Word 32
  /-- R16. -/
  pc : Word
  /-- R17. -/
  priv : Priv
  /-- The storage `ms` of the modelled bits of mstatus (R22); sstatus is a view of it (R23). -/
  mstatus : Word
  /-- R24; sie is a view of it (R26). -/
  mie : Word
  /-- The software bits of mip (R25); sip is a view of mip (R26). -/
  mipSw : Word
  /-- `MTIP_seen[h]` (R37). -/
  mtipSeen : Bool
  /-- `MSIP_in[h]` (R38). -/
  msipIn : Bool
  /-- `MEIP_in[h]` (R38). -/
  meipIn : Bool
  /-- `SEIP_in[h]` (R38). -/
  seipIn : Bool
  /-- R28. -/
  satp : Word
  /-- R29. -/
  medeleg : Word
  /-- R29. -/
  mideleg : Word
  /-- The configuration byte of each PMP entry; pmpcfg0 holds entries 0-7, pmpcfg2 entries 8-15 (R30). -/
  pmpcfg : Vector Byte 16
  /-- pmpaddr0..pmpaddr15 (R30). -/
  pmpaddr : Vector Word 16
  /-- R31. -/
  mscratch : Word
  /-- R32. -/
  mtvec : Word
  /-- R33. -/
  mepc : Word
  /-- R34. -/
  mcause : Word
  /-- How many memory events the hart has made: its next position in program order (20_memory R61). -/
  events : Nat
  /-- `exited[h]` (70_reset R206). -/
  exited : Bool
  deriving DecidableEq, Repr

/-- Why an instruction has no next state. `stuckData` and `stuckFetch` are the spec's outcome stuck, which is no fault:
they say that THIS HART has no step, and the machine's step passes them by (`State.makeMove`; log entry 12). -/
inductive Fault where
  /-- Stuck: a data access a byte of which lies in neither mapped region (20_memory R57, 42_atomic_lock R138). Answered
  by loads, stores and AMOs. Safe: the hart stops where the chip does something the platform defines. -/
  | stuckData
  /-- Stuck: an instruction fetch a byte of which lies in neither mapped region (20_memory R57). Answered by the fetch.
  Safe, as `stuckData`. -/
  | stuckFetch
  /-- A fetch at an address that is no multiple of 4 (10_state R16, 20_memory R50), which no run reaches. Raised by the
  fetch. Safe (log entry 21). -/
  | fetchMisaligned
  deriving DecidableEq, Repr

/-- The whole machine. -/
structure State where
  /-- The parameters of 00_scope R6; constant. -/
  cfg : Config
  /-- The harts, by number; `NHARTS` is how many there are (R35, 60_exceptions R195). -/
  harts : List Hart
  /-- The hart whose step this is (the model's own field, log entry 7). -/
  cur : Nat
  /-- R36. -/
  mtime : Word
  /-- `mtimecmp[h]`, by hart number (R36). -/
  mtimecmp : List Word
  /-- The bytes of RAM in step order (R39, 20_memory R79). -/
  ram : Memory
  /-- The launch memory: the initial writes that precede every event (20_memory R61, 70_reset R200). -/
  image : Memory
  /-- The event history, oldest first (20_memory R61, 10_state R42). -/
  history : List Event
  /-- The fault set, without repeats, never cleared (10_state R42, 00_scope R8; log entry 13). -/
  faults : List Fault
  /-- The refused mark, kept for the whole state (10_state R42, 00_scope R8; log entry 13). -/
  refused : Bool
  /-- The values the memory model gives to the RAM reads to come; none, or an empty list, is the simulator's value
  (20_memory R79; the model's own field, log entry 9). -/
  oracle : List (Option Word)
  /-- The moves to come (the model's own field, log entry 7). -/
  agenda : List Move
  /-- Whose turn it is once the agenda is empty (the model's own field, log entry 7). -/
  rota : Move
  /-- How many misaligned AMOs have drawn their code (the model's own field, log entry 10). -/
  draws : Nat
  deriving DecidableEq, Repr

/-- Why a run ends in a refusal: the spec gives the form no meaning (00_scope R10). Each is safe: a run that
is marked refused is never final (log entry 13). -/
inductive Refusal where
  /-- An instruction that exec does not model yet. Raised by no arm of this model. -/
  | notModelled (mnemonic : String)
  /-- 30_encoding R86: an encoding outside the block. Raised by the refused rows' meanings and by the decoder. -/
  | outsideBlock
  /-- 30_encoding R81: a 16-bit or longer form, or a control transfer to one with `HAS_C` (43 R169, 44 R174). -/
  | unmodelledLength
  /-- 30_encoding R87: FENCE with fm other than 0. Raised by FENCE.TSO's meaning and by the decoder. -/
  | unmodelledFence
  /-- 40_register_interface R97: a CSR number that is not in the table of 10_state R21. -/
  | unmodelledCsr
  /-- 10_state R27, 40 R104: a write that changes an unmodelled bit of mstatus. -/
  | unmodelledCsrBits
  /-- 10_state R27: an illegal value of a WARL field whose legalisation is open (MPP = 2, mtvec, PMP R = 0 and W = 1). -/
  | illegalWarlValue
  /-- 10_state R27, R34: an illegal value of mcause. -/
  | illegalWlrlValue
  /-- 10_state R30: a read of a pmpaddr register when `PMP_G` is above 0. -/
  | pmpGranularity
  /-- 20_memory R60: an access or fetch of a hart with a locked, active PMP entry. -/
  | pmpLocked
  /-- 20_memory R48: a misaligned LW, LD, SW or SD. -/
  | misalignedAccess
  /-- 20_memory R56: an access in the timer-compare region that is no decoded 8-byte access. -/
  | unmodelledDeviceAccess
  /-- 20_memory R58: a store or AMO that writes a byte of the program text. -/
  | writeToText
  /-- 44_system R174: MRET with MPP other than M. -/
  | leavesMachineMode
  deriving DecidableEq, Repr

/-- The synchronous exceptions the modelled hardware raises (60_exceptions R179). -/
inductive ExceptionCause where
  | instructionAddressMisaligned
  | illegalInstruction
  | storeAmoAddressMisaligned
  | storeAmoAccessFault
  deriving DecidableEq, Repr

/-- The interrupts (60_exceptions R181). -/
inductive InterruptCause where
  | machineExternal
  | machineSoftware
  | machineTimer
  | supervisorExternal
  | supervisorSoftware
  | supervisorTimer
  | userExternal
  | userSoftware
  | userTimer
  deriving DecidableEq, Repr

/-- How an operation inside an instruction ends it early (00_scope R8, R10). -/
inductive Stop where
  | fault (f : Fault)
  | refuse (r : Refusal)
  | raise (c : ExceptionCause)
  /-- The draw between codes 6 and 7 of 20_memory R49. -/
  | misalignedAmo
  deriving DecidableEq, Repr

/-- A hart after reset (70_reset R199): pc, priv, MIE, the PMP fields A and L, exited and the inputs as the rule states
them; every other register 0. DESIGN CHOICE, unsafe (log entries 1, 2, 3). -/
def Hart.reset (c : Config) : Hart where
  regs := Vector.replicate 32 0
  pc := c.resetVector
  priv := .machine
  mstatus := 0
  mie := 0
  mipSw := 0
  mtipSeen := false
  msipIn := false
  meipIn := false
  seipIn := false
  satp := 0
  medeleg := 0
  mideleg := 0
  pmpcfg := Vector.replicate 16 0
  pmpaddr := Vector.replicate 16 0
  mscratch := 0
  mtvec := 0
  mepc := 0
  mcause := c.resetMcause
  events := 0
  exited := false

/-- The machine after reset (70_reset R198-R200), with one hart and no program: the launch that loads one is
`State.launch` (log entries 4, 5, 6). -/
def State.reset : State where
  cfg := Config.default
  harts := [Hart.reset Config.default]
  cur := 0
  mtime := 0
  mtimecmp := [0]
  ram := []
  image := []
  history := []
  faults := []
  refused := false
  oracle := []
  agenda := []
  rota := .hart 0 true
  draws := 0

end Sys2Proof.Machine
end

