-- ==== Sys2Proof/Machine/Flags.lean ====
section
/-! DEFINITION. The fields of mstatus. The hardware has no condition flags (10_state R18): these are its only status
bits. -/

namespace Sys2Proof.Machine

/-- `w` with bit `i` set to `b`. -/
def withBit (w : Word) (i : Nat) (b : Bool) : Word :=
  if b then w ||| (1#64 <<< i) else w &&& ~~~(1#64 <<< i)

/-- mstatus.MIE, bit 3 (R22). -/
def mstatusMie (w : Word) : Bool := w.getLsbD 3

/-- mstatus.MPIE, bit 7 (R22). -/
def mstatusMpie (w : Word) : Bool := w.getLsbD 7

/-- mstatus.MPP, bits 12:11 (R22). -/
def mstatusMpp (w : Word) : BitVec 2 := w.extractLsb' 11 2

def withMie (w : Word) (b : Bool) : Word := withBit w 3 b

def withMpie (w : Word) (b : Bool) : Word := withBit w 7 b

def withMpp (w : Word) (p : BitVec 2) : Word := (w &&& ~~~0x1800#64) ||| (p.setWidth 64 <<< 11)

/-- The encoding of a privilege mode (R17). -/
def Priv.code : Priv → BitVec 2
  | .user => 0
  | .supervisor => 1
  | .machine => 3

/-- `MSTATUS_MOD`, the modelled bits of mstatus (R22). -/
def mstatusMod (c : Config) : Word := 0x19AA ||| (if c.ubits then 0x11 else 0)

/-- `MSTATUS_UNMOD`, the bits of mstatus the model fixes at `MSTATUS_FIXED` (40_register_interface R102). -/
def mstatusUnmod : Word := ~~~(0x19AA ||| 0x11)

end Sys2Proof.Machine
end

