-- ==== Sys2Proof/Machine/Operands.lean ====
section
/-! DEFINITION. The operand forms: how an immediate becomes a word (30_encoding R88), the one addressing mode and the
control-transfer target (40_register_interface section 4, 43_integer_support R169), and the 4-byte forms. -/

namespace Sys2Proof.Machine

/-- `sext_12`: an I- or S-type immediate as a word. -/
def immWord (imm : BitVec 12) : Word := imm.signExtend 64

/-- The U-type immediate: `sext_32({inst[31:12], 0x000})`. -/
def upperWord (imm : BitVec 20) : Word := (imm ++ 0#12).signExtend 64

/-- `zext_5(uimm)`, the CSR immediate. -/
def uimmWord (uimm : BitVec 5) : Word := uimm.setWidth 64

/-- The one addressing mode: base plus displacement, modulo 2^64. -/
def effectiveAddress (base : Word) (imm : BitVec 12) : Word := base + immWord imm

/-- A branch's target: its own address plus the B immediate, modulo 2^64 (R169). -/
def branchTarget (pc : Word) (offset : BitVec 13) : Word := pc + offset.signExtend 64

/-- JAL's target: its own address plus the J immediate, modulo 2^64 (R169). -/
def jumpTarget (pc : Word) (offset : BitVec 21) : Word := pc + offset.signExtend 64

/-- `v[31:0]`, zero-extended: the value a 4-byte access moves. -/
def lowWord (v : Word) : Word := (v.setWidth 32).setWidth 64

/-- `sext_32`: a loaded 4-byte value as a register takes it (R115, R141, R144). -/
def signExtendWord (v : Word) : Word := (v.setWidth 32).signExtend 64

/-- The low `n` bytes of a value, for the widths in scope (20_memory R51). -/
def truncateBytes (n : Nat) (v : Word) : Word := if n = 4 then lowWord v else v

end Sys2Proof.Machine
end

