-- ==== Sys2Proof/Machine/Ops.lean ====
section
/-! DEFINITION. The named operations over registers and memory, and taking an exception and returning from one. Every
instruction is written over these. -/

namespace Sys2Proof.Machine

/-! ### Memory bytes (10_state R39, 20_memory R43) -/

/-- What a byte of RAM that nothing has written reads as. DESIGN CHOICE, unsafe for a claim about State.reset
(log entry 5): the spec leaves it unspecified. -/
def unlistedByte : Byte := 0

/-- The canonical form: addresses strictly rising, no cell equal to what an unlisted address reads as. -/
abbrev Memory.wf (m : Memory) : Prop :=
  m.Pairwise (fun c d => c.1 < d.1) ∧ ∀ c ∈ m, c.2 ≠ unlistedByte

/-- The byte at an address. -/
def Memory.read : Memory → Nat → Byte
  | [], _ => unlistedByte
  | (b, v) :: m, a => if a = b then v else Memory.read m a

/-- The memory with one byte written, in canonical form again. -/
def Memory.write : Memory → Nat → Byte → Memory
  | [], a, v => if v = unlistedByte then [] else [(a, v)]
  | (b, w) :: m, a, v =>
    if a < b then (if v = unlistedByte then (b, w) :: m else (a, v) :: (b, w) :: m)
    else if a = b then (if v = unlistedByte then m else (a, v) :: m)
    else (b, w) :: Memory.write m a v

/-- The little-endian value of the `n` bytes at `a` (R43). -/
def Memory.readBytes (m : Memory) (a : Nat) : Nat → Word
  | 0 => 0
  | n + 1 => (Memory.readBytes m (a + 1) n <<< 8) ||| (m.read a).setWidth 64

/-- The low `8 * n` bits of a value stored at the `n` bytes from `a`, little-endian (R43). -/
def Memory.writeBytes (m : Memory) (a : Nat) : Nat → Word → Memory
  | 0, _ => m
  | n + 1, v => Memory.writeBytes (m.write a (v.setWidth 8)) (a + 1) n (v >>> 8)

/-! ### The executing hart and its registers (10_state R12, R13, R16) -/

/-- The number of harts, `NHARTS`. -/
def State.nharts (s : State) : Nat := s.harts.length

/-- The hart whose step this is. -/
def State.hart (s : State) : Hart := s.harts.getD s.cur (Hart.reset s.cfg)

/-- The executing hart exists, as it does in every step. -/
abbrev State.Active (s : State) : Prop := s.cur < s.harts.length

def State.setHart (s : State) (h : Hart) : State := { s with harts := s.harts.set s.cur h }

/-- `x[r]`: x0 reads 0 (R13). -/
def Hart.reg (h : Hart) (r : Reg) : Word := if r = 0 then 0 else h.regs[r]

/-- `x[r] <- v`: a write to x0 is discarded (R13). -/
def Hart.setReg (h : Hart) (r : Reg) (v : Word) : Hart :=
  if r = 0 then h else { h with regs := h.regs.set r v }

def State.getReg (s : State) (r : Reg) : Word := s.hart.reg r

def State.setReg (s : State) (r : Reg) (v : Word) : State := s.setHart (s.hart.setReg r v)

def State.pc (s : State) : Word := s.hart.pc

def State.setPc (s : State) (t : Word) : State := s.setHart { s.hart with pc := t }

/-- `pc <- pc + 4`, modulo 2^64 (R16). -/
def State.advance (s : State) : State := s.setPc (s.pc + 4)

/-! ### Trap entry and return (60_exceptions R186, 44_system R174) -/

/-- R179. -/
def ExceptionCause.code : ExceptionCause → Nat
  | .instructionAddressMisaligned => 0
  | .illegalInstruction => 2
  | .storeAmoAddressMisaligned => 6
  | .storeAmoAccessFault => 7

/-- R181. -/
def InterruptCause.code : InterruptCause → Nat
  | .machineExternal => 11
  | .machineSoftware => 3
  | .machineTimer => 7
  | .supervisorExternal => 9
  | .supervisorSoftware => 1
  | .supervisorTimer => 5
  | .userExternal => 8
  | .userSoftware => 0
  | .userTimer => 4

/-- The value mcause receives: Interrupt in bit 63, the code below (10_state R34, R186). -/
def trapCause (interrupt : Bool) (code : Nat) : Word :=
  (if interrupt then 1#64 <<< 63 else 0) ||| BitVec.ofNat 64 code

/-- mtvec.BASE as an address: `mtvec_st[63:2] << 2` (10_state R32, R186). -/
def mtvecBase (mtvec : Word) : Word := (mtvec >>> 2) <<< 2

/-- Where a trap goes: a vectored interrupt to `BASE + 4*c`, every other trap to `BASE` (R186, R188). -/
def trapTarget (mtvec : Word) (interrupt : Bool) (code : Nat) : Word :=
  if interrupt ∧ mtvec.extractLsb' 0 2 = 1 then mtvecBase mtvec + BitVec.ofNat 64 (4 * code) else mtvecBase mtvec

/-- mstatus after trap entry: MPIE takes MIE, MIE is cleared, MPP takes the mode (R186). -/
def trapMstatus (ms : Word) (priv : Priv) : Word :=
  withMpp (withMie (withMpie ms (mstatusMie ms)) false) priv.code

/-- Trap entry (R186), the ONE operation every trap is taken by. Nothing else changes: no general register, no memory
access, no event. -/
def State.trapEntry (s : State) (interrupt : Bool) (code : Nat) : State :=
  let h := s.hart
  s.setHart { h with
    mepc := h.pc &&& ~~~1#64
    mcause := trapCause interrupt code
    mstatus := trapMstatus h.mstatus h.priv
    priv := .machine
    pc := trapTarget h.mtvec interrupt code }

/-- `raise E`: the instruction has no effect of its own and the trap is entered (00_scope R8, R187). -/
def State.takeException (s : State) (c : ExceptionCause) : State := s.trapEntry false c.code

def State.takeInterrupt (s : State) (c : InterruptCause) : State := s.trapEntry true c.code

/-- mstatus after MRET: MIE takes MPIE, MPIE is set, MPP becomes U (44_system R174). -/
def returnMstatus (ms : Word) : Word :=
  withMpp (withMpie (withMie ms (mstatusMpie ms)) true) Priv.user.code

/-- Trap return to machine mode at mepc (R174). -/
def State.trapReturn (s : State) : State :=
  let h := s.hart
  s.setHart { h with mstatus := returnMstatus h.mstatus, priv := .machine, pc := h.mepc }

/-- The cause a misaligned AMO raises: a draw between codes 6 and 7 (20_memory R49; log entry 10). -/
def State.misalignedAmoCause (s : State) : ExceptionCause :=
  if Config.misalignedAmoIsAccessFault s.draws then .storeAmoAccessFault else .storeAmoAddressMisaligned

/-- What an instruction that stops early comes to. -/
def State.stop (s : State) : Stop → Host.Outcome State Fault Refusal
  | .fault f => .fault f
  | .refuse r => .refused r
  | .raise c => .next (s.takeException c)
  | .misalignedAmo => .next ({ s with draws := s.draws + 1 }.takeException s.misalignedAmoCause)

/-! ### The address map (20_memory R54-R58) -/

/-- Every byte of the access lies in RAM (R54, R57). -/
def State.inRam (s : State) (a n : Nat) : Bool :=
  decide (s.cfg.ramBase.toNat ≤ a) && decide (a + n ≤ s.cfg.ramBase.toNat + s.cfg.ramSize)

/-- The size of the timer-compare region (R54). -/
def timerRegionSize : Nat := 0x10000

/-- Some byte of the access lies in the timer-compare region (R56), which does not wrap at 2^64 (log entry 30). -/
def State.touchesTimer (s : State) (a n : Nat) : Bool :=
  decide (a < s.cfg.timerBase.toNat + timerRegionSize) && decide (s.cfg.timerBase.toNat < a + n)

/-- Some byte of the access lies in the program text (R55, R58). -/
def State.touchesText (s : State) (a n : Nat) : Bool :=
  decide (a < s.cfg.textBase.toNat + 4 * s.cfg.textWords) && decide (s.cfg.textBase.toNat < a + n)

/-- The configuration byte of PMP entry `i`; an unimplemented entry reads 0 (10_state R30). -/
def Hart.pmpByte (c : Config) (h : Hart) (i : Nat) : Byte :=
  if i < c.npmp then h.pmpcfg.getD i 0 else 0

/-- Field L, bit 7 (10_state R30). -/
def pmpL (b : Byte) : Bool := b.getLsbD 7

/-- Field A, bits 4:3 (10_state R30). -/
def pmpA (b : Byte) : BitVec 2 := b.extractLsb' 3 2

/-- Some implemented PMP entry has L = 1 and A other than OFF, so every access of the hart is refused (R60). The spec gives
no outcome where the only locked entries are OFF; here they restrict nothing (PRESUMED, unsafe; log entry 28). -/
def State.pmpLocked (s : State) : Bool :=
  (List.range 16).any fun i => pmpL (s.hart.pmpByte s.cfg i) && pmpA (s.hart.pmpByte s.cfg i) != 0

/-! ### Memory events (20_memory R61, R62) -/

/-- The executing hart makes one event, the next of its program order. -/
def State.record (s : State) (kind : EventKind) (space : Space) (a n : Nat) (v : Word) (aq rl : Bool) : State :=
  let e : Event :=
    { agent := .hart s.cur, po := s.hart.events, kind := kind, space := space, addr := a, size := n, value := v,
      aq := aq, rl := rl }
  { s.setHart { s.hart with events := s.hart.events + 1 } with history := s.history ++ [e] }

/-- The value of a RAM read: the memory model's, which is the bytes in step order unless the oracle gives another
(00_scope R8 `MemRead`, 20_memory R65, R79). -/
def State.loadValue (s : State) (a n : Nat) : Word :=
  match s.oracle with
  | some v :: _ => truncateBytes n v
  | _ => s.ram.readBytes a n

/-- A RAM read's event; it uses up the oracle's first value. -/
def State.ramRead (s : State) (kind : EventKind) (a n : Nat) (aq rl : Bool) : State :=
  { s.record kind .ram a n (s.loadValue a n) aq rl with oracle := s.oracle.tail }

/-- `MemWrite`: the low bytes of a value go to RAM, and the write's event is made (00_scope R8, 20_memory R55). -/
def State.ramWrite (s : State) (kind : EventKind) (a n : Nat) (v : Word) (aq rl : Bool) : State :=
  { s.record kind .ram a n (truncateBytes n v) aq rl with ram := s.ram.writeBytes a n v }

/-! ### The timer-compare registers (41_timer_arming R121-R123) -/

/-- The compare slot at an address: `B + 0x4000 + 8*h` for a hart `h` (R121), without wrapping at 2^64 (log entry 30). -/
def State.timerSlot (s : State) (a : Nat) : Option Nat :=
  let base := s.cfg.timerBase.toNat + 0x4000
  if base ≤ a ∧ (a - base) % 8 = 0 ∧ (a - base) / 8 < s.mtimecmp.length then some ((a - base) / 8) else none

/-- `TimerRead` (R122); none is the refusal of an address that is not decoded. -/
def State.timerRead (s : State) (a : Nat) : Option Word :=
  if a = s.cfg.timerBase.toNat + 0xBFF8 then some s.mtime
  else (s.timerSlot a).map fun h => s.mtimecmp.getD h 0

/-- `TimerWrite` (R123); none is the refusal, of mtime too. -/
def State.timerWrite (s : State) (a : Nat) (v : Word) : Option State :=
  (s.timerSlot a).map fun h => { s with mtimecmp := s.mtimecmp.set h v }

/-! ### Data accesses (40_register_interface R115-R118, 42_atomic_lock R138) -/

/-- A load of `n` bytes: the value and the state after its one read event, or why there is none. The PMP refusal stands
after the other refusals and before stuck (DEDUCED from 60_exceptions R185, safe; log entry 14). -/
def State.load (s : State) (addr : Word) (n : Nat) : Except Stop (Word × State) :=
  let a := addr.toNat
  if a % n ≠ 0 then .error (.refuse .misalignedAccess)
  else if s.touchesTimer a n then
    if n ≠ 8 then .error (.refuse .unmodelledDeviceAccess)
    else match s.timerRead a with
      | none => .error (.refuse .unmodelledDeviceAccess)
      | some v =>
        if s.pmpLocked then .error (.refuse .pmpLocked)
        else .ok (v, s.record .read .device a n v false false)
  else if s.pmpLocked then .error (.refuse .pmpLocked)
  else if s.inRam a n then .ok (s.loadValue a n, s.ramRead .read a n false false)
  else .error (.fault .stuckData)

/-- A store of the low `n` bytes of `v`: the state after its one write event, or why there is none. -/
def State.store (s : State) (addr : Word) (n : Nat) (v : Word) : Except Stop State :=
  let a := addr.toNat
  if a % n ≠ 0 then .error (.refuse .misalignedAccess)
  else if s.touchesTimer a n then
    if n ≠ 8 then .error (.refuse .unmodelledDeviceAccess)
    else match s.timerWrite a v with
      | none => .error (.refuse .unmodelledDeviceAccess)
      | some t =>
        if s.pmpLocked then .error (.refuse .pmpLocked)
        else .ok (t.record .write .device a n v false false)
  else if s.touchesText a n then .error (.refuse .writeToText)
  else if s.pmpLocked then .error (.refuse .pmpLocked)
  else if s.inRam a n then .ok (s.ramWrite .write a n v false false)
  else .error (.fault .stuckData)

/-- The checks of every AMO, in the order of 42_atomic_lock R138, but stuck after every refusal, as 60_exceptions R185
and decision D4 say, and as for a store (R138 itself lists it before WriteToText: DEDUCED, safe; log entry 29). -/
def State.amoCheck (s : State) (a n : Nat) : Option Stop :=
  if a % n ≠ 0 then some .misalignedAmo
  else if s.touchesTimer a n then some (.refuse .unmodelledDeviceAccess)
  else if s.touchesText a n then some (.refuse .writeToText)
  else if s.pmpLocked then some (.refuse .pmpLocked)
  else if s.inRam a n then none
  else some (.fault .stuckData)

/-- `AtomicRMW` (20_memory R73): one paired read and write, or one read alone when `f` gives no value (42 R146). The
read and the write carry the annotations (R140). -/
def State.atomicRmw (s : State) (a n : Nat) (f : Word → Option Word) (aq rl : Bool) : State :=
  match f (s.loadValue a n) with
  | none => s.ramRead .read a n aq rl
  | some new => (s.ramRead .amoRead a n aq rl).ramWrite .amoWrite a n new aq rl

/-- An AMO at `x[rs1]`: the checks, the read-modify-write, and then `rd` (42_atomic_lock R138, R139, R141-R145). -/
def State.amo (s : State) (rd : Reg) (addr : Word) (n : Nat) (f : Word → Option Word) (aq rl : Bool)
    (result : Word → Word) : Host.Outcome State Fault Refusal :=
  match s.amoCheck addr.toNat n with
  | some e => s.stop e
  | none =>
    .next ((((s.atomicRmw addr.toNat n f aq rl).setReg rd (result (s.loadValue addr.toNat n)))).advance)

end Sys2Proof.Machine
end

