-- ==== Sys2Proof/Machine/Csr.lean ====
section
/-! DEFINITION. The CSR access unit: the CSRs of 10_state R21, `CsrRead` and `CsrWrite` (40_register_interface R102,
R103), and the shared operation of the six CSR instructions (R96-R101). -/

namespace Sys2Proof.Machine

/-- The CSRs of the table of R21. -/
inductive Csr where
  | mstatus
  | sstatus
  | mie
  | sie
  | mip
  | sip
  | satp
  | medeleg
  | mideleg
  | pmpcfg0
  | pmpcfg2
  | pmpaddr (i : Fin 16)
  | mscratch
  | mtvec
  | mepc
  | mcause
  | mhartid
  deriving DecidableEq, Repr

/-- The CSR of a number; none is a number that is not in the table (R21, R97). -/
def csrOfNumber (n : BitVec 12) : Option Csr :=
  if n = 0x300 then some .mstatus
  else if n = 0x100 then some .sstatus
  else if n = 0x304 then some .mie
  else if n = 0x104 then some .sie
  else if n = 0x344 then some .mip
  else if n = 0x144 then some .sip
  else if n = 0x180 then some .satp
  else if n = 0x302 then some .medeleg
  else if n = 0x303 then some .mideleg
  else if n = 0x3A0 then some .pmpcfg0
  else if n = 0x3A2 then some .pmpcfg2
  else if n.extractLsb' 4 8 = 0x3B then some (.pmpaddr (n.extractLsb' 0 4).toFin)
  else if n = 0x340 then some .mscratch
  else if n = 0x305 then some .mtvec
  else if n = 0x341 then some .mepc
  else if n = 0x342 then some .mcause
  else if n = 0xF14 then some .mhartid
  else none

/-- R99: `csr[11:10] == 0b11` marks a read-only CSR. -/
def csrReadOnly (n : BitVec 12) : Bool := n.extractLsb' 10 2 == 3

/-- R98, 44_system R173: the mode is at least the lowest that may access the CSR, `csr[9:8]`. -/
def csrAllowed (p : Priv) (n : BitVec 12) : Bool := decide ((n.extractLsb' 8 2).toNat ≤ p.code.toNat)

/-! ### mip, sie and sip (10_state R25, R26; 40 R102, R105) -/

/-- `SWMASK`, the software bits of mip (R102). -/
def mipSwMask (c : Config) : Word := 0x222 ||| (if c.ubits then 0x111 else 0)

/-- The bit `b` at position `i`. -/
def bitAt (b : Bool) (i : Nat) : Word := if b then 1#64 <<< i else 0

/-- `mip_read` (R102). -/
def Hart.mipRead (c : Config) (h : Hart) : Word :=
  (h.mipSw &&& mipSwMask c) ||| bitAt h.msipIn 3 ||| bitAt h.mtipSeen 7 ||| bitAt h.seipIn 9 ||| bitAt h.meipIn 11

/-- `mip_rmw`: `mip_read` with bit 9 replaced by the software bit (R105). -/
def Hart.mipRmw (c : Config) (h : Hart) : Word := withBit (h.mipRead c) 9 (h.mipSw.getLsbD 9)

/-- `CsrRead(mie)` (R102). -/
def Hart.mieRead (c : Config) (h : Hart) : Word := h.mie &&& c.mieWmask

/-- `CsrRead(mideleg)` (R102). -/
def Hart.midelegRead (c : Config) (h : Hart) : Word := h.mideleg &&& c.midelegWmask

/-- `D`, the delegated bits that sie and sip show (R26). -/
def Hart.delegated (c : Config) (h : Hart) : Word :=
  h.midelegRead c &&& (0x222 ||| (if c.ubits then 0x111 else 0))

/-- `W`, the bits of mip that a write of sip changes: SSIP and USIP (R26). -/
def Hart.sipWritable (c : Config) (h : Hart) : Word := h.delegated c &&& (0x2 ||| (if c.ubits then 0x1 else 0))

/-! ### mstatus and sstatus (R22, R23, R104) -/

/-- `CsrRead(mstatus)` (R102). -/
def Hart.mstatusRead (c : Config) (h : Hart) : Word :=
  (h.mstatus &&& mstatusMod c) ||| (c.mstatusFixed &&& mstatusUnmod)

/-- `CsrWrite(mstatus, v)` (R104). -/
def Hart.mstatusWrite (c : Config) (h : Hart) (v : Word) : Except Refusal Hart :=
  if v &&& mstatusUnmod ≠ c.mstatusFixed &&& mstatusUnmod then .error .unmodelledCsrBits
  else if mstatusMpp v = 2 then .error .illegalWarlValue
  else .ok { h with mstatus := v &&& mstatusMod c }

/-- `CsrWrite(sstatus, v)`: a write of mstatus through the view (R103). -/
def Hart.sstatusWrite (c : Config) (h : Hart) (v : Word) : Except Refusal Hart :=
  h.mstatusWrite c ((h.mstatusRead c &&& ~~~c.sstatusViewMask) ||| (v &&& c.sstatusViewMask))

/-! ### satp, mtvec, mepc, mcause (R28, R32-R34) -/

/-- The ASID bits of satp that read 0: bits `44 + ASIDLEN` to 59 (R28). -/
def satpReadMask (c : Config) : Word :=
  ~~~(((BitVec.allOnes 16 <<< c.asidLen).setWidth 64) <<< 44)

/-- `CsrRead(satp)` (R102). -/
def Hart.satpRead (c : Config) (h : Hart) : Word := h.satp &&& satpReadMask c

/-- satp.MODE is one of `SATP_MODES` (R28). -/
def satpModeLegal (c : Config) (v : Word) : Bool := c.satpModes.contains (v.extractLsb' 60 4)

/-- `MTVEC_LEGAL` (R32): MODE 0 always, MODE 1 as the free predicate says, MODE 2 and 3 never (log entry 11). -/
def mtvecLegal (v : Word) : Bool :=
  if v.extractLsb' 0 2 = 0 then true
  else if v.extractLsb' 0 2 = 1 then Config.mtvecVectoredLegal v
  else false

/-- The bits of mepc that are stored (R33). -/
def mepcMask (c : Config) : Word := if c.hasC then ~~~1 else ~~~3

/-- The legal values of mcause (R34). -/
def mcauseLegal (v : Word) : Bool :=
  let code := (v.extractLsb' 0 63).toNat
  if v.getLsbD 63 then [0, 1, 3, 4, 5, 7, 8, 9, 11].contains code
  else [0, 1, 2, 3, 4, 5, 6, 7, 8, 9, 11, 12, 13, 15].contains code

/-! ### PMP (R30) -/

/-- Byte `k` of a 64-bit value. -/
def byteOf (v : Word) (k : Nat) : Byte := v.extractLsb' (8 * k) 8

/-- Eight configuration bytes as pmpcfg0 or pmpcfg2 shows them: byte `k` is entry `first + k` (R30). -/
def Hart.pmpcfgRead (c : Config) (h : Hart) (first : Nat) : Word :=
  (List.range 8).foldl (fun acc k => acc ||| ((h.pmpByte c (first + k)).setWidth 64 <<< (8 * k))) 0

/-- Entry `i` takes a write of its configuration byte: it is implemented and not locked (R30). -/
def Hart.pmpcfgOpen (c : Config) (h : Hart) (i : Nat) : Bool := decide (i < c.npmp) && !pmpL (h.pmpByte c i)

/-- Entry `i` takes a write of its pmpaddr: it is implemented and not locked, and the entry above is no locked TOR entry
(R30). -/
def Hart.pmpaddrOpen (c : Config) (h : Hart) (i : Nat) : Bool :=
  h.pmpcfgOpen c i && !(pmpL (h.pmpByte c (i + 1)) && pmpA (h.pmpByte c (i + 1)) == 1)

/-- A configuration byte as it is stored: bits 6:5 read 0 (R30). -/
def pmpStored (b : Byte) : Byte := b &&& 0x9F

/-- The reserved combination R = 0, W = 1 (R30). -/
def pmpReserved (b : Byte) : Bool := !b.getLsbD 0 && b.getLsbD 1

/-- A write of pmpcfg0 or pmpcfg2 (R30). The reserved combination is refused in an entry that takes the write; a locked
or unimplemented entry ignores its byte (DEDUCED; log entry 15). -/
def Hart.pmpcfgWrite (c : Config) (h : Hart) (first : Nat) (v : Word) : Except Refusal Hart :=
  if (List.range 8).any fun k => h.pmpcfgOpen c (first + k) && pmpReserved (byteOf v k) then .error .illegalWarlValue
  else .ok { h with
    pmpcfg := (List.range 8).foldl
      (fun cfg k => if h.pmpcfgOpen c (first + k) then cfg.setIfInBounds (first + k) (pmpStored (byteOf v k)) else cfg)
      h.pmpcfg }

/-- The bits of pmpaddr that are stored: 53:0 (R30). -/
def pmpaddrMask : Word := 0x003FFFFFFFFFFFFF

/-- `CsrRead(pmpaddr_i)` (R102): refused with a granularity above 0. -/
def Hart.pmpaddrRead (c : Config) (h : Hart) (i : Fin 16) : Except Refusal Word :=
  if c.pmpG ≠ 0 then .error .pmpGranularity
  else .ok (if i.val < c.npmp then h.pmpaddr[i] &&& pmpaddrMask else 0)

def Hart.pmpaddrWrite (c : Config) (h : Hart) (i : Fin 16) (v : Word) : Hart :=
  if h.pmpaddrOpen c i.val then { h with pmpaddr := h.pmpaddr.set i (v &&& pmpaddrMask) } else h

/-! ### `CsrRead` and `CsrWrite` -/

/-- `CsrRead` of hart number `id` (R102). -/
def Hart.csrRead (c : Config) (id : Nat) (h : Hart) : Csr → Except Refusal Word
  | .mstatus => .ok (h.mstatusRead c)
  | .sstatus => .ok (h.mstatusRead c &&& c.sstatusViewMask)
  | .mie => .ok (h.mieRead c)
  | .sie => .ok (h.mieRead c &&& h.delegated c)
  | .mip => .ok (h.mipRead c)
  | .sip => .ok (h.mipRead c &&& h.delegated c)
  | .satp => .ok (h.satpRead c)
  | .medeleg => .ok (h.medeleg &&& c.medelegWmask)
  | .mideleg => .ok (h.midelegRead c)
  | .pmpcfg0 => .ok (h.pmpcfgRead c 0)
  | .pmpcfg2 => .ok (h.pmpcfgRead c 8)
  | .pmpaddr i => h.pmpaddrRead c i
  | .mscratch => .ok h.mscratch
  | .mtvec => .ok h.mtvec
  | .mepc => .ok h.mepc
  | .mcause => .ok h.mcause
  | .mhartid => .ok (BitVec.ofNat 64 id)

/-- `CsrWrite` (R103). mhartid is never reached: R99 raises first. -/
def Hart.csrWrite (c : Config) (h : Hart) : Csr → Word → Except Refusal Hart
  | .mstatus, v => h.mstatusWrite c v
  | .sstatus, v => h.sstatusWrite c v
  | .mie, v => .ok { h with mie := v &&& c.mieWmask }
  | .sie, v =>
      let w := h.delegated c &&& c.mieWmask
      .ok { h with mie := (h.mie &&& ~~~w) ||| (v &&& w) }
  | .mip, v => .ok { h with mipSw := v &&& mipSwMask c }
  | .sip, v => .ok { h with mipSw := (h.mipSw &&& ~~~h.sipWritable c) ||| (v &&& h.sipWritable c) }
  | .satp, v => .ok (if satpModeLegal c v then { h with satp := v } else h)
  | .medeleg, v => .ok { h with medeleg := v &&& c.medelegWmask }
  | .mideleg, v => .ok { h with mideleg := v &&& c.midelegWmask }
  | .pmpcfg0, v => h.pmpcfgWrite c 0 v
  | .pmpcfg2, v => h.pmpcfgWrite c 8 v
  | .pmpaddr i, v => .ok (h.pmpaddrWrite c i v)
  | .mscratch, v => .ok { h with mscratch := v }
  | .mtvec, v => if mtvecLegal v then .ok { h with mtvec := v } else .error .illegalWarlValue
  | .mepc, v => .ok { h with mepc := v &&& mepcMask c }
  | .mcause, v => if mcauseLegal v then .ok { h with mcause := v } else .error .illegalWlrlValue
  | .mhartid, _ => .ok h

/-- `rmw(csr)`: what a set or clear computes from (R105, R107; for sip, log entry 19). -/
def Hart.csrRmw (c : Config) (h : Hart) (r : Csr) (old : Word) : Word :=
  match r with
  | .mip => h.mipRmw c
  | _ => old

/-- A CSR instruction after its source is read (R96-R101): the number's check, the mode's, the read-only check, the
read if there is one, the write if there is one (`change`, from `rmw`), then `rd`. A write of x0 is discarded, so an
instruction that does not read names x0. -/
def State.csrInstruction (s : State) (rd : Reg) (number : BitVec 12) (reads : Bool) (change : Option (Word → Word)) :
    Host.Outcome State Fault Refusal :=
  match csrOfNumber number with
  | none => .refused .unmodelledCsr
  | some r =>
    if !csrAllowed s.hart.priv number then .next (s.takeException .illegalInstruction)
    else if change.isSome && csrReadOnly number then .next (s.takeException .illegalInstruction)
    else
      match if reads then s.hart.csrRead s.cfg s.cur r else .ok 0 with
      | .error e => .refused e
      | .ok old =>
        match change with
        | none => .next ((s.setReg rd old).advance)
        | some f =>
          match s.hart.csrWrite s.cfg r (f (s.hart.csrRmw s.cfg r old)) with
          | .error e => .refused e
          | .ok h => .next (((s.setHart h).setReg rd old).advance)

/-- CSRRW and CSRRWI: they always write, and read unless `rd` is x0 (R100, R106, R109). -/
def State.csrSwap (s : State) (rd : Reg) (number : BitVec 12) (src : Word) : Host.Outcome State Fault Refusal :=
  s.csrInstruction rd number (rd != 0) (some fun _ => src)

/-- CSRRS and CSRRSI: they always read; `writes` says whether the source names a write (R101, R107, R110). -/
def State.csrSet (s : State) (rd : Reg) (number : BitVec 12) (writes : Bool) (mask : Word) :
    Host.Outcome State Fault Refusal :=
  s.csrInstruction rd number true (if writes then some fun old => old ||| mask else none)

/-- CSRRC and CSRRCI (R101, R108, R111). -/
def State.csrClear (s : State) (rd : Reg) (number : BitVec 12) (writes : Bool) (mask : Word) :
    Host.Outcome State Fault Refusal :=
  s.csrInstruction rd number true (if writes then some fun old => old &&& ~~~mask else none)

end Sys2Proof.Machine
end

