-- ==== Sys2Proof/Machine/Agents.lean ====
section
/-! DEFINITION. What happens around an instruction: the fetch, the interrupt check at a boundary, the other agents'
steps, the end of a hart's run, and whose turn it is. -/

namespace Sys2Proof.Machine

/-! ### Fetch (20_memory R44, R50, R57, R60, R77) -/

/-- The bytes from address `a`, the lowest first. -/
def Memory.bytes (m : Memory) (a : Nat) : Nat → List Byte
  | 0 => []
  | n + 1 => m.read a :: Memory.bytes m (a + 1) n

/-- The four bytes at the program counter, or why there is no fetch. A fetch makes no memory event (R62). In the timer
region it is refused (R56); in RAM outside TEXT it reads RAM (DEDUCED from R54; log entry 16). -/
def State.fetch (s : State) : Except Stop (List Byte) :=
  let a := s.pc.toNat
  if a % 4 ≠ 0 then .error (.fault .fetchMisaligned)
  else if s.touchesTimer a 4 then .error (.refuse .unmodelledDeviceAccess)
  else if s.pmpLocked then .error (.refuse .pmpLocked)
  else if s.inRam a 4 then .ok (s.ram.bytes a 4)
  else .error (.fault .stuckFetch)

/-- The decoder's rejections as refusals of the step (30_encoding R81, R86, R87). -/
def rejectRefusal : Reject → Refusal
  | .outsideBlock => .outsideBlock
  | .unmodelledFence => .unmodelledFence
  | .unmodelledLength => .unmodelledLength

/-! ### Interrupts (60_exceptions R181-R185) -/

/-- The order of priority (R185). -/
def interruptPriority : List InterruptCause :=
  [.machineExternal, .machineSoftware, .machineTimer, .supervisorExternal, .supervisorSoftware, .supervisorTimer,
    .userExternal, .userSoftware, .userTimer]

/-- Interrupt `c` is pending and enabled at the hart's boundary (R182). -/
def Hart.pendingEnabled (cfg : Config) (h : Hart) (c : InterruptCause) : Bool :=
  (h.mipRead cfg).getLsbD c.code && (h.mieRead cfg).getLsbD c.code

/-- Interrupt `c` is takeable in M-mode (R182). -/
def Hart.takeable (cfg : Config) (h : Hart) (c : InterruptCause) : Bool :=
  h.pendingEnabled cfg c && mstatusMie h.mstatus && !(h.midelegRead cfg).getLsbD c.code

/-- The takeable interrupt of highest priority (R183, R185). -/
def Hart.nextInterrupt (cfg : Config) (h : Hart) : Option InterruptCause :=
  interruptPriority.find? (h.takeable cfg)

/-! ### The other agents (10_state R11) -/

/-- The timer agent's step: mtime gains 1 modulo 2^64, a device write of mtime (41_timer_arming R120, 20_memory R61). -/
def State.tick (s : State) : State :=
  let e : Event :=
    { agent := .timer, po := 0, kind := .write, space := .device, addr := s.cfg.timerBase.toNat + 0xBFF8, size := 8,
      value := s.mtime + 1, aq := false, rl := false }
  { s with mtime := s.mtime + 1, history := s.history ++ [e] }

/-- `MTIP_dev[h] = (mtime >=u mtimecmp[h])` (41_timer_arming R125). -/
def State.mtipDev (s : State) (h : Nat) : Bool := decide ((s.mtimecmp.getD h 0).toNat ≤ s.mtime.toNat)

/-- Change hart `k`, if there is one. -/
def State.onHart (s : State) (k : Nat) (f : Hart → Hart) : State := { s with harts := s.harts.modify k f }

/-- The propagation agent's step: `MTIP_seen[h] <- MTIP_dev[h]` (41_timer_arming R126). -/
def State.propagate (s : State) (h : Nat) : State := s.onHart h fun x => { x with mtipSeen := s.mtipDev h }

/-- One input line of a hart driven to a level (10_state R38). -/
def Hart.drive (h : Hart) (line : ExtLine) (level : Bool) : Hart :=
  match line with
  | .msip => { h with msipIn := level }
  | .meip => { h with meipIn := level }
  | .seip => { h with seipIn := level }

/-- The environment's step; with `EXT_IRQ = none` the inputs stay 0 and it is not enabled (10_state R38). -/
def State.environment (s : State) (h : Nat) (line : ExtLine) (level : Bool) : State :=
  match s.cfg.extIrq with
  | .none => s
  | .any => s.onHart h fun x => x.drive line level

/-! ### Whose turn it is (10_state R11, 70_reset R210; log entry 7) -/

/-- The turn after a move once the agenda is empty: the harts, the timer, each propagation, and again. -/
def rotaNext (n : Nat) : Move → Move
  | .hart h _ => if h + 1 < n then .hart (h + 1) true else .timer
  | .timer => .propagate 0
  | .propagate h => if h + 1 < n then .propagate (h + 1) else .hart 0 true
  | .environment _ _ _ => .hart 0 true

/-- The move of this step: the agenda's first, else the rotation's. -/
def State.nextMove (s : State) : Move :=
  match s.agenda with
  | m :: _ => m
  | [] => s.rota

/-- The state with this step's move used up. -/
def State.passTurn (s : State) : State :=
  match s.agenda with
  | _ :: rest => { s with agenda := rest }
  | [] => { s with rota := rotaNext s.nharts s.rota }

/-! ### The end of a run (70_reset R206) -/

/-- A hart whose pc becomes `EXIT_PC` sets `exited[h]` in the same step. -/
def State.noteExit (s : State) : State :=
  if s.cfg.exitPc = some s.pc then s.setHart { s.hart with exited := true } else s

/-- Every hart has exited. -/
def State.allExited (s : State) : Bool := s.harts.all fun h => h.exited

/-- No fault is recorded and the refused mark is clear (10_state R42; the first half of LP-clean, 70_reset R203). -/
def State.unmarked (s : State) : Bool := s.faults.isEmpty && !s.refused

/-- The run has ended: every hart has exited, with no fault recorded and the refused mark clear (R206). -/
def State.ended (s : State) : Bool := s.allExited && s.unmarked

/-- Hart `h` takes steps: it exists and has not exited (R206). -/
def State.runs (s : State) (h : Nat) : Bool :=
  match s.harts[h]? with
  | some x => !x.exited
  | none => false

/-- What a step of a hart comes to once its instruction or trap entry has been done. -/
def State.endHartStep (t : State) : State := t.noteExit.passTurn

/-! ### Placing one instruction (log entry 6) -/

/-- The four bytes of a word placed at an address of RAM and of the launch image. -/
def State.placeWord (s : State) (a w : Nat) : State :=
  let v := BitVec.ofNat 64 (w % 2 ^ 32)
  { s with ram := s.ram.writeBytes a 4 v, image := s.image.writeBytes a 4 v }

/-- The load of one instruction at the present hart's program counter, with the next move that hart's. -/
def State.placeAtPc (s : State) (nbits w : Nat) : State :=
  { s.placeWord s.pc.toNat (w % 2 ^ nbits) with agenda := .hart s.cur false :: s.agenda }

end Sys2Proof.Machine
end

