-- ==== Sys2Proof/Machine/Atomic.lean ====
section
/-! DEFINITION. The atomic unit: swap, compare-and-swap and FENCE (42_atomic_lock R135-R149). -/

namespace Sys2Proof.Machine

/-- R141. -/
def execAmoswapW (rd rs1 rs2 : Reg) (aq rl : Bool) (s : State) : Host.Outcome State Fault Refusal :=
  s.amo rd (s.getReg rs1) 4 (fun _ => some (lowWord (s.getReg rs2))) aq rl signExtendWord

/-- R142. -/
def execAmoswapD (rd rs1 rs2 : Reg) (aq rl : Bool) (s : State) : Host.Outcome State Fault Refusal :=
  s.amo rd (s.getReg rs1) 8 (fun _ => some (s.getReg rs2)) aq rl id

/-- R144: the comparison is on the low 32 bits. -/
def execAmocasW (rd rs1 rs2 : Reg) (aq rl : Bool) (s : State) : Host.Outcome State Fault Refusal :=
  s.amo rd (s.getReg rs1) 4
    (fun old => if old = lowWord (s.getReg rd) then some (lowWord (s.getReg rs2)) else none) aq rl signExtendWord

/-- R145. -/
def execAmocasD (rd rs1 rs2 : Reg) (aq rl : Bool) (s : State) : Host.Outcome State Fault Refusal :=
  s.amo rd (s.getReg rs1) 8 (fun old => if old = s.getReg rd then some (s.getReg rs2) else none) aq rl id

/-- R149: one fence event; rs1 and rd are ignored (30_encoding R87). -/
def execFence (pred succ : FenceSet) (_rs1 _rd : Reg) (s : State) : Host.Outcome State Fault Refusal :=
  .next (s.record (.fence pred succ) .ram 0 0 0 false false).advance

end Sys2Proof.Machine
end

