-- ==== Sys2Proof/Machine/Control.lean ====
section
/-! DEFINITION. Control transfer (43_integer_support R169-R172). -/

namespace Sys2Proof.Machine

/-- R169: why a transfer to `t` does not happen, if it does not. -/
def State.targetStop (s : State) (t : Word) : Option Stop :=
  if t.toNat % 4 = 0 then none
  else if s.cfg.hasC then some (.refuse .unmodelledLength)
  else some (.raise .instructionAddressMisaligned)

/-- A branch, taken or not (R169-R171). -/
def State.branch (s : State) (taken : Bool) (offset : BitVec 13) : Host.Outcome State Fault Refusal :=
  if taken then
    match s.targetStop (branchTarget s.pc offset) with
    | some e => s.stop e
    | none => .next (s.setPc (branchTarget s.pc offset))
  else .next s.advance

/-- R170. -/
def execBeq (rs1 rs2 : Reg) (offset : BitVec 13) (s : State) : Host.Outcome State Fault Refusal :=
  s.branch (s.getReg rs1 == s.getReg rs2) offset

/-- R171. -/
def execBne (rs1 rs2 : Reg) (offset : BitVec 13) (s : State) : Host.Outcome State Fault Refusal :=
  s.branch (s.getReg rs1 != s.getReg rs2) offset

/-- R172. -/
def execJal (rd : Reg) (offset : BitVec 21) (s : State) : Host.Outcome State Fault Refusal :=
  match s.targetStop (jumpTarget s.pc offset) with
  | some e => s.stop e
  | none => .next ((s.setReg rd (s.pc + 4)).setPc (jumpTarget s.pc offset))

end Sys2Proof.Machine
end

