-- ==== Sys2Proof/Machine/CsrAccess.lean ====
section
/-! DEFINITION. The six CSR instructions (40_register_interface R106-R111). -/

namespace Sys2Proof.Machine

/-- R106. -/
def execCsrrw (rd rs1 : Reg) (csr : BitVec 12) (s : State) : Host.Outcome State Fault Refusal :=
  s.csrSwap rd csr (s.getReg rs1)

/-- R107. -/
def execCsrrs (rd rs1 : Reg) (csr : BitVec 12) (s : State) : Host.Outcome State Fault Refusal :=
  s.csrSet rd csr (rs1 != 0) (s.getReg rs1)

/-- R108. -/
def execCsrrc (rd rs1 : Reg) (csr : BitVec 12) (s : State) : Host.Outcome State Fault Refusal :=
  s.csrClear rd csr (rs1 != 0) (s.getReg rs1)

/-- R109. -/
def execCsrrwi (rd : Reg) (uimm : BitVec 5) (csr : BitVec 12) (s : State) : Host.Outcome State Fault Refusal :=
  s.csrSwap rd csr (uimmWord uimm)

/-- R110. -/
def execCsrrsi (rd : Reg) (uimm : BitVec 5) (csr : BitVec 12) (s : State) : Host.Outcome State Fault Refusal :=
  s.csrSet rd csr (uimm != 0) (uimmWord uimm)

/-- R111. -/
def execCsrrci (rd : Reg) (uimm : BitVec 5) (csr : BitVec 12) (s : State) : Host.Outcome State Fault Refusal :=
  s.csrClear rd csr (uimm != 0) (uimmWord uimm)

end Sys2Proof.Machine
end

