-- ==== Sys2Proof/Machine/Integer.lean ====
section
/-! DEFINITION. The integer instructions (43_integer_support R163-R168). -/

namespace Sys2Proof.Machine

/-- An integer instruction's end: `rd` takes the result and pc moves on. -/
def State.result (s : State) (rd : Reg) (v : Word) : Host.Outcome State Fault Refusal :=
  .next (s.setReg rd v).advance

/-- R164. -/
def execLui (rd : Reg) (imm : BitVec 20) (s : State) : Host.Outcome State Fault Refusal :=
  s.result rd (upperWord imm)

/-- R165. -/
def execAddi (rd rs1 : Reg) (imm : BitVec 12) (s : State) : Host.Outcome State Fault Refusal :=
  s.result rd (s.getReg rs1 + immWord imm)

/-- R166. -/
def execAndi (rd rs1 : Reg) (imm : BitVec 12) (s : State) : Host.Outcome State Fault Refusal :=
  s.result rd (s.getReg rs1 &&& immWord imm)

/-- R167. -/
def execSlli (rd rs1 : Reg) (shamt : BitVec 6) (s : State) : Host.Outcome State Fault Refusal :=
  s.result rd (s.getReg rs1 <<< shamt.toNat)

/-- R168. -/
def execAdd (rd rs1 rs2 : Reg) (s : State) : Host.Outcome State Fault Refusal :=
  s.result rd (s.getReg rs1 + s.getReg rs2)

end Sys2Proof.Machine
end

