-- ==== Sys2Proof/Machine/LoadStore.lean ====
section
/-! DEFINITION. The four loads and stores (40_register_interface R115-R119). -/

namespace Sys2Proof.Machine

/-- R115. -/
def execLw (rd rs1 : Reg) (imm : BitVec 12) (s : State) : Host.Outcome State Fault Refusal :=
  match s.load (effectiveAddress (s.getReg rs1) imm) 4 with
  | .error e => s.stop e
  | .ok (v, t) => .next ((t.setReg rd (signExtendWord v)).advance)

/-- R116. -/
def execLd (rd rs1 : Reg) (imm : BitVec 12) (s : State) : Host.Outcome State Fault Refusal :=
  match s.load (effectiveAddress (s.getReg rs1) imm) 8 with
  | .error e => s.stop e
  | .ok (v, t) => .next ((t.setReg rd v).advance)

/-- R117. -/
def execSw (rs1 rs2 : Reg) (imm : BitVec 12) (s : State) : Host.Outcome State Fault Refusal :=
  match s.store (effectiveAddress (s.getReg rs1) imm) 4 (s.getReg rs2) with
  | .error e => s.stop e
  | .ok t => .next t.advance

/-- R118. -/
def execSd (rs1 rs2 : Reg) (imm : BitVec 12) (s : State) : Host.Outcome State Fault Refusal :=
  match s.store (effectiveAddress (s.getReg rs1) imm) 8 (s.getReg rs2) with
  | .error e => s.stop e
  | .ok t => .next t.advance

end Sys2Proof.Machine
end

