-- ==== Sys2Proof/Machine/Outside.lean ====
section
/-! DEFINITION. The meanings of the 33 rows of the opcode table that the spec refuses: each answers the refusal its
rule states (30_encoding R81, R86, R87; 44_system R175-R177; log entry 17). -/

namespace Sys2Proof.Machine

/-- R175: refused. -/
def execEcall (_s : State) : Host.Outcome State Fault Refusal := .refused .outsideBlock

/-- R175: refused. -/
def execEbreak (_s : State) : Host.Outcome State Fault Refusal := .refused .outsideBlock

/-- R176: refused. -/
def execWfi (_s : State) : Host.Outcome State Fault Refusal := .refused .outsideBlock

/-- R177: refused. -/
def execSret (_s : State) : Host.Outcome State Fault Refusal := .refused .outsideBlock

/-- R177: refused. -/
def execUret (_s : State) : Host.Outcome State Fault Refusal := .refused .outsideBlock

/-- R177: refused. -/
def execSfenceVma (_word : BitVec 32) (_s : State) : Host.Outcome State Fault Refusal := .refused .outsideBlock

/-- R86: refused. -/
def execFenceI (_word : BitVec 32) (_s : State) : Host.Outcome State Fault Refusal := .refused .outsideBlock

/-- R86: refused. -/
def execAuipc (_word : BitVec 32) (_s : State) : Host.Outcome State Fault Refusal := .refused .outsideBlock

/-- R86: refused. -/
def execJalr (_word : BitVec 32) (_s : State) : Host.Outcome State Fault Refusal := .refused .outsideBlock

/-- R86: refused. -/
def execSub (_word : BitVec 32) (_s : State) : Host.Outcome State Fault Refusal := .refused .outsideBlock

/-- R86: refused. -/
def execLb (_word : BitVec 32) (_s : State) : Host.Outcome State Fault Refusal := .refused .outsideBlock

/-- R86: refused. -/
def execLh (_word : BitVec 32) (_s : State) : Host.Outcome State Fault Refusal := .refused .outsideBlock

/-- R86: refused. -/
def execLbu (_word : BitVec 32) (_s : State) : Host.Outcome State Fault Refusal := .refused .outsideBlock

/-- R86: refused. -/
def execLhu (_word : BitVec 32) (_s : State) : Host.Outcome State Fault Refusal := .refused .outsideBlock

/-- R86: refused. -/
def execLwu (_word : BitVec 32) (_s : State) : Host.Outcome State Fault Refusal := .refused .outsideBlock

/-- R86: refused. -/
def execSb (_word : BitVec 32) (_s : State) : Host.Outcome State Fault Refusal := .refused .outsideBlock

/-- R86: refused. -/
def execSh (_word : BitVec 32) (_s : State) : Host.Outcome State Fault Refusal := .refused .outsideBlock

/-- R86: refused. -/
def execBlt (_word : BitVec 32) (_s : State) : Host.Outcome State Fault Refusal := .refused .outsideBlock

/-- R86: refused. -/
def execBge (_word : BitVec 32) (_s : State) : Host.Outcome State Fault Refusal := .refused .outsideBlock

/-- R86: refused. -/
def execBltu (_word : BitVec 32) (_s : State) : Host.Outcome State Fault Refusal := .refused .outsideBlock

/-- R86: refused. -/
def execBgeu (_word : BitVec 32) (_s : State) : Host.Outcome State Fault Refusal := .refused .outsideBlock

/-- R86: refused. -/
def execLrW (_word : BitVec 32) (_s : State) : Host.Outcome State Fault Refusal := .refused .outsideBlock

/-- R86: refused. -/
def execLrD (_word : BitVec 32) (_s : State) : Host.Outcome State Fault Refusal := .refused .outsideBlock

/-- R86: refused. -/
def execScW (_word : BitVec 32) (_s : State) : Host.Outcome State Fault Refusal := .refused .outsideBlock

/-- R86: refused. -/
def execScD (_word : BitVec 32) (_s : State) : Host.Outcome State Fault Refusal := .refused .outsideBlock

/-- R86: refused. -/
def execAmoaddW (_word : BitVec 32) (_s : State) : Host.Outcome State Fault Refusal := .refused .outsideBlock

/-- R86: refused. -/
def execAmoaddD (_word : BitVec 32) (_s : State) : Host.Outcome State Fault Refusal := .refused .outsideBlock

/-- R86: refused. -/
def execSystemFunct3_100 (_word : BitVec 32) (_s : State) : Host.Outcome State Fault Refusal := .refused .outsideBlock

/-- R87: refused. -/
def execFenceTso (_s : State) : Host.Outcome State Fault Refusal := .refused .unmodelledFence

/-- R81: refused. -/
def execShort00 (_parcel : BitVec 16) (_s : State) : Host.Outcome State Fault Refusal := .refused .unmodelledLength

/-- R81: refused. -/
def execShort01 (_parcel : BitVec 16) (_s : State) : Host.Outcome State Fault Refusal := .refused .unmodelledLength

/-- R81: refused. -/
def execShort10 (_parcel : BitVec 16) (_s : State) : Host.Outcome State Fault Refusal := .refused .unmodelledLength

/-- R81: refused. -/
def execLong (_word : BitVec 32) (_s : State) : Host.Outcome State Fault Refusal := .refused .unmodelledLength

end Sys2Proof.Machine
end

