-- ==== Sys2Proof/Machine/System.lean ====
section
/-! DEFINITION. Trap return (44_system R174). -/

namespace Sys2Proof.Machine

/-- R174. In a mode below M, which no run reaches, it raises IllegalInstruction (R173; log entry 18). -/
def execMret (s : State) : Host.Outcome State Fault Refusal :=
  if s.hart.priv ≠ .machine then .next (s.takeException .illegalInstruction)
  else if mstatusMpp s.hart.mstatus ≠ 3 then .refused .leavesMachineMode
  else if s.hart.mepc.toNat % 4 ≠ 0 then .refused .unmodelledLength
  else .next s.trapReturn

end Sys2Proof.Machine
end

