-- ==== Sys2Proof/Machine/Dispatch.lean ====
section
/-! DEFINITION. The one dispatch from instructions to their meanings. -/

namespace Sys2Proof.Machine

def exec (i : Instr) (s : State) : Host.Outcome State Fault Refusal :=
  match i with
  | .csrrw rd rs1 csr => Sys2Proof.Machine.execCsrrw rd rs1 csr s
  | .csrrs rd rs1 csr => Sys2Proof.Machine.execCsrrs rd rs1 csr s
  | .csrrc rd rs1 csr => Sys2Proof.Machine.execCsrrc rd rs1 csr s
  | .csrrwi rd uimm csr => Sys2Proof.Machine.execCsrrwi rd uimm csr s
  | .csrrsi rd uimm csr => Sys2Proof.Machine.execCsrrsi rd uimm csr s
  | .csrrci rd uimm csr => Sys2Proof.Machine.execCsrrci rd uimm csr s
  | .lw rd rs1 imm => Sys2Proof.Machine.execLw rd rs1 imm s
  | .ld rd rs1 imm => Sys2Proof.Machine.execLd rd rs1 imm s
  | .sw rs1 rs2 imm => Sys2Proof.Machine.execSw rs1 rs2 imm s
  | .sd rs1 rs2 imm => Sys2Proof.Machine.execSd rs1 rs2 imm s
  | .amoswapW rd rs1 rs2 aq rl => Sys2Proof.Machine.execAmoswapW rd rs1 rs2 aq rl s
  | .amoswapD rd rs1 rs2 aq rl => Sys2Proof.Machine.execAmoswapD rd rs1 rs2 aq rl s
  | .amocasW rd rs1 rs2 aq rl => Sys2Proof.Machine.execAmocasW rd rs1 rs2 aq rl s
  | .amocasD rd rs1 rs2 aq rl => Sys2Proof.Machine.execAmocasD rd rs1 rs2 aq rl s
  | .fence pred succ rs1 rd => Sys2Proof.Machine.execFence pred succ rs1 rd s
  | .lui rd imm => Sys2Proof.Machine.execLui rd imm s
  | .addi rd rs1 imm => Sys2Proof.Machine.execAddi rd rs1 imm s
  | .andi rd rs1 imm => Sys2Proof.Machine.execAndi rd rs1 imm s
  | .slli rd rs1 shamt => Sys2Proof.Machine.execSlli rd rs1 shamt s
  | .add rd rs1 rs2 => Sys2Proof.Machine.execAdd rd rs1 rs2 s
  | .beq rs1 rs2 offset => Sys2Proof.Machine.execBeq rs1 rs2 offset s
  | .bne rs1 rs2 offset => Sys2Proof.Machine.execBne rs1 rs2 offset s
  | .jal rd offset => Sys2Proof.Machine.execJal rd offset s
  | .mret => Sys2Proof.Machine.execMret s
  | .ecall => Sys2Proof.Machine.execEcall s
  | .ebreak => Sys2Proof.Machine.execEbreak s
  | .wfi => Sys2Proof.Machine.execWfi s
  | .sret => Sys2Proof.Machine.execSret s
  | .uret => Sys2Proof.Machine.execUret s
  | .sfenceVma word => Sys2Proof.Machine.execSfenceVma word s
  | .fenceI word => Sys2Proof.Machine.execFenceI word s
  | .auipc word => Sys2Proof.Machine.execAuipc word s
  | .jalr word => Sys2Proof.Machine.execJalr word s
  | .sub word => Sys2Proof.Machine.execSub word s
  | .lb word => Sys2Proof.Machine.execLb word s
  | .lh word => Sys2Proof.Machine.execLh word s
  | .lbu word => Sys2Proof.Machine.execLbu word s
  | .lhu word => Sys2Proof.Machine.execLhu word s
  | .lwu word => Sys2Proof.Machine.execLwu word s
  | .sb word => Sys2Proof.Machine.execSb word s
  | .sh word => Sys2Proof.Machine.execSh word s
  | .blt word => Sys2Proof.Machine.execBlt word s
  | .bge word => Sys2Proof.Machine.execBge word s
  | .bltu word => Sys2Proof.Machine.execBltu word s
  | .bgeu word => Sys2Proof.Machine.execBgeu word s
  | .lrW word => Sys2Proof.Machine.execLrW word s
  | .lrD word => Sys2Proof.Machine.execLrD word s
  | .scW word => Sys2Proof.Machine.execScW word s
  | .scD word => Sys2Proof.Machine.execScD word s
  | .amoaddW word => Sys2Proof.Machine.execAmoaddW word s
  | .amoaddD word => Sys2Proof.Machine.execAmoaddD word s
  | .systemFunct3_100 word => Sys2Proof.Machine.execSystemFunct3_100 word s
  | .fenceTso => Sys2Proof.Machine.execFenceTso s
  | .short00 parcel => Sys2Proof.Machine.execShort00 parcel s
  | .short01 parcel => Sys2Proof.Machine.execShort01 parcel s
  | .short10 parcel => Sys2Proof.Machine.execShort10 parcel s
  | .long word => Sys2Proof.Machine.execLong word s

end Sys2Proof.Machine
end

