-- ==== Sys2Proof/Machine/Boundary.lean ====
section
/-! DEFINITION. One move of one agent: the instruction boundary of a hart (60_exceptions R183) and the other agents'
steps (10_state R11). -/

namespace Sys2Proof.Machine

/-- The executing hart runs the instruction at its pc. -/
def State.runInstruction (s : State) : Host.Outcome State Fault Refusal :=
  match s.fetch with
  | .error e => s.stop e
  | .ok bytes =>
    match decodeBytes bytes with
    | .error r => .refused (rejectRefusal r)
    | .ok i => exec i s

/-- The executing hart's step (60_exceptions R183): at a boundary with a takeable interrupt it takes it, if the move
says so; otherwise it executes the instruction at pc. -/
def State.hartStep (s : State) (takeInterrupt : Bool) : Host.Outcome State Fault Refusal :=
  match s.hart.nextInterrupt s.cfg, takeInterrupt with
  | some c, true => .next (s.takeInterrupt c)
  | _, _ => s.runInstruction

/-- What a hart's step comes to for the whole machine: its end of run, and the turn passed on. -/
def endHartOutcome : Host.Outcome State Fault Refusal → Host.Outcome State Fault Refusal
  | .next t => .next t.endHartStep
  | .fault f => .fault f
  | .refused r => .refused r

/-- The two ways to be stuck (20_memory R57). -/
def Fault.stuck : Fault → Bool
  | .stuckData | .stuckFetch => true
  | .fetchMisaligned => false

/-- The outcome by which a hart has no step: it is stuck (00_scope R8, R10; log entry 12). -/
def isStuck : Host.Outcome State Fault Refusal → Bool
  | .fault f => f.stuck
  | _ => false

/-- Hart `h` has the step of this move: it exists, has not exited and is not stuck (00_scope R10, 70_reset R206). -/
def State.hartSteps (s : State) (h : Nat) (takeInterrupt : Bool) : Bool :=
  s.runs h && !isStuck ({ s with cur := h }.hartStep takeInterrupt)

/-- One move. A move that is not enabled (a hart that is exited or stuck or does not exist, an environment with
`EXT_IRQ = none`) only passes the turn (log entry 8), so that the other agents go on. -/
def State.makeMove (s : State) : Move → Host.Outcome State Fault Refusal
  | .timer => .next s.tick.passTurn
  | .propagate h => .next (s.propagate h).passTurn
  | .environment h line level => .next (s.environment h line level).passTurn
  | .hart h takeInterrupt =>
    if s.hartSteps h takeInterrupt then endHartOutcome ({ s with cur := h }.hartStep takeInterrupt)
    else .next s.passTurn

/-! ### What a fault or a refusal leaves (00_scope R8, R10; 10_state R42) -/

/-- `fault(reason)`: the fault joins the fault set, which is never cleared. -/
def State.noteFault (s : State) (f : Fault) : State := { s with faults := s.faults.insert f }

/-- `refuse(reason)`: the whole state is marked refused. -/
def State.noteRefusal (s : State) : State := { s with refused := true }

/-- The state that a move leaves behind, whatever its outcome. A fault or a refusal has no other effect than its mark;
the turn passes, and the move's hart stands where it stood (DESIGN CHOICE, safe; log entry 13). -/
def State.settle (s : State) : Host.Outcome State Fault Refusal → State
  | .next t => t
  | .fault f => (s.noteFault f).passTurn
  | .refused _ => s.noteRefusal.passTurn

end Sys2Proof.Machine
end

