-- ==== Sys2Proof/Machine/Step.lean ====
section
/-! DEFINITION. One step of the machine: one move of one agent (10_state R11). -/

namespace Sys2Proof.Machine

/-- One step: the move whose turn it is (log entry 7). -/
def step (s : State) : Host.Outcome State Fault Refusal := s.makeMove s.nextMove

/-- The state with one instruction stored where the next step fetches (log entry 6). -/
def State.withFetchWord (s : State) (nbits w : Nat) : State := s.placeAtPc nbits w

end Sys2Proof.Machine
end

