-- ==== Sys2Proof/Machine/Protocols.lean ====
section
/-! DEFINITION. The hardware sequences behind the source's protocols, as instructions: the masked critical section, the
arming of a timer, and the lock (40_register_interface R114, 41_timer_arming R128, 42_atomic_lock R150-R154). They are
software over the block; the machine does not know them. -/

namespace Sys2Proof.Machine

/-- R150, the acquire by swap, with the lock's address in `a` and `one`, `old` as scratch. -/
def acquireBySwap (a one old : Reg) : List Instr :=
  [.addi one 0 1, .amoswapD old a one true false, .bne old 0 (BitVec.ofInt 13 (-4))]

/-- R151. -/
def releaseBySwap (a : Reg) : List Instr := [.amoswapD 0 a 0 false true]

/-- The set `rw` of a FENCE. -/
def fenceRw : FenceSet := { i := false, o := false, r := true, w := true }

/-- The set `w` of a FENCE. -/
def fenceW : FenceSet := { i := false, o := false, r := false, w := true }

/-- R152. -/
def releaseByFence (a : Reg) : List Instr := [.fence fenceRw fenceW 0 0, .sd a 0 0]

/-- R153. -/
def acquireByCas (a one expected : Reg) : List Instr :=
  [.addi one 0 1, .addi expected 0 0, .amocasD expected a one true false, .bne expected 0 (BitVec.ofInt 13 (-8))]

/-- R154, the test-and-test-and-set loop. -/
def acquireByTest (a one old : Reg) : List Instr :=
  [.ld old a 0, .bne old 0 (BitVec.ofInt 13 (-4)), .amoswapD old a one true false,
    .bne old 0 (BitVec.ofInt 13 (-12))]

/-- R114, the first half: the old mstatus to `save`, and MIE cleared. -/
def maskInterrupts (save : Reg) : List Instr := [.csrrci save 8 0x300]

/-- R114, the second half: MIE as it was. -/
def restoreInterrupts (save : Reg) : List Instr := [.andi save save 8, .csrrs 0 save 0x300]

/-- R128, with B in `base`, I in `interval`, the hart's number in `id`, and `slot`, `count`, `tmp` as scratch (program P1
of 95_test_vectors). -/
def armTimer (base interval id slot count tmp : Reg) : List Instr :=
  [.slli slot id 3, .add slot slot base, .lui count 0x4, .add slot slot count, .lui tmp 0xC, .add tmp tmp base,
    .ld count tmp (BitVec.ofInt 12 (-8)), .add count count interval, .sd slot count 0]

end Sys2Proof.Machine
end

