-- ==== Sys2Proof/Machine/Launch.lean ====
section
/-! DEFINITION. The reset of a run from its launch (70_reset R198-R203, R207): the host's program, data, register
values and parameters, and the draws of the reset values the spec leaves unspecified. -/

namespace Sys2Proof.Machine

/-- What a launch gives, and reset draws, for one hart (R199, R203). Only the bits the rule leaves open are used. -/
structure HartLaunch where
  /-- LP-regs: x1..x31. -/
  regs : Vector Word 32
  mstatus : Word
  mie : Word
  mipSw : Word
  mtipSeen : Bool
  msipIn : Bool
  meipIn : Bool
  seipIn : Bool
  satp : Word
  medeleg : Word
  mideleg : Word
  pmpcfg : Vector Byte 16
  pmpaddr : Vector Word 16
  mscratch : Word
  mtvec : Word
  mepc : Word
  deriving DecidableEq, Repr

/-- A launch (R203, R207): LP-image, LP-regs, LP-params and the timer's values (LP-timer), and the choices of the run. -/
structure Launch where
  /-- LP-params; the length of TEXT is taken from `text`. -/
  cfg : Config
  /-- TEXT, the words from TEXT_BASE on. -/
  text : List (BitVec 32)
  /-- The data bytes, by address; a Lock State word that is not given is 0 (R200). -/
  data : List Host.Cell
  /-- One entry for each hart. -/
  harts : List HartLaunch
  mtime : Word
  /-- One entry for each hart. -/
  mtimecmp : List Word
  oracle : List (Option Word)
  agenda : List Move
  deriving DecidableEq, Repr

/-- mstatus at reset: MIE 0, MPP one of 0, 1, 3, the other modelled bits as drawn (R199). -/
def resetMstatus (c : Config) (drawn : Word) : Word :=
  let ms := withMie (drawn &&& mstatusMod c) false
  if mstatusMpp ms = 2 then withMpp ms 0 else ms

/-- A hart at reset (R199): the stated values, and the drawn ones within their stated sets. -/
def HartLaunch.reset (c : Config) (l : HartLaunch) : Hart where
  regs := l.regs
  pc := c.resetVector
  priv := .machine
  mstatus := resetMstatus c l.mstatus
  mie := l.mie &&& c.mieWmask
  mipSw := l.mipSw &&& mipSwMask c
  mtipSeen := l.mtipSeen
  msipIn := decide (c.extIrq = .any) && l.msipIn
  meipIn := decide (c.extIrq = .any) && l.meipIn
  seipIn := decide (c.extIrq = .any) && l.seipIn
  satp := if satpModeLegal c l.satp then l.satp else 0
  medeleg := l.medeleg &&& c.medelegWmask
  mideleg := l.mideleg &&& c.midelegWmask
  pmpcfg := l.pmpcfg.map fun b => b &&& 0x07
  pmpaddr := l.pmpaddr.map fun a => a &&& pmpaddrMask
  mscratch := l.mscratch
  mtvec := if mtvecLegal l.mtvec then l.mtvec else 0
  mepc := l.mepc &&& mepcMask c
  mcause := c.resetMcause
  events := 0
  exited := false

/-- The bytes of TEXT from an address on (20_memory R44, R55). -/
def Memory.writeWords (m : Memory) (a : Nat) : List (BitVec 32) → Memory
  | [] => m
  | w :: ws => Memory.writeWords (m.writeBytes a 4 (w.setWidth 64)) (a + 4) ws

/-- The bytes of the launch data. -/
def Memory.writeCells (m : Memory) : List Host.Cell → Memory
  | [] => m
  | (a, v) :: cells => Memory.writeCells (m.write a v) cells

/-- The launch image: the data, and TEXT over it (LP-image). -/
def Launch.image (l : Launch) : Memory := (Memory.writeCells [] l.data).writeWords l.cfg.textBase.toNat l.text

/-- The machine right after the reset of a launch (R198-R200): a clean state (LP-clean, LP-history). -/
def State.launch (l : Launch) : State :=
  let c := { l.cfg with textWords := l.text.length }
  { cfg := c
    harts := l.harts.map (HartLaunch.reset c)
    cur := 0
    mtime := l.mtime
    mtimecmp := l.mtimecmp
    ram := l.image
    image := l.image
    history := []
    faults := []
    refused := false
    oracle := l.oracle
    agenda := l.agenda
    rota := .hart 0 true
    draws := 0 }

/-- The draws of State.reset: every unspecified value 0 (log entries 1, 2, 3). -/
def HartLaunch.zero : HartLaunch where
  regs := Vector.replicate 32 0
  mstatus := 0
  mie := 0
  mipSw := 0
  mtipSeen := false
  msipIn := false
  meipIn := false
  seipIn := false
  satp := 0
  medeleg := 0
  mideleg := 0
  pmpcfg := Vector.replicate 16 0
  pmpaddr := Vector.replicate 16 0
  mscratch := 0
  mtvec := 0
  mepc := 0

/-- The launch that State.reset is the reset of: one hart, no program, no data. -/
def Launch.empty : Launch where
  cfg := Config.default
  text := []
  data := []
  harts := [HartLaunch.zero]
  mtime := 0
  mtimecmp := [0]
  oracle := []
  agenda := []

end Sys2Proof.Machine
end

