-- ==== Sys2Proof/Machine/MemoryModel.lean ====
section
/-! DEFINITION. The memory consistency model as axioms over the events of an execution (20_memory R61-R73): preserved
program order, the load-value, atomicity, progress and device-order axioms, and when a global memory order makes an
execution consistent. An execution may be infinite: it gives an event for each place of a finite history, or for every
place of an infinite run. The places are in the order of the steps. -/

namespace Sys2Proof.Machine

/-! ### Events -/

def EventKind.isRead : EventKind → Bool
  | .read | .amoRead => true
  | .write | .amoWrite | .fence _ _ => false

def EventKind.isWrite : EventKind → Bool
  | .write | .amoWrite => true
  | .read | .amoRead | .fence _ _ => false

/-- A memory event: every event but a fence. -/
def EventKind.isMem (k : EventKind) : Bool := k.isRead || k.isWrite

/-- The event's access covers byte `x`. -/
def Event.covers (e : Event) (x : Nat) : Bool := decide (e.addr ≤ x) && decide (x < e.addr + e.size)

/-- The event's value at byte `x` (R43, R80). -/
def Event.byteAt (e : Event) (x : Nat) : Byte := (e.value >>> (8 * (x - e.addr))).setWidth 8

/-- Two accesses share a byte. -/
def Event.overlaps (e f : Event) : Bool :=
  decide (e.addr < f.addr + f.size) && decide (f.addr < e.addr + e.size)

/-- A write to byte `x` of RAM. -/
def Event.writesRam (e : Event) (x : Nat) : Bool := e.kind.isWrite && e.space == .ram && e.covers x

/-- A read of byte `x` of RAM. -/
def Event.readsRam (e : Event) (x : Nat) : Bool := e.kind.isRead && e.space == .ram && e.covers x

/-- The event's class is in a FENCE's set (R69, R71). -/
def Event.inSet (e : Event) (f : FenceSet) : Bool :=
  match e.space with
  | .ram => (e.kind.isRead && f.r) || (e.kind.isWrite && f.w)
  | .device => (e.kind.isRead && f.i) || (e.kind.isWrite && f.o)

/-- An acquire or release annotation (R64 clause 7). -/
def Event.annotated (e : Event) : Bool := e.aq || e.rl

/-- The event is a hart's, not the timer agent's. -/
def Event.ofHart (e : Event) : Bool :=
  match e.agent with
  | .hart _ => true
  | .timer => false

/-! ### Orders over an execution -/

/-- The events of an execution by place; none where a finite one has ended (R61). -/
abbrev Events := Nat → Option Event

/-- The events of a history. -/
def eventsOf (H : List Event) : Events := fun i => H[i]?

/-- A global memory order: whether the event at one place precedes the event at another (R63). -/
abbrev Order := Nat → Nat → Bool

/-- The event at a place satisfies `p`. -/
def eventIs (E : Events) (i : Nat) (p : Event → Bool) : Bool := (E i).any p

/-- The events at two places satisfy `p`. -/
def eventsAre (E : Events) (i j : Nat) (p : Event → Event → Bool) : Bool :=
  match E i, E j with
  | some e, some f => p e f
  | _, _ => false

/-- A memory event stands at the place. -/
def isMemAt (E : Events) (i : Nat) : Bool := eventIs E i fun e => e.kind.isMem

/-- Program order (R62): the same hart, and earlier in the order of the steps. -/
def poBefore (E : Events) (i j : Nat) : Bool :=
  decide (i < j) && eventsAre E i j fun e f => e.ofHart && e.agent == f.agent

/-- The writes that byte `x` of the read at `i` may return (R65): those before it in `gmo`, and its own hart's earlier
ones. -/
def candidate (E : Events) (gmo : Order) (i x j : Nat) : Bool :=
  eventIs E j (fun e => e.writesRam x) && (gmo j i || poBefore E j i)

/-- Of the writes that `p` names, the latest in `gmo`; none if there is no such write. -/
def IsLatest (gmo : Order) (p : Nat → Bool) : Option Nat → Prop
  | some j => p j = true ∧ ∀ k, p k = true → k ≠ j → gmo k j = true
  | none => ∀ k, p k = false

/-- The write that byte `x` of the read at `i` returns: the candidate that is latest in `gmo` (R65); none is the launch's
initial write. -/
def IsSource (E : Events) (gmo : Order) (i x : Nat) (src : Option Nat) : Prop :=
  IsLatest gmo (candidate E gmo i x) src

/-- The byte that a source gives. -/
def sourceByte (image : Memory) (E : Events) (src : Option Nat) (x : Nat) : Byte :=
  match src.bind E with
  | some e => e.byteAt x
  | none => image.read x

/-- The paired read and write of one AMO (R62, R66): adjacent events of one hart on the same bytes. -/
def paired (E : Events) (i j : Nat) : Bool :=
  decide (j = i + 1) && eventsAre E i j fun e f =>
    e.kind == .amoRead && f.kind == .amoWrite && e.ofHart && e.agent == f.agent && e.space == .ram &&
      f.space == .ram && e.addr == f.addr && e.size == f.size

/-! ### Preserved program order (R64), clause by clause, for `i` before `j` in one hart's program order -/

def ppo1 (E : Events) (i j : Nat) : Prop := eventsAre E i j (fun e f => f.kind.isWrite && e.overlaps f) = true

def ppo2 (E : Events) (gmo : Order) (i j : Nat) : Prop :=
  ∃ x, eventIs E i (fun e => e.readsRam x) = true ∧ eventIs E j (fun f => f.readsRam x) = true ∧
    (∀ k, poBefore E i k = true → poBefore E k j = true → eventIs E k (fun e => e.writesRam x) = false) ∧
    ∃ v w, IsSource E gmo i x v ∧ IsSource E gmo j x w ∧ v ≠ w

def ppo3 (E : Events) (gmo : Order) (i j : Nat) : Prop :=
  eventIs E i (fun e => e.kind == .amoWrite) = true ∧
    ∃ x, eventIs E j (fun f => f.readsRam x) = true ∧ IsSource E gmo j x (some i)

/-- A FENCE between two events orders them (R64 clause 4, R71). -/
def fenceOrders (e g f : Event) : Bool :=
  match g.kind with
  | .fence pred succ => e.inSet pred && f.inSet succ
  | _ => false

def ppo4 (E : Events) (i j : Nat) : Prop :=
  ∃ k, poBefore E i k = true ∧ poBefore E k j = true ∧
    eventIs E k (fun g => eventsAre E i j fun e f => fenceOrders e g f) = true

def ppo5 (E : Events) (i : Nat) : Prop := eventIs E i (fun e => e.aq) = true

def ppo6 (E : Events) (j : Nat) : Prop := eventIs E j (fun f => f.rl) = true

def ppo7 (E : Events) (i j : Nat) : Prop := eventsAre E i j (fun e f => e.annotated && f.annotated) = true

/-- Preserved program order (R64). -/
def ppo (E : Events) (gmo : Order) (i j : Nat) : Prop :=
  poBefore E i j = true ∧ eventsAre E i j (fun e f => e.kind.isMem && f.kind.isMem) = true ∧
    (ppo1 E i j ∨ ppo2 E gmo i j ∨ ppo3 E gmo i j ∨ ppo4 E i j ∨ ppo5 E i ∨ ppo6 E j ∨ ppo7 E i j)

/-! ### The axioms (R63-R69) -/

/-- `gmo` is a total order on the memory events, and relates nothing else (R63). -/
structure IsTotalOrder (E : Events) (gmo : Order) : Prop where
  onMem : ∀ i j, gmo i j = true → isMemAt E i = true ∧ isMemAt E j = true
  irrefl : ∀ i, gmo i i = false
  trans : ∀ i j k, gmo i j = true → gmo j k = true → gmo i k = true
  total : ∀ i j, isMemAt E i = true → isMemAt E j = true → i ≠ j → gmo i j = true ∨ gmo j i = true

/-- R67: no memory event is preceded by infinitely many others; their places have a bound. -/
def Progress (gmo : Order) : Prop := ∀ i, ∃ n, ∀ j, gmo j i = true → j < n

/-- R63, R64: `gmo` contains preserved program order. -/
def GmoKeepsPpo (E : Events) (gmo : Order) : Prop := ∀ i j, ppo E gmo i j → gmo i j = true

/-- R65: each byte of each RAM read has a source, and is its source's byte. -/
def LoadValues (image : Memory) (E : Events) (gmo : Order) : Prop :=
  ∀ i e x, E i = some e → e.readsRam x = true →
    ∃ src, IsSource E gmo i x src ∧ e.byteAt x = sourceByte image E src x

/-- A write to byte `x` by another hart than that of the event at `j`. -/
def foreignWrite (E : Events) (j x k : Nat) : Bool :=
  eventsAre E k j fun e f => e.writesRam x && e.agent != f.agent

/-- R66 for an AMO's write at `j` whose read's byte `x` returns `src`: that write precedes the AMO's, and no other hart's
write to the byte lies between. The initial write precedes every event. -/
def AtomicAt (E : Events) (gmo : Order) (j x : Nat) : Option Nat → Prop
  | some w => gmo w j = true ∧ ∀ k, foreignWrite E j x k = true → ¬(gmo w k = true ∧ gmo k j = true)
  | none => ∀ k, foreignWrite E j x k = true → gmo k j = false

/-- R66. -/
def AmosAtomic (E : Events) (gmo : Order) : Prop :=
  ∀ i j x src, paired E i j = true → eventIs E i (fun e => e.covers x) = true → IsSource E gmo i x src →
    AtomicAt E gmo j x src

/-- R63, R69: the device events stand in `gmo` in the order of their steps. -/
def DeviceOrder (E : Events) (gmo : Order) : Prop :=
  ∀ i j, i < j →
    eventsAre E i j (fun e f => e.kind.isMem && f.kind.isMem && e.space == .device && f.space == .device) = true →
    gmo i j = true

/-- R63: `gmo` makes the execution, from the launch memory, a consistent one. -/
structure Consistent (image : Memory) (E : Events) (gmo : Order) : Prop where
  order : IsTotalOrder E gmo
  progress : Progress gmo
  keepsPpo : GmoKeepsPpo E gmo
  loadValues : LoadValues image E gmo
  atomic : AmosAtomic E gmo
  deviceOrder : DeviceOrder E gmo

/-- The order that a list of places gives. -/
def listOrder (l : List Nat) : Order := fun i j => l.contains i && l.contains j && decide (l.idxOf i < l.idxOf j)

/-- The simulator's `gmo`: step order (R79). -/
def stepOrder (E : Events) : Order := fun i j => decide (i < j) && isMemAt E i && isMemAt E j

/-- The byte of RAM that the final observation reads: the last write to it in `gmo` (70_reset R206). -/
def IsFinalByte (image : Memory) (E : Events) (gmo : Order) (x : Nat) (b : Byte) : Prop :=
  ∃ src, IsLatest gmo (fun j => eventIs E j fun e => e.writesRam x) src ∧ b = sourceByte image E src x

/-- The simulator's states (R79): no oracle, memory in canonical form and as the last writes in step order leave it, and
the history so far consistent with `gmo` taken as step order. -/
structure State.SequentiallyConsistent (s : State) : Prop where
  noOracle : s.oracle = []
  ramWf : s.ram.wf
  ramAgrees : ∀ x, IsFinalByte s.image (eventsOf s.history) (stepOrder (eventsOf s.history)) x (s.ram.read x)
  consistent : Consistent s.image (eventsOf s.history) (stepOrder (eventsOf s.history))

end Sys2Proof.Machine
end

