-- ==== Sys2Proof/Safety.lean ====
section
/-! DEFINITION. The terms of the statements: the invariant of the machine, what an instruction changes and leaves alone,
the lock's discipline, and the runs with the fairness assumptions of 70_reset R211. -/

namespace Sys2Proof.Machine

/-- What every state a run reaches satisfies of one hart (10_state R16, R17, R22, R24, R25, R28-R34). -/
structure Hart.Inv (c : Config) (h : Hart) : Prop where
  /-- R16: pc is a multiple of 4. -/
  pcAligned : h.pc.toNat % 4 = 0
  /-- R17: only M-mode executes. -/
  machineMode : h.priv = .machine
  /-- R22: only modelled bits are stored. -/
  mstatusBits : h.mstatus &&& ~~~mstatusMod c = 0
  /-- R22: MPP is a legal mode. -/
  mppLegal : mstatusMpp h.mstatus ≠ 2
  /-- R24. -/
  mieBits : h.mie &&& ~~~c.mieWmask = 0
  /-- R25. -/
  mipBits : h.mipSw &&& ~~~mipSwMask c = 0
  /-- R28. -/
  satpLegal : satpModeLegal c h.satp = true
  /-- R29. -/
  medelegBits : h.medeleg &&& ~~~c.medelegWmask = 0
  /-- R29. -/
  midelegBits : h.mideleg &&& ~~~c.midelegWmask = 0
  /-- R32. -/
  mtvecIsLegal : mtvecLegal h.mtvec = true
  /-- R33. -/
  mepcBits : h.mepc &&& ~~~mepcMask c = 0
  /-- R34. -/
  mcauseIsLegal : mcauseLegal h.mcause = true ∨ h.mcause = c.resetMcause
  /-- R30: bits 6:5 of a configuration byte read 0. -/
  pmpReservedZero : ∀ i : Fin 16, h.pmpcfg[i] &&& 0x60 = 0
  /-- R30: bits 63:54 of pmpaddr read 0. -/
  pmpaddrBits : ∀ i : Fin 16, h.pmpaddr[i] &&& ~~~pmpaddrMask = 0

/-- What every state a run reaches satisfies. -/
structure State.Inv (s : State) : Prop where
  /-- The memory is in canonical form. -/
  ramWf : s.ram.wf
  /-- R39, R54: every listed byte lies in RAM. -/
  ramInside : ∀ cell ∈ s.ram, s.inRam cell.1 1 = true
  /-- R36: one compare register for each hart. -/
  slots : s.mtimecmp.length = s.harts.length
  /-- Some hart is the present one. -/
  active : s.Active
  harts : ∀ h ∈ s.harts, h.Inv s.cfg

/-- Every hart has a legal launch and the parameters are within their bounds: what the launch premises of 70_reset R203
and 00_scope R6 ask. -/
structure Launch.Legal (l : Launch) : Prop where
  cfgLegal : { l.cfg with textWords := l.text.length }.Legal
  someHart : l.harts ≠ []
  slots : l.mtimecmp.length = l.harts.length
  /-- R124. -/
  hartsBound : l.harts.length ≤ 4095
  dataInside : ∀ cell ∈ l.data,
    l.cfg.ramBase.toNat ≤ cell.1 ∧ cell.1 < l.cfg.ramBase.toNat + l.cfg.ramSize
  /-- 70_reset R206: EXIT_PC is a multiple of 4 in TEXT, and the word there is `jal zero, 0`. -/
  exitInText : ∀ p, l.cfg.exitPc = some p → p.toNat % 4 = 0 ∧
    ∃ k, p.toNat = l.cfg.textBase.toNat + 4 * k ∧ l.text[k]? = some 0x0000006F

/-! ### What an instruction changes, and what it leaves alone -/

/-- The event of the executing hart that stands `k` events on in its program order (20_memory R61). -/
def State.event (s : State) (k : Nat) (kind : EventKind) (space : Space) (a n : Nat) (v : Word) (aq rl : Bool) :
    Event :=
  { agent := .hart s.cur, po := s.hart.events + k, kind := kind, space := space, addr := a, size := n, value := v,
    aq := aq, rl := rl }

/-- Of the harts, only the executing one changes, and of it only `rd`, pc and the count of its events. -/
structure State.HartFrame (s t : State) (rd : Reg) (events : Nat) : Prop where
  regs : ∀ r, r ≠ rd → t.getReg r = s.getReg r
  csrs : t.hart = { s.hart with regs := t.hart.regs, pc := t.hart.pc, events := s.hart.events + events }
  others : ∀ k, k ≠ s.cur → t.harts[k]? = s.harts[k]?
  count : t.nharts = s.nharts

/-- Of a hart's state a write of CSR `r` changes no more than the storage of `r` (10_state R22-R35): for a PMP register,
the fields of its own entries. -/
def Hart.OnlyCsr (h k : Hart) : Csr → Prop
  | .mstatus | .sstatus => k = { h with mstatus := k.mstatus }
  | .mie | .sie => k = { h with mie := k.mie }
  | .mip | .sip => k = { h with mipSw := k.mipSw }
  | .satp => k = { h with satp := k.satp }
  | .medeleg => k = { h with medeleg := k.medeleg }
  | .mideleg => k = { h with mideleg := k.mideleg }
  | .pmpcfg0 => k = { h with pmpcfg := k.pmpcfg } ∧ ∀ i : Fin 16, 8 ≤ i.val → k.pmpcfg[i] = h.pmpcfg[i]
  | .pmpcfg2 => k = { h with pmpcfg := k.pmpcfg } ∧ ∀ i : Fin 16, i.val < 8 → k.pmpcfg[i] = h.pmpcfg[i]
  | .pmpaddr i => k = { h with pmpaddr := k.pmpaddr } ∧ ∀ j : Fin 16, j ≠ i → k.pmpaddr[j] = h.pmpaddr[j]
  | .mscratch => k = { h with mscratch := k.mscratch }
  | .mtvec => k = { h with mtvec := k.mtvec }
  | .mepc => k = { h with mepc := k.mepc }
  | .mcause => k = { h with mcause := k.mcause }
  | .mhartid => k = h

/-- Every byte of RAM reads as before. -/
def State.RamKept (s t : State) : Prop := ∀ x, t.ram.read x = s.ram.read x

/-- The `n` bytes from `a` take the low bytes of `v`, little-endian (20_memory R43), and every other byte reads as
before. -/
def State.Stores (s t : State) (a n : Nat) (v : Word) : Prop :=
  (∀ k, k < n → t.ram.read (a + k) = (v >>> (8 * k)).setWidth 8) ∧
    ∀ x, x < a ∨ a + n ≤ x → t.ram.read x = s.ram.read x

/-- `rd` takes `v` (x0 stays 0), pc becomes `next`, and nothing else of the machine changes. -/
structure State.WritesOnly (s t : State) (rd : Reg) (v next : Word) : Prop where
  dest : t.getReg rd = if rd = 0 then 0 else v
  pc : t.pc = next
  frame : s.HartFrame t rd 0
  memory : s.RamKept t
  rest : t = { s with harts := t.harts }

/-- `rd` takes `v` (x0 stays 0), pc moves on by 4, the history gains `made`, and nothing else changes but memory, of
which the statements speak beside this. `used` says whether the access takes the oracle's next value. -/
structure State.Accesses (s t : State) (rd : Reg) (v : Word) (made : List Event) (used : Bool) : Prop where
  dest : t.getReg rd = if rd = 0 then 0 else v
  pc : t.pc = s.pc + 4
  frame : s.HartFrame t rd made.length
  rest : t = { s with harts := t.harts, ram := t.ram, history := s.history ++ made,
                      oracle := if used then s.oracle.tail else s.oracle }

/-- Where a load or AMO of `n` bytes at `a` meets none of the checks that stop it: aligned, in RAM, outside the
timer-compare region, no locked, active PMP entry (20_memory R47, R54, R60). -/
abbrev State.Readable (s : State) (a n : Nat) : Prop :=
  a % n = 0 ∧ s.touchesTimer a n = false ∧ s.inRam a n = true ∧ s.pmpLocked = false

/-- Where a store or AMO meets none: readable, and outside the program text (20_memory R58). -/
abbrev State.Writable (s : State) (a n : Nat) : Prop := s.Readable a n ∧ s.touchesText a n = false

/-- The state that trap entry leaves (60_exceptions R186): mepc, mcause, MPIE, MIE, MPP, the mode and pc; nothing
else. -/
structure State.Trapped (s t : State) (interrupt : Bool) (code : Nat) : Prop where
  mepc : t.hart.mepc = s.pc &&& ~~~1
  mcause : t.hart.mcause = (if interrupt then 1#64 <<< 63 else 0) ||| BitVec.ofNat 64 code
  mpie : mstatusMpie t.hart.mstatus = mstatusMie s.hart.mstatus
  mie : mstatusMie t.hart.mstatus = false
  mpp : mstatusMpp t.hart.mstatus = s.hart.priv.code
  otherStatus : ∀ i, i ≠ 3 → i ≠ 7 → i ≠ 11 → i ≠ 12 → t.hart.mstatus.getLsbD i = s.hart.mstatus.getLsbD i
  priv : t.hart.priv = .machine
  pc : t.pc = (s.hart.mtvec >>> 2) <<< 2 +
    if interrupt ∧ s.hart.mtvec.extractLsb' 0 2 = 1 then BitVec.ofNat 64 (4 * code) else 0
  hart : t.hart = { s.hart with mepc := t.hart.mepc, mcause := t.hart.mcause, mstatus := t.hart.mstatus,
                                priv := t.hart.priv, pc := t.hart.pc }
  others : ∀ k, k ≠ s.cur → t.harts[k]? = s.harts[k]?
  count : t.nharts = s.nharts
  memory : s.RamKept t
  rest : t = { s with harts := t.harts, draws := t.draws }

/-! ### The lock (42_atomic_lock R155, R158) -/

/-- Event `w` is the write of a successful acquire of the lock word at `l`: the AMO read 0 and wrote 1. -/
def acquires (E : Events) (l w : Nat) : Prop :=
  ∃ r, paired E r w = true ∧ eventIs E r (fun e => e.addr == l && e.size == 8 && e.value == 0) = true ∧
    eventIs E w (fun e => e.value == 1) = true

/-- Event `w` is a write of 0 to the lock word at `l`. -/
def releases (E : Events) (l w : Nat) : Prop :=
  eventIs E w (fun e => e.kind.isWrite && e.space == .ram && e.addr == l && e.size == 8 && e.value == 0) = true

/-- R158, points 1 to 3, for the lock word at `l`: it is 0 at launch; only aligned 8-byte accesses touch it; every write
to it is the write of an AMO that writes 1, or a release; and each release is the holder's, exactly once per acquire,
`acquireOf` naming the acquire that it ends. -/
structure LockDiscipline (image : Memory) (E : Events) (l : Nat) (acquireOf : Nat → Nat) : Prop where
  launch : ∀ k, k < 8 → image.read (l + k) = 0
  whole : ∀ i x, l ≤ x → x < l + 8 → eventIs E i (fun e => e.writesRam x || e.readsRam x) = true →
    eventIs E i (fun e => e.addr == l && e.size == 8) = true
  writes : ∀ w, eventIs E w (fun e => e.writesRam l) = true →
    (eventIs E w (fun e => e.value == 1) = true ∧ ∃ r, paired E r w = true) ∨ releases E l w
  holder : ∀ w, releases E l w → acquires E l (acquireOf w) ∧ poBefore E (acquireOf w) w = true
  once : ∀ v w, releases E l v → releases E l w → acquireOf v = acquireOf w → v = w

/-! ### Runs -/

/-- A state one step can leave: the step's result, with the choices still to come (which the environment of the model
makes) replaced by any others. -/
def State.sameButChoices (t u : State) : Prop := u = { t with agenda := u.agenda, oracle := u.oracle, rota := u.rota }

/-- An infinite run: each state is what the step leaves of the one before, the choices to come being free at every
step. A step that faults or is refused leaves its mark (10_state R42), so no such run is final (00_scope R10). -/
def IsRun (r : Nat → State) : Prop := ∀ n, ((r n).settle (step (r n))).sameButChoices (r (n + 1))

/-- Hart `h` has a step: the instruction at its pc, or the trap entry of a takeable interrupt (00_scope R10). -/
def State.canStep (s : State) (h : Nat) : Bool := s.hartSteps h false || s.hartSteps h true

/-- The end of a run that is stuck, not final: no hart can step and some hart has not exited (70_reset R206). -/
def State.stuck (s : State) : Prop := (∀ h, h < s.nharts → s.canStep h = false) ∧ s.allExited = false

/-- Hart `h` takes a step at time `n`. -/
def stepsHart (r : Nat → State) (n h : Nat) : Prop :=
  ∃ take, (r n).nextMove = .hart h take ∧ (r n).hartSteps h take = true

/-- The events of a run by place: what its growing histories come to (20_memory R61). -/
structure IsEventsOfRun (r : Nat → State) (E : Events) : Prop where
  agrees : ∀ n i, i < (r n).history.length → E i = eventsOf (r n).history i
  made : ∀ i e, E i = some e → ∃ n, i < (r n).history.length

/-- The run is a consistent execution of the memory model (20_memory R63), in which no memory event has infinitely many
predecessors (R67). -/
def ConsistentRun (r : Nat → State) : Prop := ∃ E gmo, IsEventsOfRun r E ∧ Consistent (r 0).image E gmo

/-- Some interrupt is takeable at hart `h`'s boundary (60_exceptions R182). -/
def State.interruptible (s : State) (h : Nat) : Prop := ∃ x c, s.harts[h]? = some x ∧ x.nextInterrupt s.cfg = some c

/-- `MTIP_seen[h]`. -/
def State.mtipSeen (s : State) (h : Nat) : Bool := (s.harts[h]?).any fun x => x.mtipSeen

/-- A run with the fairness assumptions of 70_reset R211. -/
structure FairRun (r : Nat → State) : Prop where
  run : IsRun r
  /-- Every hart is weakly fair: one that has a step from some time on takes one (10_state R11). -/
  harts : ∀ h n, (∀ m, n ≤ m → (r m).canStep h = true) → ∃ m, n ≤ m ∧ stepsHart r m h
  /-- The timer agent is weakly fair (41 R120). -/
  timer : ∀ n, ∃ m, n ≤ m ∧ (r m).nextMove = .timer
  /-- A value that `MTIP_dev[h]` keeps is eventually seen (41 R126). -/
  stable : ∀ h n b, h < (r n).nharts → (∀ m, n ≤ m → (r m).mtipDev h = b) → ∃ k, ∀ m, k ≤ m → (r m).mtipSeen h = b
  /-- A 1 of `MTIP_dev[h]` that recurs unseen is eventually copied (41 R126). -/
  recurring : ∀ h, h < (r 0).nharts → (∀ n, ∃ m, n ≤ m ∧ (r m).mtipDev h = true ∧ (r m).mtipSeen h = false) →
    ∀ n, ∃ m, n ≤ m ∧ (r m).nextMove = .propagate h ∧ (r m).mtipDev h = true
  /-- A hart that keeps stepping takes an interrupt if one is takeable at infinitely many of its boundaries (60 R184).
  Between two of its steps the hart stands at a boundary whatever the other agents do, so every time counts. -/
  interrupts : ∀ h, (∀ n, ∃ m, n ≤ m ∧ (r m).interruptible h) → (∀ n, ∃ m, n ≤ m ∧ stepsHart r m h) →
    ∀ n, ∃ m, n ≤ m ∧ (r m).nextMove = .hart h true ∧ (r m).interruptible h
  /-- No memory event waits forever (20_memory R67): the run is a consistent execution, of which this is a part. -/
  memory : ConsistentRun r

end Sys2Proof.Machine
end

