-- ==== Sys2Proof/Certificates/Slice0/Obligations.lean ====
section
/-! DEFINITION. The statements for the provers. Each docstring names the rules of the spec it formalises, or the log
entry of the model's choice it states. A statement about a next state names every form of its instructions, x0 as a
destination among them. -/

open Sys2Proof Sys2Proof.Machine

/-! ### Encoding (30_encoding) -/

/-- Decoding the word of a well-formed instruction gives the instruction back (R82-R90). -/
def Obligations.DecodeOfEncodeIsTheInstruction : Prop :=
  ∀ i : Instr, i.wellFormed = true → decode (encode i) = .ok i

/-- A decoded instruction is well formed, and its word is the word decoded: no bit is dropped. A 16-bit form keeps its
16 bits (R81-R90). -/
def Obligations.EncodeOfDecodedIsTheWord : Prop :=
  ∀ (w : BitVec 32) (i : Instr), decode w = .ok i →
    i.wellFormed = true ∧ encode i = if w &&& 3 = 3 then w else (w.setWidth 16).setWidth 32

/-- R90: for any word at most one row of the table matches. -/
def Obligations.AtMostOneRowMatchesAWord : Prop :=
  (admittedRows ++ refusedRows).Pairwise fun r q => ∀ w, ¬(r.hits w = true ∧ q.hits w = true)

/-- A word of each format, as the spec's examples write it, decodes to the instruction the example names (R82-R88). -/
def Obligations.SpecExampleWordsDecode : Prop :=
  decode 0x34029073 = .ok (.csrrw 0 5 0x340) ∧ decode 0x300473F3 = .ok (.csrrci 7 8 0x300) ∧
    decode 0x0002B303 = .ok (.ld 6 5 0) ∧ decode 0xFE652E23 = .ok (.sw 10 6 (-4)) ∧
    decode 0x0C55332F = .ok (.amoswapD 6 10 5 true false) ∧ decode 0x2C5533AF = .ok (.amocasD 7 10 5 true false) ∧
    decode 0x0310000F = .ok (.fence fenceRw fenceW 0 0) ∧ decode 0x02000537 = .ok (.lui 10 0x2000) ∧
    decode 0x00359513 = .ok (.slli 10 11 3) ∧ decode 0x00C58533 = .ok (.add 10 11 12) ∧
    decode 0xFE031EE3 = .ok (.bne 6 0 (-4)) ∧ decode 0x010000EF = .ok (.jal 1 16) ∧ decode 0x30200073 = .ok .mret

/-! ### The step and the fetch -/

/-- When a hart's step executes the instruction at pc, and the bytes there decode to a well-formed instruction, the
step is exec of that instruction with the end of the hart's step done (`endHartStep`: exited, and the turn); a refusal
is the step's; where the instruction is stuck the hart has no step, and only the turn passes (R10, R11, R183). Which hart
moves is the model's data (log entry 7), and the idle move is the model's (log entries 8 and 12). -/
def Obligations.StepRunsTheDecodedInstruction : Prop :=
  ∀ (s : State) (h : Nat) (take : Bool) (bytes : List Byte) (i : Instr),
    s.nextMove = .hart h take → s.runs h = true →
    (take = true → (State.hart { s with cur := h }).nextInterrupt s.cfg = none) →
    State.fetch { s with cur := h } = .ok bytes → decodeBytes bytes = .ok i → i.wellFormed = true →
    (∀ t, exec i { s with cur := h } = .next t → step s = .next t.endHartStep) ∧
      (∀ f, exec i { s with cur := h } = .fault f →
        step s = if f = .stuckData ∨ f = .stuckFetch then .next s.passTurn else .fault f) ∧
      ∀ r, exec i { s with cur := h } = .refused r → step s = .refused r

/-- R44, R56, R57, R60: the instruction at pc is its four bytes, little-endian; a fetch in the timer-compare region is
refused, one of a hart with a locked, active PMP entry is refused, and one from outside both regions is stuck. That a
fetch from RAM outside TEXT reads RAM, and that the region refuses a fetch, is the model's reading (log entry 16);
that the PMP refusal comes after that of the region and before stuck is the model's choice (log entry 14). A locked
entry that is OFF restricts nothing (log entry 28). No region wraps at 2^64 (log entry 30). -/
def Obligations.FetchReadsFourBytesOrStops : Prop :=
  ∀ s : State, s.pc.toNat % 4 = 0 →
    (s.touchesTimer s.pc.toNat 4 = true → s.fetch = .error (.refuse .unmodelledDeviceAccess)) ∧
    (s.touchesTimer s.pc.toNat 4 = false → s.pmpLocked = true → s.fetch = .error (.refuse .pmpLocked)) ∧
    (s.touchesTimer s.pc.toNat 4 = false → s.pmpLocked = false → s.inRam s.pc.toNat 4 = false →
      s.fetch = .error (.fault .stuckFetch)) ∧
    (s.touchesTimer s.pc.toNat 4 = false → s.pmpLocked = false → s.inRam s.pc.toNat 4 = true →
      ∃ bytes, s.fetch = .ok bytes ∧
        decodeBytes bytes = decode (s.ram.read (s.pc.toNat + 3) ++ s.ram.read (s.pc.toNat + 2) ++
          s.ram.read (s.pc.toNat + 1) ++ s.ram.read s.pc.toNat))

/-- R81, R87: a hart at a 16-bit or longer form refuses UnmodelledLength, and at a FENCE with `fm` other than 0
UnmodelledFence, whatever the other bits. -/
def Obligations.LengthAndFenceFormsAreRefused : Prop :=
  ∀ (s : State) (w : BitVec 32), s.fetch = .ok (wordBytes w) →
    (w &&& 3 ≠ 3 ∨ w &&& 0x1F = 0x1F → s.runInstruction = .refused .unmodelledLength) ∧
      (w &&& 0x707F = 0xF → w &&& 0xF0000000 ≠ 0 → s.runInstruction = .refused .unmodelledFence)

/-- R86, R175-R177: every row of the table that the spec refuses ends in the refusal the rule names, in every state.
That the rows end as the rule for the block says, whatever the chip does, is log entry 17. -/
def Obligations.RefusedRowsRefuse : Prop :=
  ∀ (s : State) (w : BitVec 32) (p : BitVec 16),
    (∀ i ∈ [Instr.ecall, .ebreak, .wfi, .sret, .uret, .sfenceVma w, .fenceI w, .auipc w, .jalr w, .sub w, .lb w, .lh w,
        .lbu w, .lhu w, .lwu w, .sb w, .sh w, .blt w, .bge w, .bltu w, .bgeu w, .lrW w, .lrD w, .scW w, .scD w,
        .amoaddW w, .amoaddD w, .systemFunct3_100 w], exec i s = .refused .outsideBlock) ∧
      exec .fenceTso s = .refused .unmodelledFence ∧
      ∀ i ∈ [Instr.short00 p, .short01 p, .short10 p, .long w], exec i s = .refused .unmodelledLength

/-! ### Integer instructions (43_integer_support) -/

/-- R164. -/
def Obligations.LuiLoadsTheUpperImmediate : Prop :=
  ∀ (s : State) (rd : Reg) (imm : BitVec 20), s.Active →
    ∃ t, exec (.lui rd imm) s = .next t ∧ s.WritesOnly t rd ((imm.setWidth 32 <<< 12).signExtend 64) (s.pc + 4)

/-- R165, R166. -/
def Obligations.AddiAndAndiUseTheSignExtendedImmediate : Prop :=
  ∀ (s : State) (rd rs1 : Reg) (imm : BitVec 12), s.Active →
    (∃ t, exec (.addi rd rs1 imm) s = .next t ∧ s.WritesOnly t rd (s.getReg rs1 + imm.signExtend 64) (s.pc + 4)) ∧
      ∃ t, exec (.andi rd rs1 imm) s = .next t ∧ s.WritesOnly t rd (s.getReg rs1 &&& imm.signExtend 64) (s.pc + 4)

/-- R167: the result is `x[rs1]` times 2 to the shift amount, modulo 2^64. -/
def Obligations.SlliShiftsLeft : Prop :=
  ∀ (s : State) (rd rs1 : Reg) (shamt : BitVec 6), s.Active →
    ∃ t, exec (.slli rd rs1 shamt) s = .next t ∧
      s.WritesOnly t rd (BitVec.ofNat 64 ((s.getReg rs1).toNat * 2 ^ shamt.toNat)) (s.pc + 4)

/-- R168: the sum modulo 2^64. -/
def Obligations.AddWraps : Prop :=
  ∀ (s : State) (rd rs1 rs2 : Reg), s.Active →
    ∃ t, exec (.add rd rs1 rs2) s = .next t ∧
      s.WritesOnly t rd (BitVec.ofNat 64 ((s.getReg rs1).toNat + (s.getReg rs2).toNat)) (s.pc + 4)

/-! ### Control transfer (43_integer_support) -/

/-- R169-R171: BEQ when the registers are equal, and BNE when they differ, go to the branch's own address plus the
offset if that is a multiple of 4; otherwise pc moves on by 4, whatever the target. -/
def Obligations.BranchesGoToTheTargetOrOn : Prop :=
  ∀ (s : State) (rs1 rs2 : Reg) (offset : BitVec 13) (branch : Instr) (taken : Prop), s.Active →
    (branch = .beq rs1 rs2 offset ∧ (taken ↔ s.getReg rs1 = s.getReg rs2) ∨
      branch = .bne rs1 rs2 offset ∧ (taken ↔ s.getReg rs1 ≠ s.getReg rs2)) →
    (taken → (s.pc + offset.signExtend 64).toNat % 4 = 0 →
      ∃ t, exec branch s = .next t ∧ s.WritesOnly t 0 0 (s.pc + offset.signExtend 64)) ∧
    (¬taken → ∃ t, exec branch s = .next t ∧ s.WritesOnly t 0 0 (s.pc + 4))

/-- R172: the link is pc + 4 and pc becomes the target. -/
def Obligations.JalLinksAndJumps : Prop :=
  ∀ (s : State) (rd : Reg) (offset : BitVec 21), s.Active → (s.pc + offset.signExtend 64).toNat % 4 = 0 →
    ∃ t, exec (.jal rd offset) s = .next t ∧ s.WritesOnly t rd (s.pc + 4) (s.pc + offset.signExtend 64)

/-- R169: a taken branch or a jump to a target that is no multiple of 4 raises InstructionAddressMisaligned and does
nothing else with HAS_C = false, and is refused with HAS_C = true. -/
def Obligations.MisalignedTargetsTrapOrRefuse : Prop :=
  ∀ (s : State) (i : Instr) (target : Word), s.Active → target.toNat % 4 ≠ 0 →
    ((∃ rs1 rs2 offset, i = .beq rs1 rs2 offset ∧ s.getReg rs1 = s.getReg rs2 ∧
        target = s.pc + offset.signExtend 64) ∨
      (∃ rs1 rs2 offset, i = .bne rs1 rs2 offset ∧ s.getReg rs1 ≠ s.getReg rs2 ∧
        target = s.pc + offset.signExtend 64) ∨
      ∃ rd offset, i = .jal rd offset ∧ target = s.pc + offset.signExtend 64) →
    (s.cfg.hasC = true → exec i s = .refused .unmodelledLength) ∧
      (s.cfg.hasC = false → ∃ t, exec i s = .next t ∧ s.Trapped t false 0 ∧ t.draws = s.draws)

/-! ### Loads and stores (40_register_interface, 20_memory) -/

/-- R115: LW of RAM makes one read event and sign-extends the word the memory model gives. The value is the oracle's
or the simulator's (log entry 9). A locked entry that is OFF restricts nothing (log entry 28). -/
def Obligations.LwLoadsASignExtendedWord : Prop :=
  ∀ (s : State) (rd rs1 : Reg) (imm : BitVec 12) (a : Nat), s.Active →
    a = (s.getReg rs1 + imm.signExtend 64).toNat → s.Readable a 4 →
    ∃ t, exec (.lw rd rs1 imm) s = .next t ∧ s.RamKept t ∧
      s.Accesses t rd (((s.loadValue a 4).setWidth 32).signExtend 64)
        [s.event 0 .read .ram a 4 (s.loadValue a 4) false false] true

/-- R116: LD of RAM makes one read event and loads the eight bytes the memory model gives. The value is the oracle's
or the simulator's (log entry 9). A locked entry that is OFF restricts nothing (log entry 28). -/
def Obligations.LdLoadsADoubleword : Prop :=
  ∀ (s : State) (rd rs1 : Reg) (imm : BitVec 12) (a : Nat), s.Active →
    a = (s.getReg rs1 + imm.signExtend 64).toNat → s.Readable a 8 →
    ∃ t, exec (.ld rd rs1 imm) s = .next t ∧ s.RamKept t ∧
      s.Accesses t rd (s.loadValue a 8) [s.event 0 .read .ram a 8 (s.loadValue a 8) false false] true

/-- R43, R79: with the simulator's oracle the value of a RAM read is the bytes there, little-endian and
zero-extended. -/
def Obligations.SimulatorLoadIsTheBytes : Prop :=
  ∀ (s : State) (a n : Nat), s.oracle = [] → n = 4 ∨ n = 8 →
    (∀ k, k < n → ((s.loadValue a n) >>> (8 * k)).setWidth 8 = s.ram.read (a + k)) ∧
      (s.loadValue a n).toNat < 2 ^ (8 * n)

/-- R116, R121, R122: an aligned LD reads mtime at B + 0xBFF8 and mtimecmp[h] at B + 0x4000 + 8h, with one device read
event and no other effect. A locked entry that is OFF restricts nothing (log entry 28). The addresses do not wrap at
2^64 (log entry 30). -/
def Obligations.LdReadsTheTimerRegisters : Prop :=
  ∀ (s : State) (rd rs1 : Reg) (imm : BitVec 12) (a : Nat) (v : Word), s.Active →
    a = (s.getReg rs1 + imm.signExtend 64).toNat → a % 8 = 0 → s.pmpLocked = false → s.mtimecmp.length ≤ 4095 →
    ((a = s.cfg.timerBase.toNat + 0xBFF8 ∧ v = s.mtime) ∨
      ∃ h, a = s.cfg.timerBase.toNat + 0x4000 + 8 * h ∧ s.mtimecmp[h]? = some v) →
    ∃ t, exec (.ld rd rs1 imm) s = .next t ∧ s.RamKept t ∧
      s.Accesses t rd v [s.event 0 .read .device a 8 v false false] false

/-- R117: SW to RAM makes one write event of the low word. A locked entry that is OFF restricts nothing (log entry
28). -/
def Obligations.SwStoresTheLowWord : Prop :=
  ∀ (s : State) (rs1 rs2 : Reg) (imm : BitVec 12) (a : Nat), s.Active → s.ram.wf →
    a = (s.getReg rs1 + imm.signExtend 64).toNat → s.Writable a 4 →
    ∃ t, exec (.sw rs1 rs2 imm) s = .next t ∧ s.Stores t a 4 (s.getReg rs2) ∧
      s.Accesses t 0 0
        [s.event 0 .write .ram a 4 (((s.getReg rs2).setWidth 32).setWidth 64) false false] false

/-- R118: SD to RAM makes one write event of the doubleword. A locked entry that is OFF restricts nothing (log entry
28). -/
def Obligations.SdStoresTheDoubleword : Prop :=
  ∀ (s : State) (rs1 rs2 : Reg) (imm : BitVec 12) (a : Nat), s.Active → s.ram.wf →
    a = (s.getReg rs1 + imm.signExtend 64).toNat → s.Writable a 8 →
    ∃ t, exec (.sd rs1 rs2 imm) s = .next t ∧ s.Stores t a 8 (s.getReg rs2) ∧
      s.Accesses t 0 0 [s.event 0 .write .ram a 8 (s.getReg rs2) false false] false

/-- R118, R121, R123: an aligned SD at B + 0x4000 + 8h sets mtimecmp[h], any hart's, with one device write event; no
byte of RAM and no other compare register changes. A locked entry that is OFF restricts nothing (log entry 28). The
addresses do not wrap at 2^64 (log entry 30). -/
def Obligations.SdWritesACompareRegister : Prop :=
  ∀ (s : State) (rs1 rs2 : Reg) (imm : BitVec 12) (a h : Nat), s.Active →
    a = (s.getReg rs1 + imm.signExtend 64).toNat → a % 8 = 0 → s.pmpLocked = false →
    a = s.cfg.timerBase.toNat + 0x4000 + 8 * h → h < s.mtimecmp.length → s.mtimecmp.length ≤ 4095 →
    ∃ t, exec (.sd rs1 rs2 imm) s = .next t ∧ s.RamKept t ∧ t.mtimecmp[h]? = some (s.getReg rs2) ∧
      (∀ k, k ≠ h → t.mtimecmp[k]? = s.mtimecmp[k]?) ∧
      State.Accesses { s with mtimecmp := t.mtimecmp } t 0 0
        [s.event 0 .write .device a 8 (s.getReg rs2) false false] false

/-- R48, R56-R58, R60: where a load or store stops, and by which name: misaligned; any access of 4 bytes, or an 8-byte
access of no decoded register, in the timer-compare region; a store to the program text; a hart with a locked, active
PMP entry, at a timer register as in RAM; outside both regions. The place of the PMP refusal is the model's choice
(log entry 14). A locked entry that is OFF restricts nothing (log entry 28). No region wraps at 2^64 (log entry 30).
-/
def Obligations.LoadsAndStoresStop : Prop :=
  ∀ (s : State) (rs1 reg : Reg) (imm : BitVec 12) (a n : Nat) (load store : Instr),
    a = (s.getReg rs1 + imm.signExtend 64).toNat →
    (n = 4 ∧ load = .lw reg rs1 imm ∧ store = .sw rs1 reg imm ∨
      n = 8 ∧ load = .ld reg rs1 imm ∧ store = .sd rs1 reg imm) →
    (a % n ≠ 0 → exec load s = .refused .misalignedAccess ∧ exec store s = .refused .misalignedAccess) ∧
    (a % n = 0 → s.touchesTimer a n = true →
      ((n = 4 ∨ s.timerRead a = none) → exec load s = .refused .unmodelledDeviceAccess) ∧
      ((n = 4 ∨ s.timerSlot a = none) → exec store s = .refused .unmodelledDeviceAccess)) ∧
    (a % n = 0 → s.touchesTimer a n = true → n = 8 → s.pmpLocked = true →
      (s.timerRead a ≠ none → exec load s = .refused .pmpLocked) ∧
      (s.timerSlot a ≠ none → exec store s = .refused .pmpLocked)) ∧
    (a % n = 0 → s.touchesTimer a n = false → s.touchesText a n = true → exec store s = .refused .writeToText) ∧
    (a % n = 0 → s.touchesTimer a n = false → s.pmpLocked = true →
      exec load s = .refused .pmpLocked ∧ (s.touchesText a n = false → exec store s = .refused .pmpLocked)) ∧
    (a % n = 0 → s.touchesTimer a n = false → s.pmpLocked = false → s.inRam a n = false →
      exec load s = .fault .stuckData ∧ (s.touchesText a n = false → exec store s = .fault .stuckData))

/-! ### The atomic unit (42_atomic_lock) -/

/-- R141: AMOSWAP.W reads and writes the word in one step, with both annotations on both events, and `rd` takes the
old word sign-extended. The value read is the oracle's or the simulator's (log entry 9). A locked entry that is OFF
restricts nothing (log entry 28). -/
def Obligations.AmoswapWSwapsTheWord : Prop :=
  ∀ (s : State) (rd rs1 rs2 : Reg) (aq rl : Bool) (a : Nat) (old new : Word), s.Active → s.ram.wf →
    a = (s.getReg rs1).toNat → s.Writable a 4 → old = s.loadValue a 4 →
    new = ((s.getReg rs2).setWidth 32).setWidth 64 →
    ∃ t, exec (.amoswapW rd rs1 rs2 aq rl) s = .next t ∧ s.Stores t a 4 new ∧
      s.Accesses t rd ((old.setWidth 32).signExtend 64)
        [s.event 0 .amoRead .ram a 4 old aq rl, s.event 1 .amoWrite .ram a 4 new aq rl] true

/-- R142, R143: AMOSWAP.D; with `rd` = x0 the read and the write still happen. The value read is the oracle's or the
simulator's (log entry 9). A locked entry that is OFF restricts nothing (log entry 28). -/
def Obligations.AmoswapDSwapsTheDoubleword : Prop :=
  ∀ (s : State) (rd rs1 rs2 : Reg) (aq rl : Bool) (a : Nat) (old : Word), s.Active → s.ram.wf →
    a = (s.getReg rs1).toNat → s.Writable a 8 → old = s.loadValue a 8 →
    ∃ t, exec (.amoswapD rd rs1 rs2 aq rl) s = .next t ∧ s.Stores t a 8 (s.getReg rs2) ∧
      s.Accesses t rd old
        [s.event 0 .amoRead .ram a 8 old aq rl, s.event 1 .amoWrite .ram a 8 (s.getReg rs2) aq rl] true

/-- R144, R146: AMOCAS.W compares the low words; equal, it writes; otherwise it makes a read alone, which carries both
annotations. The value read is the oracle's or the simulator's (log entry 9). A locked entry that is OFF restricts
nothing (log entry 28). -/
def Obligations.AmocasWComparesAndSwaps : Prop :=
  ∀ (s : State) (rd rs1 rs2 : Reg) (aq rl : Bool) (a : Nat) (old new : Word), s.Active → s.ram.wf →
    a = (s.getReg rs1).toNat → s.Writable a 4 → old = s.loadValue a 4 →
    new = ((s.getReg rs2).setWidth 32).setWidth 64 →
    ∃ t, exec (.amocasW rd rs1 rs2 aq rl) s = .next t ∧
      if old = ((s.getReg rd).setWidth 32).setWidth 64 then
        s.Stores t a 4 new ∧ s.Accesses t rd ((old.setWidth 32).signExtend 64)
          [s.event 0 .amoRead .ram a 4 old aq rl, s.event 1 .amoWrite .ram a 4 new aq rl] true
      else
        s.RamKept t ∧ s.Accesses t rd ((old.setWidth 32).signExtend 64) [s.event 0 .read .ram a 4 old aq rl] true

/-- R145, R146, R148: AMOCAS.D fails exactly when the value read differs from `x[rd]`. The value read is the oracle's
or the simulator's (log entry 9). A locked entry that is OFF restricts nothing (log entry 28). -/
def Obligations.AmocasDComparesAndSwaps : Prop :=
  ∀ (s : State) (rd rs1 rs2 : Reg) (aq rl : Bool) (a : Nat) (old : Word), s.Active → s.ram.wf →
    a = (s.getReg rs1).toNat → s.Writable a 8 → old = s.loadValue a 8 →
    ∃ t, exec (.amocasD rd rs1 rs2 aq rl) s = .next t ∧
      if old = s.getReg rd then
        s.Stores t a 8 (s.getReg rs2) ∧ s.Accesses t rd old
          [s.event 0 .amoRead .ram a 8 old aq rl, s.event 1 .amoWrite .ram a 8 (s.getReg rs2) aq rl] true
      else s.RamKept t ∧ s.Accesses t rd old [s.event 0 .read .ram a 8 old aq rl] true

/-- R49, R138: a misaligned AMO raises code 6 or code 7 (which, the spec leaves open, and so does this), before every
other check and whatever the comparison; `rd`, memory and the history stay as they were. Which code it is, is a free
value (log entry 10). -/
def Obligations.MisalignedAmoTraps : Prop :=
  ∀ (s : State) (rd rs1 rs2 : Reg) (aq rl : Bool) (i : Instr), s.Active →
    ((i = .amoswapW rd rs1 rs2 aq rl ∨ i = .amocasW rd rs1 rs2 aq rl) ∧ (s.getReg rs1).toNat % 4 ≠ 0 ∨
      (i = .amoswapD rd rs1 rs2 aq rl ∨ i = .amocasD rd rs1 rs2 aq rl) ∧ (s.getReg rs1).toNat % 8 ≠ 0) →
    ∃ t, exec i s = .next t ∧ (s.Trapped t false 6 ∨ s.Trapped t false 7)

/-- R138, R185: the checks of an aligned AMO: its refusals in the order of R138, and stuck after them all, as R185 has
it. That R185 decides where R138 lists stuck before WriteToText and PmpLocked is the model's reading (log entry 29). A
locked entry that is OFF restricts nothing (log entry 28). No region wraps at 2^64 (log entry 30). -/
def Obligations.AlignedAmoStops : Prop :=
  ∀ (s : State) (rd rs1 rs2 : Reg) (aq rl : Bool) (i : Instr) (a n : Nat), a = (s.getReg rs1).toNat → a % n = 0 →
    (n = 4 ∧ (i = .amoswapW rd rs1 rs2 aq rl ∨ i = .amocasW rd rs1 rs2 aq rl) ∨
      n = 8 ∧ (i = .amoswapD rd rs1 rs2 aq rl ∨ i = .amocasD rd rs1 rs2 aq rl)) →
    (s.touchesTimer a n = true → exec i s = .refused .unmodelledDeviceAccess) ∧
    (s.touchesTimer a n = false → s.touchesText a n = true → exec i s = .refused .writeToText) ∧
    (s.touchesTimer a n = false → s.touchesText a n = false → s.pmpLocked = true → exec i s = .refused .pmpLocked) ∧
    (s.touchesTimer a n = false → s.touchesText a n = false → s.pmpLocked = false → s.inRam a n = false →
      exec i s = .fault .stuckData)

/-- R149: FENCE makes one fence event with its two sets and does nothing else; rs1 and rd are ignored (R87). -/
def Obligations.FenceMakesOneEvent : Prop :=
  ∀ (s : State) (pred succ : FenceSet) (rs1 rd : Reg), s.Active →
    ∃ t, exec (.fence pred succ rs1 rd) s = .next t ∧ s.RamKept t ∧
      s.Accesses t 0 0 [s.event 0 (.fence pred succ) .ram 0 0 0 false false] false

/-! ### CSRs (40_register_interface, 10_state) -/

/-- R100, R106, R109: CSRRW and CSRRWI write the source to the CSR, and read it only if `rd` is not x0, in which case
`rd` takes the old value. Beside `rd` and pc only the CSR's own storage changes (`OnlyCsr`). -/
def Obligations.CsrSwapWritesTheSource : Prop :=
  ∀ (s : State) (rd rs1 : Reg) (uimm : BitVec 5) (number : BitVec 12) (i : Instr) (src old : Word) (r : Csr)
    (k : Hart), s.Active → s.hart.priv = .machine → csrOfNumber number = some r → number.extractLsb' 10 2 ≠ 3 →
    (i = .csrrw rd rs1 number ∧ src = s.getReg rs1 ∨ i = .csrrwi rd uimm number ∧ src = uimm.setWidth 64) →
    s.hart.csrWrite s.cfg r src = .ok k → (rd ≠ 0 → s.hart.csrRead s.cfg s.cur r = .ok old) →
    ∃ t, exec i s = .next t ∧ (s.setHart k).WritesOnly t rd old (s.pc + 4) ∧ s.hart.OnlyCsr k r

/-- R101, R105, R107, R110: CSRRS and CSRRSI read the CSR into `rd`; unless rs1 is x0, or uimm 0, they write what the
read-modify-write sees with the source's bits set, and otherwise nothing, so that they run on a read-only CSR. -/
def Obligations.CsrSetSetsBits : Prop :=
  ∀ (s : State) (rd rs1 : Reg) (uimm : BitVec 5) (number : BitVec 12) (i : Instr) (mask old : Word) (writes : Bool)
    (r : Csr), s.Active → s.hart.priv = .machine → csrOfNumber number = some r →
    (i = .csrrs rd rs1 number ∧ mask = s.getReg rs1 ∧ writes = (rs1 != 0) ∨
      i = .csrrsi rd uimm number ∧ mask = uimm.setWidth 64 ∧ writes = (uimm != 0)) →
    s.hart.csrRead s.cfg s.cur r = .ok old →
    (writes = false → ∃ t, exec i s = .next t ∧ s.WritesOnly t rd old (s.pc + 4)) ∧
      ∀ k, writes = true → number.extractLsb' 10 2 ≠ 3 →
        s.hart.csrWrite s.cfg r (s.hart.csrRmw s.cfg r old ||| mask) = .ok k →
        ∃ t, exec i s = .next t ∧ (s.setHart k).WritesOnly t rd old (s.pc + 4) ∧ s.hart.OnlyCsr k r

/-- R101, R105, R108, R111: CSRRC and CSRRCI, likewise, with the source's bits cleared. -/
def Obligations.CsrClearClearsBits : Prop :=
  ∀ (s : State) (rd rs1 : Reg) (uimm : BitVec 5) (number : BitVec 12) (i : Instr) (mask old : Word) (writes : Bool)
    (r : Csr), s.Active → s.hart.priv = .machine → csrOfNumber number = some r →
    (i = .csrrc rd rs1 number ∧ mask = s.getReg rs1 ∧ writes = (rs1 != 0) ∨
      i = .csrrci rd uimm number ∧ mask = uimm.setWidth 64 ∧ writes = (uimm != 0)) →
    s.hart.csrRead s.cfg s.cur r = .ok old →
    (writes = false → ∃ t, exec i s = .next t ∧ s.WritesOnly t rd old (s.pc + 4)) ∧
      ∀ k, writes = true → number.extractLsb' 10 2 ≠ 3 →
        s.hart.csrWrite s.cfg r (s.hart.csrRmw s.cfg r old &&& ~~~mask) = .ok k →
        ∃ t, exec i s = .next t ∧ (s.setHart k).WritesOnly t rd old (s.pc + 4) ∧ s.hart.OnlyCsr k r

/-- R97, R99: each of the six CSR instructions refuses a number outside the table; one that writes mhartid raises
IllegalInstruction, CSRRS, CSRRC, CSRRSI and CSRRCI only with rs1 other than x0, or uimm other than 0. -/
def Obligations.CsrNumberChecks : Prop :=
  ∀ (s : State) (rd rs1 : Reg) (uimm : BitVec 5) (number : BitVec 12),
    (csrOfNumber number = none →
      ∀ i ∈ [Instr.csrrw rd rs1 number, .csrrs rd rs1 number, .csrrc rd rs1 number, .csrrwi rd uimm number,
        .csrrsi rd uimm number, .csrrci rd uimm number], exec i s = .refused .unmodelledCsr) ∧
    (s.Active → s.hart.priv = .machine →
      (∀ i ∈ [Instr.csrrw rd rs1 0xF14, .csrrwi rd uimm 0xF14],
        ∃ t, exec i s = .next t ∧ s.Trapped t false 2 ∧ t.draws = s.draws) ∧
      (rs1 ≠ 0 → ∀ i ∈ [Instr.csrrs rd rs1 0xF14, .csrrc rd rs1 0xF14],
        ∃ t, exec i s = .next t ∧ s.Trapped t false 2 ∧ t.draws = s.draws) ∧
      (uimm ≠ 0 → ∀ i ∈ [Instr.csrrsi rd uimm 0xF14, .csrrci rd uimm 0xF14],
        ∃ t, exec i s = .next t ∧ s.Trapped t false 2 ∧ t.draws = s.draws))

/-- R21: which CSR each number of the table names, and that no other number names one. -/
def Obligations.CsrNumbersAreTheTable : Prop :=
  (∀ number r, csrOfNumber number = some r ↔ (number, r) ∈
    [(0x300#12, Csr.mstatus), (0x100, .sstatus), (0x304, .mie), (0x104, .sie), (0x344, .mip), (0x144, .sip),
      (0x180, .satp), (0x302, .medeleg), (0x303, .mideleg), (0x3A0, .pmpcfg0), (0x3A2, .pmpcfg2), (0x340, .mscratch),
      (0x305, .mtvec), (0x341, .mepc), (0x342, .mcause), (0xF14, .mhartid)] ++
      (List.finRange 16).map fun i => (0x3B0#12 + BitVec.ofNat 12 i.val, .pmpaddr i))

/-- R26, R102, R105: what a read of each CSR gives, every one of them accepted (pmpaddr with `PMP_G` = 0), bit by bit
where it is a view; and what a set or clear computes from, which is the value read but for bit 9 of mip. For sip that is
the model's reading (log entry 19). -/
def Obligations.CsrReadsGiveTheTableValues : Prop :=
  ∀ (c : Config) (id : Nat) (h : Hart),
    (∃ v, h.csrRead c id .mstatus = .ok v ∧ h.csrRead c id .sstatus = .ok (v &&& c.sstatusViewMask) ∧
      ∀ i, i < 64 → v.getLsbD i =
        if i ∈ [1, 3, 5, 7, 8, 11, 12] then h.mstatus.getLsbD i
        else if i ∈ [0, 4] then c.ubits && h.mstatus.getLsbD i else c.mstatusFixed.getLsbD i) ∧
    (∃ v w, h.csrRead c id .mip = .ok v ∧ h.csrRead c id .sip = .ok w ∧ ∀ i, i < 64 →
      (v.getLsbD i =
        if i = 3 then h.msipIn else if i = 7 then h.mtipSeen else if i = 11 then h.meipIn
        else if i = 9 then h.mipSw.getLsbD 9 || h.seipIn else if i ∈ [1, 5] then h.mipSw.getLsbD i
        else if i ∈ [0, 4, 8] then c.ubits && h.mipSw.getLsbD i else false) ∧
      (w.getLsbD i = (v.getLsbD i && h.mideleg.getLsbD i && c.midelegWmask.getLsbD i &&
        (i ∈ [1, 5, 9] || (c.ubits && i ∈ [0, 4, 8])))) ∧
      ∀ old, (h.csrRmw c .mip old).getLsbD i = if i = 9 then h.mipSw.getLsbD 9 else v.getLsbD i) ∧
    (∀ r old, r ≠ .mip → h.csrRmw c r old = old) ∧
    (∃ w, h.csrRead c id .mie = .ok (h.mie &&& c.mieWmask) ∧ h.csrRead c id .sie = .ok w ∧ ∀ i, i < 64 →
      w.getLsbD i = (h.mie.getLsbD i && c.mieWmask.getLsbD i && h.mideleg.getLsbD i && c.midelegWmask.getLsbD i &&
        (i ∈ [1, 5, 9] || (c.ubits && i ∈ [0, 4, 8])))) ∧
    (∃ v, h.csrRead c id .satp = .ok v ∧ ∀ i, i < 64 →
      v.getLsbD i = (h.satp.getLsbD i && !(decide (44 + c.asidLen ≤ i) && decide (i < 60)))) ∧
    (∀ first r, (first = 0 ∧ r = Csr.pmpcfg0 ∨ first = 8 ∧ r = Csr.pmpcfg2) →
      ∃ v, h.csrRead c id r = .ok v ∧ ∀ i, i < 64 → v.getLsbD i =
        (decide (first + i / 8 < c.npmp) && (h.pmpcfg.getD (first + i / 8) 0).getLsbD (i % 8))) ∧
    (∀ i : Fin 16, c.pmpG = 0 → h.csrRead c id (.pmpaddr i) =
      .ok (if i.val < c.npmp then h.pmpaddr[i] &&& 0x003FFFFFFFFFFFFF else 0)) ∧
    h.csrRead c id .medeleg = .ok (h.medeleg &&& c.medelegWmask) ∧
    h.csrRead c id .mideleg = .ok (h.mideleg &&& c.midelegWmask) ∧ h.csrRead c id .mscratch = .ok h.mscratch ∧
    h.csrRead c id .mtvec = .ok h.mtvec ∧ h.csrRead c id .mepc = .ok h.mepc ∧
    h.csrRead c id .mcause = .ok h.mcause ∧ h.csrRead c id .mhartid = .ok (BitVec.ofNat 64 id)

/-- R26, R30, R103-R105: which writes of each CSR are accepted, and what an accepted write stores. A byte of pmpcfg0 or
pmpcfg2 for an entry that is locked or not implemented is ignored, whatever its R and W (log entry 15). -/
def Obligations.CsrWritesStoreTheTableValues : Prop :=
  ∀ (c : Config) (h : Hart) (v : Word),
    (∃ k, h.csrWrite c .mie v = .ok k ∧ k.mie = v &&& c.mieWmask) ∧
    (∃ k, h.csrWrite c .sie v = .ok k ∧ ∀ i, k.mie.getLsbD i =
      if h.mideleg.getLsbD i && c.midelegWmask.getLsbD i && c.mieWmask.getLsbD i &&
        (i ∈ [1, 5, 9] || (c.ubits && i ∈ [0, 4, 8])) then v.getLsbD i else h.mie.getLsbD i) ∧
    (∃ k, h.csrWrite c .mip v = .ok k ∧ ∀ i, k.mipSw.getLsbD i =
      (v.getLsbD i && (i ∈ [1, 5, 9] || (c.ubits && i ∈ [0, 4, 8])))) ∧
    (∃ k, h.csrWrite c .sip v = .ok k ∧ ∀ i, k.mipSw.getLsbD i =
      if h.mideleg.getLsbD i && c.midelegWmask.getLsbD i && (i == 1 || (c.ubits && i == 0)) then v.getLsbD i
      else h.mipSw.getLsbD i) ∧
    (∃ k, h.csrWrite c .satp v = .ok k ∧ k.satp = if v.extractLsb' 60 4 ∈ c.satpModes then v else h.satp) ∧
    (∃ k, h.csrWrite c .medeleg v = .ok k ∧ k.medeleg = v &&& c.medelegWmask) ∧
    (∃ k, h.csrWrite c .mideleg v = .ok k ∧ k.mideleg = v &&& c.midelegWmask) ∧
    (∃ k, h.csrWrite c .mscratch v = .ok k ∧ k.mscratch = v) ∧
    (v.extractLsb' 0 2 = 0 → ∃ k, h.csrWrite c .mtvec v = .ok k ∧ k.mtvec = v) ∧
    (∀ k, h.csrWrite c .mtvec v = .ok k → k.mtvec = v) ∧
    (∃ k, h.csrWrite c .mepc v = .ok k ∧ k.mepc = v &&& if c.hasC then ~~~1 else ~~~3) ∧
    (v ∈ ([0, 1, 3, 4, 5, 7, 8, 9, 11].map (fun n => 1#64 <<< 63 ||| BitVec.ofNat 64 n)) ++
        [0, 1, 2, 3, 4, 5, 6, 7, 8, 9, 11, 12, 13, 15].map (fun n => BitVec.ofNat 64 n) →
      ∃ k, h.csrWrite c .mcause v = .ok k ∧ k.mcause = v) ∧
    (v &&& ~~~(0x19AA ||| 0x11) = c.mstatusFixed &&& ~~~(0x19AA ||| 0x11) → v.extractLsb' 11 2 ≠ 2 →
      ∃ k, h.csrWrite c .mstatus v = .ok k ∧ ∀ i, k.mstatus.getLsbD i =
        (v.getLsbD i && (i ∈ [1, 3, 5, 7, 8, 11, 12] || (c.ubits && i ∈ [0, 4])))) ∧
    (c.sstatusViewMask &&& 0x1888 = 0 → mstatusMpp h.mstatus ≠ 2 →
      v &&& c.sstatusViewMask &&& ~~~(0x19AA ||| 0x11) = c.mstatusFixed &&& c.sstatusViewMask &&& ~~~(0x19AA ||| 0x11) →
      ∃ k, h.csrWrite c .sstatus v = .ok k ∧ ∀ i, k.mstatus.getLsbD i =
        ((if c.sstatusViewMask.getLsbD i then v.getLsbD i else h.mstatus.getLsbD i) &&
          (i ∈ [1, 3, 5, 7, 8, 11, 12] || (c.ubits && i ∈ [0, 4])))) ∧
    (∀ first r, (first = 0 ∧ r = Csr.pmpcfg0 ∨ first = 8 ∧ r = Csr.pmpcfg2) →
      (∀ j, j < 8 → first + j < c.npmp → pmpL (h.pmpByte c (first + j)) = false →
        ¬(v.getLsbD (8 * j) = false ∧ v.getLsbD (8 * j + 1) = true)) →
      ∃ k, h.csrWrite c r v = .ok k ∧ ∀ i : Fin 16, k.pmpcfg[i] =
        if first ≤ i.val ∧ i.val < first + 8 ∧ i.val < c.npmp ∧ pmpL (h.pmpByte c i.val) = false then
          v.extractLsb' (8 * (i.val - first)) 8 &&& 0x9F
        else h.pmpcfg[i]) ∧
    (∀ i : Fin 16, ∃ k, h.csrWrite c (.pmpaddr i) v = .ok k ∧ k.pmpaddr[i] =
      if i.val < c.npmp ∧ pmpL (h.pmpByte c i.val) = false ∧
          ¬(pmpL (h.pmpByte c (i.val + 1)) = true ∧ pmpA (h.pmpByte c (i.val + 1)) = 1) then
        v &&& 0x003FFFFFFFFFFFFF
      else h.pmpaddr[i])

/-- R23, R103: a write of sstatus changes only the bits of its view, never MIE, MPIE or MPP. -/
def Obligations.SstatusWriteStaysInItsView : Prop :=
  ∀ (c : Config) (h k : Hart) (v : Word) (i : Nat), c.sstatusViewMask &&& 0x1888 = 0 →
    h.mstatus &&& ~~~mstatusMod c = 0 →
    h.csrWrite c .sstatus v = .ok k →
    (c.sstatusViewMask.getLsbD i = false → k.mstatus.getLsbD i = h.mstatus.getLsbD i) ∧
      mstatusMie k.mstatus = mstatusMie h.mstatus ∧ mstatusMpie k.mstatus = mstatusMpie h.mstatus ∧
      mstatusMpp k.mstatus = mstatusMpp h.mstatus

/-- R105: no CSR write changes the pending bits MSIP, MTIP and MEIP. -/
def Obligations.NoCsrWriteChangesMtip : Prop :=
  ∀ (c : Config) (h k : Hart) (r : Csr) (v : Word), h.csrWrite c r v = .ok k →
    ∀ i ∈ [3, 7, 11], (k.mipRead c).getLsbD i = (h.mipRead c).getLsbD i

/-- R30: a write leaves the configuration and the address of a locked entry as they were, and the address of an entry
below a locked TOR entry, and no write gives an unimplemented entry a value. -/
def Obligations.LockedPmpEntriesIgnoreWrites : Prop :=
  ∀ (c : Config) (h k : Hart) (r : Csr) (v : Word) (i : Fin 16), h.csrWrite c r v = .ok k →
    (pmpL (h.pmpByte c i) = true → k.pmpByte c i = h.pmpByte c i ∧ k.pmpaddr[i] = h.pmpaddr[i]) ∧
    (∀ j : Fin 16, j.val = i.val + 1 → pmpL (h.pmpByte c j) = true → pmpA (h.pmpByte c j) = 1 →
      k.pmpaddr[i] = h.pmpaddr[i]) ∧
    (c.npmp ≤ i.val → k.pmpByte c i = 0)

/-- R27, R30, R32, R34, R97, R103, R104: the writes and reads that are refused, by name; and each of the six CSR
instructions ends in the refusal that its read, if it makes one, or else its write answers. That the reserved R = 0, W = 1
is refused only in an implemented entry that is not locked is the model's reading (log entry 15). -/
def Obligations.IllegalCsrWritesAreRefused : Prop :=
  (∀ (c : Config) (h : Hart) (v : Word),
    (v &&& ~~~(0x19AA ||| 0x11) ≠ c.mstatusFixed &&& ~~~(0x19AA ||| 0x11) →
      h.csrWrite c .mstatus v = .error .unmodelledCsrBits) ∧
    (v &&& ~~~(0x19AA ||| 0x11) = c.mstatusFixed &&& ~~~(0x19AA ||| 0x11) → v.extractLsb' 11 2 = 2 →
      h.csrWrite c .mstatus v = .error .illegalWarlValue) ∧
    (v &&& c.sstatusViewMask &&& ~~~(0x19AA ||| 0x11) ≠ c.mstatusFixed &&& c.sstatusViewMask &&& ~~~(0x19AA ||| 0x11) →
      h.csrWrite c .sstatus v = .error .unmodelledCsrBits) ∧
    (∀ first r j, (first = 0 ∧ r = Csr.pmpcfg0 ∨ first = 8 ∧ r = Csr.pmpcfg2) → j < 8 → first + j < c.npmp →
      pmpL (h.pmpByte c (first + j)) = false → v.getLsbD (8 * j) = false → v.getLsbD (8 * j + 1) = true →
      h.csrWrite c r v = .error .illegalWarlValue) ∧
    (2 ≤ (v.extractLsb' 0 2).toNat → h.csrWrite c .mtvec v = .error .illegalWarlValue) ∧
    (v ∉ [0, 1, 3, 4, 5, 7, 8, 9, 11].map (fun n => 1#64 <<< 63 ||| BitVec.ofNat 64 n) →
      v ∉ [0, 1, 2, 3, 4, 5, 6, 7, 8, 9, 11, 12, 13, 15].map (fun n => BitVec.ofNat 64 n) →
      h.csrWrite c .mcause v = .error .illegalWlrlValue) ∧
    (0 < c.pmpG → ∀ i id, h.csrRead c id (.pmpaddr i) = .error .pmpGranularity)) ∧
  ∀ (s : State) (rd rs1 : Reg) (uimm : BitVec 5) (number : BitVec 12) (r : Csr) (e : Refusal),
    s.hart.priv = .machine → csrOfNumber number = some r → number.extractLsb' 10 2 ≠ 3 →
    (s.hart.csrRead s.cfg s.cur r = .error e →
      (∀ i ∈ [Instr.csrrs rd rs1 number, .csrrc rd rs1 number, .csrrsi rd uimm number, .csrrci rd uimm number],
        exec i s = .refused e) ∧
      (rd ≠ 0 → ∀ i ∈ [Instr.csrrw rd rs1 number, .csrrwi rd uimm number], exec i s = .refused e)) ∧
    (∀ i src old, (i = .csrrw rd rs1 number ∧ src = s.getReg rs1 ∨ i = .csrrwi rd uimm number ∧ src = uimm.setWidth 64) →
      (rd ≠ 0 → s.hart.csrRead s.cfg s.cur r = .ok old) → s.hart.csrWrite s.cfg r src = .error e →
      exec i s = .refused e) ∧
    (∀ i old new, s.hart.csrRead s.cfg s.cur r = .ok old →
      (rs1 ≠ 0 ∧ i = .csrrs rd rs1 number ∧ new = s.hart.csrRmw s.cfg r old ||| s.getReg rs1 ∨
        rs1 ≠ 0 ∧ i = .csrrc rd rs1 number ∧ new = s.hart.csrRmw s.cfg r old &&& ~~~s.getReg rs1 ∨
        uimm ≠ 0 ∧ i = .csrrsi rd uimm number ∧ new = s.hart.csrRmw s.cfg r old ||| uimm.setWidth 64 ∨
        uimm ≠ 0 ∧ i = .csrrci rd uimm number ∧ new = s.hart.csrRmw s.cfg r old &&& ~~~(uimm.setWidth 64)) →
      s.hart.csrWrite s.cfg r new = .error e → exec i s = .refused e)

/-- R114: the interrupt-masked critical section. The first instruction saves mstatus and clears MIE; the last two, run
in a state whose hart has the same mstatus and the saved value in its register, make mstatus what it was before. -/
def Obligations.MaskedSectionRestoresMstatus : Prop :=
  ∀ (s : State) (save : Reg), s.Active → s.hart.Inv s.cfg → save ≠ 0 →
    ∃ t, exec (.csrrci save 8 0x300) s = .next t ∧ mstatusMie t.hart.mstatus = false ∧
      (∀ i, i ≠ 3 → t.hart.mstatus.getLsbD i = s.hart.mstatus.getLsbD i) ∧
      ∀ u : State, u.Active → u.cfg = s.cfg → u.hart.priv = .machine → u.hart.mstatus = t.hart.mstatus →
        u.getReg save = t.getReg save →
        ∃ w x, exec (.andi save save 8) u = .next w ∧ exec (.csrrs 0 save 0x300) w = .next x ∧
          x.hart.mstatus = s.hart.mstatus

/-! ### Traps, interrupts, trap return (60_exceptions, 44_system) -/

/-- R186, R187: trap entry saves pc, the cause and the mode, clears MIE, and goes to mtvec's base, or for a vectored
interrupt to base + 4c; nothing else changes. -/
def Obligations.TrapEntrySavesAndVectors : Prop :=
  ∀ (s : State), s.Active →
    (∀ c : ExceptionCause, s.Trapped (s.takeException c) false c.code ∧ (s.takeException c).draws = s.draws) ∧
      ∀ c : InterruptCause, s.Trapped (s.takeInterrupt c) true c.code ∧ (s.takeInterrupt c).draws = s.draws

/-- R182, R183, R185: a hart's step that takes an interrupt takes the first, in the order of priority, that is pending,
enabled and not delegated while MIE is 1; and it does so whenever there is one and the move says so. The choice is the
move's (log entry 7). -/
def Obligations.TheHighestPriorityInterruptIsTaken : Prop :=
  ∀ (s : State) (before after : List InterruptCause) (c : InterruptCause), s.Active →
    before ++ c :: after = [.machineExternal, .machineSoftware, .machineTimer, .supervisorExternal,
      .supervisorSoftware, .supervisorTimer, .userExternal, .userSoftware, .userTimer] →
    mstatusMie s.hart.mstatus = true →
    (s.hart.mipRead s.cfg &&& s.hart.mieRead s.cfg &&& ~~~s.hart.midelegRead s.cfg).getLsbD c.code = true →
    (∀ b ∈ before,
      (s.hart.mipRead s.cfg &&& s.hart.mieRead s.cfg &&& ~~~s.hart.midelegRead s.cfg).getLsbD b.code = false) →
    ∃ t, s.hartStep true = .next t ∧ s.Trapped t true c.code ∧ s.hartStep false = s.runInstruction

/-- R182, R183: with MIE 0, or with every pending and enabled interrupt delegated, the hart's step is the instruction at
pc, whatever the move says. -/
def Obligations.NoInterruptWithoutMie : Prop :=
  ∀ (s : State) (take : Bool),
    (mstatusMie s.hart.mstatus = false ∨
      ∀ c : InterruptCause, (s.hart.mipRead s.cfg &&& s.hart.mieRead s.cfg).getLsbD c.code = true →
        (s.hart.midelegRead s.cfg).getLsbD c.code = true) →
    s.hartStep take = s.runInstruction

/-- R174: with MPP = M and mepc a multiple of 4, MRET in M-mode goes to mepc, MIE takes MPIE, MPIE becomes 1 and MPP 0;
the mode stays M, and nothing else changes. With MPP other than M, or another mepc, it is refused. -/
def Obligations.MretReturnsToMepcOrRefuses : Prop :=
  ∀ s : State, s.Active → s.hart.priv = .machine →
    (mstatusMpp s.hart.mstatus = 3 → s.hart.mepc.toNat % 4 = 0 →
      ∃ t, exec .mret s = .next t ∧ t.pc = s.hart.mepc ∧ mstatusMie t.hart.mstatus = mstatusMpie s.hart.mstatus ∧
        mstatusMpie t.hart.mstatus = true ∧ mstatusMpp t.hart.mstatus = 0 ∧
        (∀ i, i ≠ 3 → i ≠ 7 → i ≠ 11 → i ≠ 12 → t.hart.mstatus.getLsbD i = s.hart.mstatus.getLsbD i) ∧
        t.hart = { s.hart with mstatus := t.hart.mstatus, pc := t.hart.pc } ∧
        (∀ k, k ≠ s.cur → t.harts[k]? = s.harts[k]?) ∧ s.RamKept t ∧ t = { s with harts := t.harts }) ∧
    (mstatusMpp s.hart.mstatus ≠ 3 → exec .mret s = .refused .leavesMachineMode) ∧
    (mstatusMpp s.hart.mstatus = 3 → s.hart.mepc.toNat % 4 ≠ 0 → exec .mret s = .refused .unmodelledLength)

/-- R174, R186, R189: MRET right after a trap entry in machine mode comes back to the interrupted pc with MIE as it was
before the trap, if the saved state is untouched. -/
def Obligations.MretUndoesTrapEntry : Prop :=
  ∀ (s u : State) (interrupt : Bool) (code : Nat), s.Active → s.hart.Inv s.cfg → u.Active →
    u.hart.priv = .machine → u.hart.mstatus = (s.trapEntry interrupt code).hart.mstatus →
    u.hart.mepc = (s.trapEntry interrupt code).hart.mepc →
    ∃ t, exec .mret u = .next t ∧ t.pc = s.pc ∧ mstatusMie t.hart.mstatus = mstatusMie s.hart.mstatus

/-! ### The other agents (41_timer_arming, 10_state) -/

/-- R120, R125, R126, R37, R38: the timer's move adds 1 to mtime modulo 2^64; a propagation copies `mtime >=
mtimecmp[h]` into `MTIP_seen[h]`; the environment drives one input, only with `EXT_IRQ = any`. Each changes nothing else
but the turn, and the timer's event in the history. That a move which is not enabled only passes the turn is the model's
choice (log entry 8). -/
def Obligations.OtherAgentsMoves : Prop :=
  ∀ s : State,
    (s.nextMove = .timer → ∃ t, step s = .next t ∧ t.mtime = s.mtime + 1 ∧
      t = { s with
        mtime := t.mtime
        history := s.history ++ [{ agent := .timer, po := 0, kind := .write, space := .device,
                                   addr := s.cfg.timerBase.toNat + 0xBFF8, size := 8, value := t.mtime, aq := false,
                                   rl := false }]
        agenda := t.agenda
        rota := t.rota }) ∧
    (∀ (h : Nat) (x : Hart) (d : Word), s.nextMove = .propagate h → s.harts[h]? = some x → s.mtimecmp[h]? = some d →
      ∃ t, step s = .next t ∧
        t = { s with harts := s.harts.set h { x with mtipSeen := decide (d.toNat ≤ s.mtime.toNat) },
                     agenda := t.agenda, rota := t.rota }) ∧
    (∀ (h : Nat) (x : Hart) (line : ExtLine) (level : Bool), s.nextMove = .environment h line level →
      s.harts[h]? = some x → s.cfg.extIrq = .any → ∃ t y, step s = .next t ∧
        t = { s with harts := s.harts.set h y, agenda := t.agenda, rota := t.rota } ∧
        (line = .msip → y = { x with msipIn := level }) ∧ (line = .meip → y = { x with meipIn := level }) ∧
        (line = .seip → y = { x with seipIn := level })) ∧
    (∀ (h : Nat) (line : ExtLine) (level : Bool), s.nextMove = .environment h line level → s.cfg.extIrq = .none →
      ∃ t, step s = .next t ∧ t = { s with agenda := t.agenda, rota := t.rota })

/-- R125, R128, R130, R131: for the deadline `C + I` that arming writes, while the counter has not wrapped below `C`: due
at once if the interval is 0 or the sum wraps; otherwise due exactly when the counter has reached it. -/
def Obligations.DeadlineIsDueWhenReached : Prop :=
  ∀ (s : State) (h : Nat) (count interval : Word), s.mtimecmp[h]? = some (count + interval) →
    count.toNat ≤ s.mtime.toNat →
    (interval = 0 → s.mtipDev h = true) ∧ (2 ^ 64 ≤ count.toNat + interval.toNat → s.mtipDev h = true) ∧
      (count.toNat + interval.toNat < 2 ^ 64 →
        s.mtipDev h = decide (count.toNat + interval.toNat ≤ s.mtime.toNat))

/-! ### Reset and the end of a run (70_reset) -/

/-- R199-R202: after the reset of any launch each hart is at RESET_VECTOR in M-mode with MIE 0, every PMP entry has A
and L 0, mcause is RESET_MCAUSE, no hart has exited, and the history and the fault set are empty and the refused mark clear (R42);
the inputs are 0 with EXT_IRQ none. -/
def Obligations.LaunchResetsEveryHart : Prop :=
  ∀ (l : Launch) (h : Hart), h ∈ (State.launch l).harts →
    h.pc = l.cfg.resetVector ∧ h.priv = .machine ∧ mstatusMie h.mstatus = false ∧ mstatusMpp h.mstatus ≠ 2 ∧
      (∀ i : Fin 16, pmpA h.pmpcfg[i] = 0 ∧ pmpL h.pmpcfg[i] = false) ∧ h.mcause = l.cfg.resetMcause ∧
      h.exited = false ∧ h.reg 0 = 0 ∧ (State.launch l).history = [] ∧ (State.launch l).faults = [] ∧
      (State.launch l).refused = false ∧
      (l.cfg.extIrq = .none → h.msipIn = false ∧ h.meipIn = false ∧ h.seipIn = false)

/-- R55, R200: after the reset of a launch the program text is in memory, the words from TEXT_BASE on, little-endian. -/
def Obligations.LaunchPlacesTheText : Prop :=
  ∀ (l : Launch) (k : Nat) (w : BitVec 32), l.text[k]? = some w →
    ∀ j, j < 4 → (State.launch l).ram.read (l.cfg.textBase.toNat + 4 * k + j) = w.extractLsb' (8 * j) 8

/-- R199-R203: the reset of every legal launch satisfies the invariant, and with the simulator's oracle it is a state
of the simulator; State.reset satisfies the invariant too. Every register State.reset gives a value the spec leaves
open is the model's choice (log entries 1 to 5); a launch gives them itself. A legal launch's regions end by 2^64 (log
entry 30). -/
def Obligations.ResetSatisfiesTheInvariant : Prop :=
  State.reset.Inv ∧ ∀ l : Launch, l.Legal →
    (State.launch l).Inv ∧ (l.oracle = [] → (State.launch l).SequentiallyConsistent)

/-- R10, R57, R206: an exited hart takes no step, nor does a stuck one: its move only passes the turn (log entries 8 and
12). A hart whose pc becomes EXIT_PC exits in the same step, after a trap entry too (log entry 20). The run has ended when
every hart has exited, no fault is recorded and the refused mark is clear. -/
def Obligations.ExitedAndStuckHartsTakeNoStep : Prop :=
  (∀ (s : State) (h : Nat) (take : Bool) (x : Hart), s.nextMove = .hart h take → s.harts[h]? = some x →
      (x.exited = true ∨ State.hartStep { s with cur := h } take = .fault .stuckData ∨
        State.hartStep { s with cur := h } take = .fault .stuckFetch) →
      ∃ t, step s = .next t ∧ t = { s with agenda := t.agenda, rota := t.rota }) ∧
    (∀ (s t : State) (h : Nat) (take : Bool) (x : Hart), s.nextMove = .hart h take → s.hartSteps h take = true →
      step s = .next t → t.harts[h]? = some x → (s.cfg.exitPc = some x.pc → x.exited = true) ∧
        (s.cfg.exitPc ≠ some x.pc → x.exited = false)) ∧
    ∀ s : State, s.ended = true ↔ (∀ h ∈ s.harts, h.exited = true) ∧ s.faults = [] ∧ s.refused = false

/-! ### What holds of every step -/

/-- Every step keeps the machine's invariant: memory in canonical form and inside RAM, one compare register for each
hart, and for each hart pc a multiple of 4, machine mode, and every CSR within its legal values (R16, R17, R22-R34,
R36, R39). -/
def Obligations.EveryStepKeepsTheInvariant : Prop :=
  ∀ s t : State, s.Inv → step s = .next t → t.Inv

/-- R79: every step of the simulator keeps the history consistent with the memory model's axioms (R63-R69), with gmo
taken as step order, and memory as the last writes leave it. The simulator is the empty oracle (log entry 9). -/
def Obligations.EveryStepKeepsSequentialConsistency : Prop :=
  ∀ s t : State, s.SequentiallyConsistent → step s = .next t → t.SequentiallyConsistent

/-- R15: an instruction that answers a state changes no general register, or is one of those listed and changes only its
`rd`. -/
def Obligations.OnlyListedInstructionsWriteRegisters : Prop :=
  ∀ (s t : State) (i : Instr) (r : Reg), s.Active → exec i s = .next t → t.getReg r ≠ s.getReg r →
    (∃ imm, i = .lui r imm) ∨ (∃ rs1 imm, i = .addi r rs1 imm ∨ i = .andi r rs1 imm) ∨
      (∃ rs1 shamt, i = .slli r rs1 shamt) ∨ (∃ rs1 rs2, i = .add r rs1 rs2) ∨ (∃ offset, i = .jal r offset) ∨
      (∃ rs1 imm, i = .lw r rs1 imm ∨ i = .ld r rs1 imm) ∨
      (∃ rs1 rs2 aq rl, i = .amoswapW r rs1 rs2 aq rl ∨ i = .amoswapD r rs1 rs2 aq rl ∨
        i = .amocasW r rs1 rs2 aq rl ∨ i = .amocasD r rs1 rs2 aq rl) ∨
      (∃ rs1 csr, i = .csrrw r rs1 csr ∨ i = .csrrs r rs1 csr ∨ i = .csrrc r rs1 csr) ∨
      ∃ uimm csr, i = .csrrwi r uimm csr ∨ i = .csrrsi r uimm csr ∨ i = .csrrci r uimm csr

/-- R58, R77, R120, R195: a step changes no hart but the one whose move it is (a hart's step, a propagation to it, a
change of its inputs); only the timer's move changes mtime; no step changes a byte of the program text, the launch memory
or the parameters; and the history only grows. R8, R42: a step that answers a state leaves the fault set and the refused
mark; a fault joins the fault set, which is never cleared, a refusal sets the mark, and neither changes anything else but
the turn (log entry 13). -/
def Obligations.EveryStepKeepsOutOfOthersState : Prop :=
  (∀ s t : State, step s = .next t →
    (∀ j, (∀ take, s.nextMove ≠ .hart j take) → s.nextMove ≠ .propagate j →
      (∀ line level, s.nextMove ≠ .environment j line level) → t.harts[j]? = s.harts[j]?) ∧
      (s.nextMove ≠ .timer → t.mtime = s.mtime) ∧
      (∀ x, s.touchesText x 1 = true → t.ram.read x = s.ram.read x) ∧ t.image = s.image ∧ t.cfg = s.cfg ∧
      t.faults = s.faults ∧ t.refused = s.refused ∧ ∃ made, t.history = s.history ++ made) ∧
    ∀ s u : State, u = s.settle (step s) →
      (∀ t, step s = .next t → u = t) ∧
      (∀ f, step s = .fault f → (∀ g, g ∈ u.faults ↔ g = f ∨ g ∈ s.faults) ∧
        u = { s with faults := u.faults, agenda := u.agenda, rota := u.rota }) ∧
      ∀ r, step s = .refused r → u.refused = true ∧
        u = { s with refused := u.refused, agenda := u.agenda, rota := u.rota }

/-! ### The memory model (20_memory) and the lock (42_atomic_lock) -/

/-- R76: what a hart accesses before its release precedes, in every consistent execution, finite or not, what another
hart accesses after its acquire that reads the release; the release being an annotated write, or a write after a FENCE
RW,W (then for the RAM accesses before the FENCE). -/
def Obligations.AcquireSeesWhatPrecededTheRelease : Prop :=
  ∀ (image : Memory) (E : Events) (gmo : Order) (a r b y x : Nat), Consistent image E gmo →
    poBefore E a r = true → poBefore E b y = true → isMemAt E a = true → isMemAt E y = true →
    eventIs E b (fun e => e.readsRam x && e.aq) = true → IsSource E gmo b x (some r) →
    eventsAre E r b (fun e f => e.agent != f.agent) = true →
    (eventIs E r (fun e => e.rl) = true ∨
      ∃ k, poBefore E a k = true ∧ poBefore E k r = true ∧
        eventIs E k (fun e => e.kind == .fence fenceRw fenceW) = true ∧
        eventIs E a (fun e => e.space == .ram) = true) →
    gmo a y = true

/-- R66: in a consistent execution, finite or not, the AMOs of two harts never return the same write of a byte they both
write: no write lies between the one that an AMO reads and its own. -/
def Obligations.TwoAmosNeverReadTheSameWrite : Prop :=
  ∀ (image : Memory) (E : Events) (gmo : Order) (i j x : Nat) (src : Option Nat), Consistent image E gmo →
    paired E i (i + 1) = true → paired E j (j + 1) = true →
    eventIs E i (fun e => e.covers x) = true → eventIs E j (fun e => e.covers x) = true →
    eventsAre E i j (fun e f => e.agent != f.agent) = true → IsSource E gmo i x src → ¬IsSource E gmo j x src

/-- R155, which the spec derives from R63-R66, R142, R145 and R146: under the discipline of R158 (`LockDiscipline`), in
every consistent execution, finite or not, of two successful acquires of a lock the earlier one's release lies between
their writes: the holding intervals are disjoint. -/
def Obligations.LockGivesMutualExclusion : Prop :=
  ∀ (image : Memory) (E : Events) (gmo : Order) (l : Nat) (acquireOf : Nat → Nat) (v w : Nat),
    Consistent image E gmo → LockDiscipline image E l acquireOf → acquires E l v → acquires E l w →
    gmo v w = true → ∃ u, releases E l u ∧ acquireOf u = v ∧ gmo v u = true ∧ gmo u w = true
end

