-- ==== Sys2Proof/Laws/Encoding.lean ====
section
/-! SUPPORT. What each encoding format puts at the opcode table's fixed bits, and what each field of an encoded word
reads (30_encoding R82-R88). -/

namespace Sys2Proof

theorem and_ones3 (x : BitVec 3) : x &&& 7#3 = x := by revert x; decide
theorem and_ones4 (x : BitVec 4) : x &&& 15#4 = x := by revert x; decide
theorem and_ones5 (x : BitVec 5) : x &&& 31#5 = x := by revert x; decide
theorem and_ones6 (x : BitVec 6) : x &&& 63#6 = x := by revert x; decide
theorem and_ones7 (x : BitVec 7) : x &&& 127#7 = x := by revert x; decide

@[simp] theorem toFin_regBits (r : Reg) : (regBits r).toFin = r := rfl

theorem getLsbD_boolBit (b : Bool) : (boolBit b).getLsbD 0 = b := by cases b <;> rfl

/-! ### The fixed bits -/

theorem encodeI_fixed (imm : BitVec 12) (rs1 : BitVec 5) (f : BitVec 3) (rd : Reg) (op : BitVec 7) :
    encodeI imm rs1 f rd op &&& 0x707F = 0#12 ++ 0#5 ++ f ++ 0#5 ++ op := by
  have h : (imm ++ rs1 ++ f ++ regBits rd ++ op) &&& (0#12 ++ 0#5 ++ 7#3 ++ 0#5 ++ 0x7F#7)
      = 0#12 ++ 0#5 ++ f ++ 0#5 ++ op := by
    simp only [BitVec.and_append, BitVec.and_zero, and_ones3, and_ones7]
  exact h

theorem encodeShift_fixed (top shamt : BitVec 6) (rs1 : BitVec 5) (f : BitVec 3) (rd : Reg) (op : BitVec 7) :
    encodeI (top ++ shamt) rs1 f rd op &&& 0xFC00707F = top ++ 0#6 ++ 0#5 ++ f ++ 0#5 ++ op := by
  have h : (top ++ shamt ++ rs1 ++ f ++ regBits rd ++ op) &&& (63#6 ++ 0#6 ++ 0#5 ++ 7#3 ++ 0#5 ++ 0x7F#7)
      = top ++ 0#6 ++ 0#5 ++ f ++ 0#5 ++ op := by
    simp only [BitVec.and_append, BitVec.and_zero, and_ones3, and_ones6, and_ones7]
  exact h

theorem encodeR_fixed (f7 : BitVec 7) (rs2 rs1 : Reg) (f : BitVec 3) (rd : Reg) (op : BitVec 7) :
    encodeR f7 rs2 rs1 f rd op &&& 0xFE00707F = f7 ++ 0#5 ++ 0#5 ++ f ++ 0#5 ++ op := by
  have h : (f7 ++ regBits rs2 ++ regBits rs1 ++ f ++ regBits rd ++ op) &&&
      (0x7F#7 ++ 0#5 ++ 0#5 ++ 7#3 ++ 0#5 ++ 0x7F#7) = f7 ++ 0#5 ++ 0#5 ++ f ++ 0#5 ++ op := by
    simp only [BitVec.and_append, BitVec.and_zero, and_ones3, and_ones7]
  exact h

theorem encodeS_fixed (imm : BitVec 12) (rs2 rs1 : Reg) (f : BitVec 3) :
    encodeS imm rs2 rs1 f &&& 0x707F = 0#7 ++ 0#5 ++ 0#5 ++ f ++ 0#5 ++ 0b0100011#7 := by
  have h : (imm.extractLsb' 5 7 ++ regBits rs2 ++ regBits rs1 ++ f ++ imm.extractLsb' 0 5 ++ 0b0100011#7) &&&
      (0#7 ++ 0#5 ++ 0#5 ++ 7#3 ++ 0#5 ++ 0x7F#7) = 0#7 ++ 0#5 ++ 0#5 ++ f ++ 0#5 ++ 0b0100011#7 := by
    simp only [BitVec.and_append, BitVec.and_zero, and_ones3, and_ones7]
  exact h

theorem encodeB_fixed (offset : BitVec 13) (rs2 rs1 : Reg) (f : BitVec 3) :
    encodeB offset rs2 rs1 f &&& 0x707F = 0#1 ++ 0#6 ++ 0#5 ++ 0#5 ++ f ++ 0#4 ++ 0#1 ++ 0b1100011#7 := by
  have h : (offset.extractLsb' 12 1 ++ offset.extractLsb' 5 6 ++ regBits rs2 ++ regBits rs1 ++ f ++
      offset.extractLsb' 1 4 ++ offset.extractLsb' 11 1 ++ 0b1100011#7) &&&
      (0#1 ++ 0#6 ++ 0#5 ++ 0#5 ++ 7#3 ++ 0#4 ++ 0#1 ++ 0x7F#7)
      = 0#1 ++ 0#6 ++ 0#5 ++ 0#5 ++ f ++ 0#4 ++ 0#1 ++ 0b1100011#7 := by
    simp only [BitVec.and_append, BitVec.and_zero, and_ones3, and_ones7]
  exact h

theorem encodeAmo_fixed (f5 : BitVec 5) (aq rl : Bool) (rs2 rs1 : Reg) (f : BitVec 3) (rd : Reg) :
    encodeAmo f5 aq rl rs2 rs1 f rd &&& 0xF800707F
      = f5 ++ 0#1 ++ 0#1 ++ 0#5 ++ 0#5 ++ f ++ 0#5 ++ 0b0101111#7 := by
  have h : (f5 ++ boolBit aq ++ boolBit rl ++ regBits rs2 ++ regBits rs1 ++ f ++ regBits rd ++ 0b0101111#7) &&&
      (31#5 ++ 0#1 ++ 0#1 ++ 0#5 ++ 0#5 ++ 7#3 ++ 0#5 ++ 0x7F#7)
      = f5 ++ 0#1 ++ 0#1 ++ 0#5 ++ 0#5 ++ f ++ 0#5 ++ 0b0101111#7 := by
    simp only [BitVec.and_append, BitVec.and_zero, and_ones3, and_ones5, and_ones7]
  exact h

theorem encodeU_fixed (imm : BitVec 20) (rd : Reg) :
    encode (.lui rd imm) &&& 0x7F = 0x37 := by
  have h : (imm ++ regBits rd ++ 0b0110111#7) &&& (0#20 ++ 0#5 ++ 0x7F#7) = 0#20 ++ 0#5 ++ 0b0110111#7 := by
    simp only [BitVec.and_append, BitVec.and_zero, and_ones7]
  exact h

theorem encodeJ_fixed (rd : Reg) (offset : BitVec 21) : encode (.jal rd offset) &&& 0x7F = 0x6F := by
  have h : (offset.extractLsb' 20 1 ++ offset.extractLsb' 1 10 ++ offset.extractLsb' 11 1 ++
      offset.extractLsb' 12 8 ++ regBits rd ++ 0b1101111#7) &&& (0#1 ++ 0#10 ++ 0#1 ++ 0#8 ++ 0#5 ++ 0x7F#7)
      = 0#1 ++ 0#10 ++ 0#1 ++ 0#8 ++ 0#5 ++ 0b1101111#7 := by
    simp only [BitVec.and_append, BitVec.and_zero, and_ones7]
  exact h

theorem encodeFence_fixed (pred succ : FenceSet) (rs1 rd : Reg) :
    encode (.fence pred succ rs1 rd) &&& 0xF000707F = 0xF := by
  have h : (0b0000#4 ++ fenceSetBits pred ++ fenceSetBits succ ++ regBits rs1 ++ 0b000#3 ++ regBits rd ++
      0b0001111#7) &&& (15#4 ++ 0#4 ++ 0#4 ++ 0#5 ++ 7#3 ++ 0#5 ++ 0x7F#7)
      = 0#4 ++ 0#4 ++ 0#4 ++ 0#5 ++ 0#3 ++ 0#5 ++ 0b0001111#7 := by
    simp only [BitVec.and_append, BitVec.and_zero, and_ones3, and_ones4, and_ones7]
  exact h

/-! ### The fields, format by format: the parts of a concatenation -/

theorem partsI (imm : BitVec 12) (rs1 : BitVec 5) (f : BitVec 3) (rd : BitVec 5) (op : BitVec 7) :
    (imm ++ rs1 ++ f ++ rd ++ op).extractLsb' 20 12 = imm ∧
    (imm ++ rs1 ++ f ++ rd ++ op).extractLsb' 15 5 = rs1 ∧
    (imm ++ rs1 ++ f ++ rd ++ op).extractLsb' 7 5 = rd := by
  refine ⟨?_, ?_, ?_⟩ <;> simp (disch := omega) only [BitVec.extractLsb'_append_eq_of_le,
    BitVec.extractLsb'_append_eq_of_add_le, Nat.reduceSub, BitVec.extractLsb'_eq_self]

theorem partsShift (top : BitVec 6) (shamt : BitVec 6) (rs1 : BitVec 5)
    (f : BitVec 3) (rd : BitVec 5) (op : BitVec 7) :
    (top ++ shamt ++ rs1 ++ f ++ rd ++ op).extractLsb' 20 6 = shamt ∧
    (top ++ shamt ++ rs1 ++ f ++ rd ++ op).extractLsb' 15 5 = rs1 ∧
    (top ++ shamt ++ rs1 ++ f ++ rd ++ op).extractLsb' 7 5 = rd := by
  refine ⟨?_, ?_, ?_⟩ <;> simp (disch := omega) only [BitVec.extractLsb'_append_eq_of_le,
    BitVec.extractLsb'_append_eq_of_add_le, Nat.reduceSub, BitVec.extractLsb'_eq_self]

theorem partsR (f7 : BitVec 7) (rs2 : BitVec 5) (rs1 : BitVec 5)
    (f : BitVec 3) (rd : BitVec 5) (op : BitVec 7) :
    (f7 ++ rs2 ++ rs1 ++ f ++ rd ++ op).extractLsb' 20 5 = rs2 ∧
    (f7 ++ rs2 ++ rs1 ++ f ++ rd ++ op).extractLsb' 15 5 = rs1 ∧
    (f7 ++ rs2 ++ rs1 ++ f ++ rd ++ op).extractLsb' 7 5 = rd := by
  refine ⟨?_, ?_, ?_⟩ <;> simp (disch := omega) only [BitVec.extractLsb'_append_eq_of_le,
    BitVec.extractLsb'_append_eq_of_add_le, Nat.reduceSub, BitVec.extractLsb'_eq_self]

theorem partsS (hi : BitVec 7) (rs2 : BitVec 5) (rs1 : BitVec 5)
    (f : BitVec 3) (lo : BitVec 5) (op : BitVec 7) :
    (hi ++ rs2 ++ rs1 ++ f ++ lo ++ op).extractLsb' 25 7 = hi ∧
    (hi ++ rs2 ++ rs1 ++ f ++ lo ++ op).extractLsb' 20 5 = rs2 ∧
    (hi ++ rs2 ++ rs1 ++ f ++ lo ++ op).extractLsb' 15 5 = rs1 ∧
    (hi ++ rs2 ++ rs1 ++ f ++ lo ++ op).extractLsb' 7 5 = lo := by
  refine ⟨?_, ?_, ?_, ?_⟩ <;> simp (disch := omega) only [BitVec.extractLsb'_append_eq_of_le,
    BitVec.extractLsb'_append_eq_of_add_le, Nat.reduceSub, BitVec.extractLsb'_eq_self]

theorem partsB (b12 : BitVec 1) (b5 : BitVec 6) (rs2 : BitVec 5) (rs1 : BitVec 5)
    (f : BitVec 3) (b1 : BitVec 4) (b11 : BitVec 1) (op : BitVec 7) :
    (b12 ++ b5 ++ rs2 ++ rs1 ++ f ++ b1 ++ b11 ++ op).extractLsb' 31 1 = b12 ∧
    (b12 ++ b5 ++ rs2 ++ rs1 ++ f ++ b1 ++ b11 ++ op).extractLsb' 25 6 = b5 ∧
    (b12 ++ b5 ++ rs2 ++ rs1 ++ f ++ b1 ++ b11 ++ op).extractLsb' 20 5 = rs2 ∧
    (b12 ++ b5 ++ rs2 ++ rs1 ++ f ++ b1 ++ b11 ++ op).extractLsb' 15 5 = rs1 ∧
    (b12 ++ b5 ++ rs2 ++ rs1 ++ f ++ b1 ++ b11 ++ op).extractLsb' 8 4 = b1 ∧
    (b12 ++ b5 ++ rs2 ++ rs1 ++ f ++ b1 ++ b11 ++ op).extractLsb' 7 1 = b11 := by
  refine ⟨?_, ?_, ?_, ?_, ?_, ?_⟩ <;> simp (disch := omega) only [BitVec.extractLsb'_append_eq_of_le,
    BitVec.extractLsb'_append_eq_of_add_le, Nat.reduceSub, BitVec.extractLsb'_eq_self]

theorem partsJ (b20 : BitVec 1) (b1 : BitVec 10) (b11 : BitVec 1)
    (b12 : BitVec 8) (rd : BitVec 5) (op : BitVec 7) :
    (b20 ++ b1 ++ b11 ++ b12 ++ rd ++ op).extractLsb' 31 1 = b20 ∧
    (b20 ++ b1 ++ b11 ++ b12 ++ rd ++ op).extractLsb' 21 10 = b1 ∧
    (b20 ++ b1 ++ b11 ++ b12 ++ rd ++ op).extractLsb' 20 1 = b11 ∧
    (b20 ++ b1 ++ b11 ++ b12 ++ rd ++ op).extractLsb' 12 8 = b12 ∧
    (b20 ++ b1 ++ b11 ++ b12 ++ rd ++ op).extractLsb' 7 5 = rd := by
  refine ⟨?_, ?_, ?_, ?_, ?_⟩ <;> simp (disch := omega) only [BitVec.extractLsb'_append_eq_of_le,
    BitVec.extractLsb'_append_eq_of_add_le, Nat.reduceSub, BitVec.extractLsb'_eq_self]

theorem partsAmo (f5 : BitVec 5) (aq : BitVec 1) (rl : BitVec 1) (rs2 : BitVec 5)
    (rs1 : BitVec 5) (f : BitVec 3) (rd : BitVec 5) (op : BitVec 7) :
    (f5 ++ aq ++ rl ++ rs2 ++ rs1 ++ f ++ rd ++ op).extractLsb' 26 1 = aq ∧
    (f5 ++ aq ++ rl ++ rs2 ++ rs1 ++ f ++ rd ++ op).extractLsb' 25 1 = rl ∧
    (f5 ++ aq ++ rl ++ rs2 ++ rs1 ++ f ++ rd ++ op).extractLsb' 20 5 = rs2 ∧
    (f5 ++ aq ++ rl ++ rs2 ++ rs1 ++ f ++ rd ++ op).extractLsb' 15 5 = rs1 ∧
    (f5 ++ aq ++ rl ++ rs2 ++ rs1 ++ f ++ rd ++ op).extractLsb' 7 5 = rd := by
  refine ⟨?_, ?_, ?_, ?_, ?_⟩ <;> simp (disch := omega) only [BitVec.extractLsb'_append_eq_of_le,
    BitVec.extractLsb'_append_eq_of_add_le, Nat.reduceSub, BitVec.extractLsb'_eq_self]

theorem partsFence (fm : BitVec 4) (pred : BitVec 4) (succ : BitVec 4)
    (rs1 : BitVec 5) (f : BitVec 3) (rd : BitVec 5) (op : BitVec 7) :
    (fm ++ pred ++ succ ++ rs1 ++ f ++ rd ++ op).extractLsb' 24 4 = pred ∧
    (fm ++ pred ++ succ ++ rs1 ++ f ++ rd ++ op).extractLsb' 20 4 = succ ∧
    (fm ++ pred ++ succ ++ rs1 ++ f ++ rd ++ op).extractLsb' 15 5 = rs1 ∧
    (fm ++ pred ++ succ ++ rs1 ++ f ++ rd ++ op).extractLsb' 7 5 = rd := by
  refine ⟨?_, ?_, ?_, ?_⟩ <;> simp (disch := omega) only [BitVec.extractLsb'_append_eq_of_le,
    BitVec.extractLsb'_append_eq_of_add_le, Nat.reduceSub, BitVec.extractLsb'_eq_self]

/-! ### The fields, format by format -/

theorem encodeI_fields (imm : BitVec 12) (rs1 : BitVec 5) (f : BitVec 3) (rd : Reg) (op : BitVec 7) :
    (encodeI imm rs1 f rd op).extractLsb' 20 12 = imm ∧ (encodeI imm rs1 f rd op).extractLsb' 15 5 = rs1 ∧
      (encodeI imm rs1 f rd op).extractLsb' 7 5 = regBits rd :=
  partsI imm rs1 f (regBits rd) op

theorem encodeShift_field (top shamt : BitVec 6) (rs1 : BitVec 5) (f : BitVec 3) (rd : Reg) (op : BitVec 7) :
    (encodeI (top ++ shamt) rs1 f rd op).extractLsb' 20 6 = shamt :=
  (partsShift top shamt rs1 f (regBits rd) op).1

theorem encodeR_fields (f7 : BitVec 7) (rs2 rs1 : Reg) (f : BitVec 3) (rd : Reg) (op : BitVec 7) :
    (encodeR f7 rs2 rs1 f rd op).extractLsb' 20 5 = regBits rs2 ∧
      (encodeR f7 rs2 rs1 f rd op).extractLsb' 15 5 = regBits rs1 ∧
      (encodeR f7 rs2 rs1 f rd op).extractLsb' 7 5 = regBits rd :=
  partsR f7 (regBits rs2) (regBits rs1) f (regBits rd) op

theorem encodeS_fields (imm : BitVec 12) (rs2 rs1 : Reg) (f : BitVec 3) :
    immS (encodeS imm rs2 rs1 f) = imm ∧ (encodeS imm rs2 rs1 f).extractLsb' 20 5 = regBits rs2 ∧
      (encodeS imm rs2 rs1 f).extractLsb' 15 5 = regBits rs1 := by
  obtain ⟨hi, r2, r1, lo⟩ := partsS (imm.extractLsb' 5 7) (regBits rs2) (regBits rs1) f (imm.extractLsb' 0 5)
    0b0100011
  refine ⟨?_, r2, r1⟩
  have : immS (encodeS imm rs2 rs1 f) = imm.extractLsb' 5 7 ++ imm.extractLsb' 0 5 := congrArg₂ (· ++ ·) hi lo
  rw [this]
  ext i hi
  simp
  grind

theorem bit_zero_of_even {n : Nat} {x : BitVec n} (even : x.getLsbD 0 = false) : 0#1 = x.extractLsb' 0 1 := by
  ext i hi
  obtain rfl : i = 0 := by omega
  simpa using even.symm

/-- The zero that the B immediate ends in is the offset's own bit 0. -/
theorem encodeB_fields (offset : BitVec 13) (rs2 rs1 : Reg) (f : BitVec 3) (even : offset.getLsbD 0 = false) :
    immB (encodeB offset rs2 rs1 f) = offset ∧ (encodeB offset rs2 rs1 f).extractLsb' 20 5 = regBits rs2 ∧
      (encodeB offset rs2 rs1 f).extractLsb' 15 5 = regBits rs1 := by
  obtain ⟨b12, b5, r2, r1, b1, b11⟩ := partsB (offset.extractLsb' 12 1) (offset.extractLsb' 5 6) (regBits rs2)
    (regBits rs1) f (offset.extractLsb' 1 4) (offset.extractLsb' 11 1) 0b1100011
  refine ⟨?_, r2, r1⟩
  have : immB (encodeB offset rs2 rs1 f) = offset.extractLsb' 12 1 ++ offset.extractLsb' 11 1 ++
      offset.extractLsb' 5 6 ++ offset.extractLsb' 1 4 ++ 0#1 := by
    unfold immB
    exact congrArg₂ (· ++ ·) (congrArg₂ (· ++ ·) (congrArg₂ (· ++ ·) (congrArg₂ (· ++ ·) b12 b11) b5) b1) rfl
  rw [this, bit_zero_of_even even]
  ext i hi
  simp
  grind

theorem encodeJ_fields (rd : Reg) (offset : BitVec 21) (even : offset.getLsbD 0 = false) :
    immJ (encode (.jal rd offset)) = offset ∧ (encode (.jal rd offset)).extractLsb' 7 5 = regBits rd := by
  obtain ⟨b20, b1, b11, b12, r⟩ := partsJ (offset.extractLsb' 20 1) (offset.extractLsb' 1 10)
    (offset.extractLsb' 11 1) (offset.extractLsb' 12 8) (regBits rd) 0b1101111
  refine ⟨?_, r⟩
  have : immJ (encode (.jal rd offset)) = offset.extractLsb' 20 1 ++ offset.extractLsb' 12 8 ++
      offset.extractLsb' 11 1 ++ offset.extractLsb' 1 10 ++ 0#1 := by
    unfold immJ
    exact congrArg₂ (· ++ ·) (congrArg₂ (· ++ ·) (congrArg₂ (· ++ ·) (congrArg₂ (· ++ ·) b20 b12) b11) b1) rfl
  rw [this, bit_zero_of_even even]
  ext i hi
  simp
  grind

theorem encodeU_fields (imm : BitVec 20) (rd : Reg) :
    immU (encode (.lui rd imm)) = imm ∧ (encode (.lui rd imm)).extractLsb' 7 5 = regBits rd := by
  have h : (imm ++ regBits rd ++ 0b0110111#7).extractLsb' 12 20 = imm ∧
      (imm ++ regBits rd ++ 0b0110111#7).extractLsb' 7 5 = regBits rd := by
    refine ⟨?_, ?_⟩ <;> simp (disch := omega) only [BitVec.extractLsb'_append_eq_of_le,
      BitVec.extractLsb'_append_eq_of_add_le, Nat.reduceSub, BitVec.extractLsb'_eq_self]
  exact h

/-- One bit of a word as a field of one bit. -/
theorem getLsbD_of_extract {w : BitVec 32} {k : Nat} {b : Bool} (h : w.extractLsb' k 1 = boolBit b) :
    w.getLsbD k = b := by
  have h0 := congrArg (fun x => x.getLsbD 0) h
  have : w.getLsbD k = (boolBit b).getLsbD 0 := by simpa using h0
  exact this.trans (getLsbD_boolBit b)

theorem encodeAmo_fields (f5 : BitVec 5) (aq rl : Bool) (rs2 rs1 : Reg) (f : BitVec 3) (rd : Reg) :
    fieldAq (encodeAmo f5 aq rl rs2 rs1 f rd) = aq ∧ fieldRl (encodeAmo f5 aq rl rs2 rs1 f rd) = rl ∧
      (encodeAmo f5 aq rl rs2 rs1 f rd).extractLsb' 20 5 = regBits rs2 ∧
      (encodeAmo f5 aq rl rs2 rs1 f rd).extractLsb' 15 5 = regBits rs1 ∧
      (encodeAmo f5 aq rl rs2 rs1 f rd).extractLsb' 7 5 = regBits rd := by
  obtain ⟨a, r, r2, r1, d⟩ := partsAmo f5 (boolBit aq) (boolBit rl) (regBits rs2) (regBits rs1) f (regBits rd)
    0b0101111
  exact ⟨getLsbD_of_extract a, getLsbD_of_extract r, r2, r1, d⟩

theorem fenceSetAt_of_extract {w : BitVec 32} {k : Nat} {f : FenceSet} (h : w.extractLsb' k 4 = fenceSetBits f) :
    fenceSetAt w k = f := by
  have bit (i : Nat) (hi : i < 4) : w.getLsbD (k + i) = (fenceSetBits f).getLsbD i := by
    have := congrArg (fun x => x.getLsbD i) h
    simpa [hi] using this
  obtain ⟨i, o, r, w'⟩ := f
  simp only [fenceSetAt, FenceSet.mk.injEq]
  refine ⟨(bit 3 (by omega)).trans ?_, (bit 2 (by omega)).trans ?_, (bit 1 (by omega)).trans ?_,
    (bit 0 (by omega)).trans ?_⟩ <;> (clear bit h; revert i o r w'; decide)

theorem encodeFence_fields (pred succ : FenceSet) (rs1 rd : Reg) :
    fieldPred (encode (.fence pred succ rs1 rd)) = pred ∧ fieldSucc (encode (.fence pred succ rs1 rd)) = succ ∧
      (encode (.fence pred succ rs1 rd)).extractLsb' 15 5 = regBits rs1 ∧
      (encode (.fence pred succ rs1 rd)).extractLsb' 7 5 = regBits rd := by
  obtain ⟨p, q, r, d⟩ := partsFence 0b0000 (fenceSetBits pred) (fenceSetBits succ) (regBits rs1) 0b000 (regBits rd)
    0b0001111
  exact ⟨fenceSetAt_of_extract p, fenceSetAt_of_extract q, r, d⟩

end Sys2Proof
end

