-- ==== Sys2Proof/Laws/Memory.lean ====
section
/-! SUPPORT. The laws of memory: a read after a write, and the canonical form that every memory operation keeps. -/

namespace Sys2Proof.Machine

/-! ### One byte -/

/-- A write leaves every other byte alone, in any list. -/
theorem Memory.read_write_other (m : Memory) {a x : Nat} (v : Byte) (ne : x ≠ a) : (m.write a v).read x = m.read x := by
  induction m with
  | nil => simp only [Memory.write]; split <;> simp [Memory.read, ne]
  | cons c m ih =>
    obtain ⟨b, w⟩ := c
    simp only [Memory.write]
    split
    · split <;> simp [Memory.read, ne]
    · split
      · next e => subst e; split <;> simp [Memory.read, ne]
      · simp only [Memory.read, ih]

/-- A byte below every listed address is unlisted. -/
theorem Memory.read_below {m : Memory} {a : Nat} (h : ∀ c ∈ m, a < c.1) : m.read a = unlistedByte := by
  induction m with
  | nil => rfl
  | cons c m ih =>
    have hc := h c (by simp)
    simp only [Memory.read]
    rw [if_neg (by omega)]
    exact ih fun d hd => h d (by simp [hd])

theorem Memory.wf_tail {c : Host.Cell} {m : Memory} (h : Memory.wf (c :: m)) : m.wf :=
  ⟨(List.pairwise_cons.mp h.1).2, fun d hd => h.2 d (by simp [hd])⟩

/-- In canonical form a byte written is the byte read. -/
theorem Memory.read_write_same {m : Memory} (h : m.wf) (a : Nat) (v : Byte) : (m.write a v).read a = v := by
  induction m with
  | nil => simp only [Memory.write]; split <;> simp_all [Memory.read]
  | cons c m ih =>
    obtain ⟨b, w⟩ := c
    have below : ∀ d ∈ m, b < d.1 := (List.pairwise_cons.mp h.1).1
    simp only [Memory.write]
    split
    · next lt =>
      split
      · next e =>
        rw [e]
        exact Memory.read_below (by simpa using ⟨lt, fun d w hd => lt.trans (below (d, w) hd)⟩)
      · simp [Memory.read]
    · split
      · next e =>
        subst e
        split
        · next e => rw [e]; exact Memory.read_below below
        · simp [Memory.read]
      · next ne => simp only [Memory.read, if_neg ne, ih (Memory.wf_tail h)]

/-- Every listed address of a memory written to is listed before, or is the address written. -/
theorem Memory.mem_write {m : Memory} {a : Nat} {v : Byte} {c : Host.Cell} (h : c ∈ m.write a v) :
    c ∈ m ∨ (c = (a, v) ∧ v ≠ unlistedByte) := by
  induction m with
  | nil =>
    simp only [Memory.write] at h
    split at h <;> simp_all
  | cons d m ih =>
    obtain ⟨b, w⟩ := d
    simp only [Memory.write] at h
    grind

/-- A write keeps the canonical form. -/
theorem Memory.write_wf {m : Memory} (h : m.wf) (a : Nat) (v : Byte) : (m.write a v).wf := by
  induction m with
  | nil => simp only [Memory.write]; split <;> simp_all [Memory.wf]
  | cons c m ih =>
    obtain ⟨b, w⟩ := c
    have tail := ih (Memory.wf_tail h)
    obtain ⟨sorted, listed⟩ := h
    obtain ⟨below, sorted'⟩ := List.pairwise_cons.mp sorted
    simp only [Memory.write]
    split
    · split
      · exact ⟨sorted, listed⟩
      · next lt ne =>
        refine ⟨List.pairwise_cons.mpr ⟨?_, sorted⟩, by simpa [ne] using listed⟩
        intro d hd
        rcases List.mem_cons.mp hd with rfl | hd
        · exact lt
        · exact lt.trans (below d hd)
    · split
      · next e =>
        subst e
        split
        · exact ⟨sorted', fun d hd => listed d (by simp [hd])⟩
        · next ne =>
          exact ⟨List.pairwise_cons.mpr ⟨below, sorted'⟩, by
            intro d hd
            rcases List.mem_cons.mp hd with rfl | hd
            · exact ne
            · exact listed d (by simp [hd])⟩
      · next nlt ne =>
        refine ⟨List.pairwise_cons.mpr ⟨?_, tail.1⟩, ?_⟩
        · intro d hd
          rcases Memory.mem_write hd with hd | ⟨rfl, -⟩
          · exact below d hd
          · show b < a; omega
        · intro d hd
          rcases List.mem_cons.mp hd with rfl | hd
          · exact listed _ (by simp)
          · exact tail.2 d hd

/-! ### Several bytes -/

theorem Memory.writeBytes_wf {m : Memory} (h : m.wf) (a n : Nat) (v : Word) : (m.writeBytes a n v).wf := by
  induction n generalizing m a v with
  | zero => exact h
  | succ n ih => exact ih (Memory.write_wf h _ _) _ _

/-- A store leaves every byte outside it alone. -/
theorem Memory.read_writeBytes_other (m : Memory) {a n x : Nat} (v : Word) (outside : x < a ∨ a + n ≤ x) :
    (m.writeBytes a n v).read x = m.read x := by
  induction n generalizing m a v with
  | zero => rfl
  | succ n ih =>
    simp only [Memory.writeBytes]
    rw [ih _ _ (by omega), Memory.read_write_other _ _ (by omega)]

/-- Byte `k` of a store is byte `k` of the value (20_memory R43). -/
theorem Memory.read_writeBytes {m : Memory} (h : m.wf) (a : Nat) {n k : Nat} (v : Word) (lt : k < n) :
    (m.writeBytes a n v).read (a + k) = (v >>> (8 * k)).setWidth 8 := by
  induction n generalizing m a v k with
  | zero => omega
  | succ n ih =>
    simp only [Memory.writeBytes]
    cases k with
    | zero =>
      rw [Memory.read_writeBytes_other _ _ (by omega)]
      simpa using Memory.read_write_same h a (v.setWidth 8)
    | succ k =>
      have := ih (Memory.write_wf h a (v.setWidth 8)) (a + 1) (v >>> 8) (k := k) (by omega)
      rw [show a + (k + 1) = a + 1 + k by omega, this, ← BitVec.shiftRight_add]
      congr 2
      omega

/-- Bit `i` of a value read is bit `i % 8` of byte `i / 8`, and 0 above the bytes read (R43). -/
theorem Memory.getLsbD_readBytes (m : Memory) (a n i : Nat) (small : n ≤ 8) :
    (m.readBytes a n).getLsbD i = (decide (i < 8 * n) && (m.read (a + i / 8)).getLsbD (i % 8)) := by
  induction n generalizing a i with
  | zero => simp [Memory.readBytes]
  | succ n ih =>
    simp only [Memory.readBytes, BitVec.getLsbD_or, BitVec.getLsbD_shiftLeft, BitVec.getLsbD_setWidth]
    rw [ih _ _ (by omega)]
    by_cases hi : i < 8
    · have : i < 8 * (n + 1) := by omega
      simp [hi, this, Nat.div_eq_of_lt hi, Nat.mod_eq_of_lt hi, show i < 64 by omega]
    · have hd : a + 1 + (i - 8) / 8 = a + i / 8 := by omega
      have hm : (i - 8) % 8 = i % 8 := by omega
      have hb : (m.read a).getLsbD i = false := BitVec.getLsbD_of_ge _ _ (by omega)
      rw [hd, hm, hb]
      by_cases hn : i < 8 * (n + 1)
      · simp [hi, hn, show i < 64 by omega, show i - 8 < 8 * n by omega]
      · simp [hi, hn, show ¬ i - 8 < 8 * n by omega]

/-- A value stored is the value loaded, cut to the bytes of the access. -/
theorem Memory.readBytes_writeBytes {m : Memory} (h : m.wf) (a n : Nat) (v : Word) (width : n = 4 ∨ n = 8) :
    (m.writeBytes a n v).readBytes a n = truncateBytes n v := by
  apply BitVec.eq_of_getLsbD_eq
  intro i hi
  rw [Memory.getLsbD_readBytes _ _ _ _ (by omega)]
  by_cases lt : i < 8 * n
  · rw [Memory.read_writeBytes h a v (by omega)]
    rcases width with rfl | rfl
    · simp [truncateBytes, lowWord, lt, Nat.div_add_mod, Nat.mod_lt, hi]
    · simp [truncateBytes, lt, Nat.div_add_mod, Nat.mod_lt]
  · rcases width with rfl | rfl
    · simp [truncateBytes, lowWord, lt]
    · omega

/-- A value loaded depends on the bytes of the access alone. -/
theorem Memory.readBytes_congr {m m' : Memory} {a n : Nat} (same : ∀ x, a ≤ x → x < a + n → m.read x = m'.read x) :
    m.readBytes a n = m'.readBytes a n := by
  induction n generalizing a with
  | zero => rfl
  | succ n ih =>
    simp only [Memory.readBytes]
    rw [same a (by omega) (by omega), ih fun x h1 h2 => same x (by omega) (by omega)]

/-- Where a store lists bytes: within the access. -/
theorem Memory.mem_writeBytes {m : Memory} {a n : Nat} {v : Word} {c : Host.Cell} (h : c ∈ m.writeBytes a n v) :
    c ∈ m ∨ (a ≤ c.1 ∧ c.1 < a + n) := by
  induction n generalizing m a v with
  | zero => exact .inl h
  | succ n ih =>
    rcases ih h with h | h
    · rcases Memory.mem_write h with h | ⟨rfl, -⟩
      · exact .inl h
      · exact .inr ⟨le_refl _, by omega⟩
    · exact .inr ⟨by omega, by omega⟩

/-! ### Loading a program -/

theorem Memory.writeWords_wf {m : Memory} (h : m.wf) (a : Nat) (ws : List (BitVec 32)) : (m.writeWords a ws).wf := by
  induction ws generalizing m a with
  | nil => exact h
  | cons w ws ih => exact ih (Memory.writeBytes_wf h _ _ _) _

theorem Memory.writeCells_wf {m : Memory} (h : m.wf) (cells : List Host.Cell) : (m.writeCells cells).wf := by
  induction cells generalizing m with
  | nil => exact h
  | cons c cells ih => exact ih (Memory.write_wf h _ _)

theorem Launch.image_wf (l : Launch) : l.image.wf :=
  Memory.writeWords_wf (Memory.writeCells_wf ⟨List.Pairwise.nil, by simp⟩ _) _ _

theorem State.launch_ram_wf (l : Launch) : (State.launch l).ram.wf := Launch.image_wf l

theorem State.reset_ram_wf : State.reset.ram.wf := by decide

theorem State.placeAtPc_ram_wf (s : State) (nbits w : Nat) (h : s.ram.wf) : (s.placeAtPc nbits w).ram.wf :=
  Memory.writeBytes_wf h _ _ _

end Sys2Proof.Machine
end

