-- ==== Sys2Proof/Laws/State.lean ====
section
/-! SUPPORT. One lemma per field per update of the state, so that no proof unfolds a record update; and what the
executing hart is after each update. -/

namespace Sys2Proof.Machine

variable (s : State)

/-! ### setHart -/

@[simp] theorem State.setHart_cfg (h : Hart) : (s.setHart h).cfg = s.cfg := rfl
@[simp] theorem State.setHart_cur (h : Hart) : (s.setHart h).cur = s.cur := rfl
@[simp] theorem State.setHart_mtime (h : Hart) : (s.setHart h).mtime = s.mtime := rfl
@[simp] theorem State.setHart_mtimecmp (h : Hart) : (s.setHart h).mtimecmp = s.mtimecmp := rfl
@[simp] theorem State.setHart_ram (h : Hart) : (s.setHart h).ram = s.ram := rfl
@[simp] theorem State.setHart_image (h : Hart) : (s.setHart h).image = s.image := rfl
@[simp] theorem State.setHart_history (h : Hart) : (s.setHart h).history = s.history := rfl
@[simp] theorem State.setHart_oracle (h : Hart) : (s.setHart h).oracle = s.oracle := rfl
@[simp] theorem State.setHart_agenda (h : Hart) : (s.setHart h).agenda = s.agenda := rfl
@[simp] theorem State.setHart_rota (h : Hart) : (s.setHart h).rota = s.rota := rfl
@[simp] theorem State.setHart_draws (h : Hart) : (s.setHart h).draws = s.draws := rfl
@[simp] theorem State.setHart_faults (h : Hart) : (s.setHart h).faults = s.faults := rfl
@[simp] theorem State.setHart_refused (h : Hart) : (s.setHart h).refused = s.refused := rfl

/-! ### setReg -/

@[simp] theorem State.setReg_cfg (r : Reg) (v : Word) : (s.setReg r v).cfg = s.cfg := rfl
@[simp] theorem State.setReg_cur (r : Reg) (v : Word) : (s.setReg r v).cur = s.cur := rfl
@[simp] theorem State.setReg_mtime (r : Reg) (v : Word) : (s.setReg r v).mtime = s.mtime := rfl
@[simp] theorem State.setReg_mtimecmp (r : Reg) (v : Word) : (s.setReg r v).mtimecmp = s.mtimecmp := rfl
@[simp] theorem State.setReg_ram (r : Reg) (v : Word) : (s.setReg r v).ram = s.ram := rfl
@[simp] theorem State.setReg_image (r : Reg) (v : Word) : (s.setReg r v).image = s.image := rfl
@[simp] theorem State.setReg_history (r : Reg) (v : Word) : (s.setReg r v).history = s.history := rfl
@[simp] theorem State.setReg_oracle (r : Reg) (v : Word) : (s.setReg r v).oracle = s.oracle := rfl
@[simp] theorem State.setReg_agenda (r : Reg) (v : Word) : (s.setReg r v).agenda = s.agenda := rfl
@[simp] theorem State.setReg_rota (r : Reg) (v : Word) : (s.setReg r v).rota = s.rota := rfl
@[simp] theorem State.setReg_draws (r : Reg) (v : Word) : (s.setReg r v).draws = s.draws := rfl
@[simp] theorem State.setReg_faults (r : Reg) (v : Word) : (s.setReg r v).faults = s.faults := rfl
@[simp] theorem State.setReg_refused (r : Reg) (v : Word) : (s.setReg r v).refused = s.refused := rfl

/-! ### setPc -/

@[simp] theorem State.setPc_cfg (t : Word) : (s.setPc t).cfg = s.cfg := rfl
@[simp] theorem State.setPc_cur (t : Word) : (s.setPc t).cur = s.cur := rfl
@[simp] theorem State.setPc_mtime (t : Word) : (s.setPc t).mtime = s.mtime := rfl
@[simp] theorem State.setPc_mtimecmp (t : Word) : (s.setPc t).mtimecmp = s.mtimecmp := rfl
@[simp] theorem State.setPc_ram (t : Word) : (s.setPc t).ram = s.ram := rfl
@[simp] theorem State.setPc_image (t : Word) : (s.setPc t).image = s.image := rfl
@[simp] theorem State.setPc_history (t : Word) : (s.setPc t).history = s.history := rfl
@[simp] theorem State.setPc_oracle (t : Word) : (s.setPc t).oracle = s.oracle := rfl
@[simp] theorem State.setPc_agenda (t : Word) : (s.setPc t).agenda = s.agenda := rfl
@[simp] theorem State.setPc_rota (t : Word) : (s.setPc t).rota = s.rota := rfl
@[simp] theorem State.setPc_draws (t : Word) : (s.setPc t).draws = s.draws := rfl
@[simp] theorem State.setPc_faults (t : Word) : (s.setPc t).faults = s.faults := rfl
@[simp] theorem State.setPc_refused (t : Word) : (s.setPc t).refused = s.refused := rfl

/-! ### advance -/

@[simp] theorem State.advance_cfg : s.advance.cfg = s.cfg := rfl
@[simp] theorem State.advance_cur : s.advance.cur = s.cur := rfl
@[simp] theorem State.advance_mtime : s.advance.mtime = s.mtime := rfl
@[simp] theorem State.advance_mtimecmp : s.advance.mtimecmp = s.mtimecmp := rfl
@[simp] theorem State.advance_ram : s.advance.ram = s.ram := rfl
@[simp] theorem State.advance_image : s.advance.image = s.image := rfl
@[simp] theorem State.advance_history : s.advance.history = s.history := rfl
@[simp] theorem State.advance_oracle : s.advance.oracle = s.oracle := rfl
@[simp] theorem State.advance_agenda : s.advance.agenda = s.agenda := rfl
@[simp] theorem State.advance_rota : s.advance.rota = s.rota := rfl
@[simp] theorem State.advance_draws : s.advance.draws = s.draws := rfl
@[simp] theorem State.advance_faults : s.advance.faults = s.faults := rfl
@[simp] theorem State.advance_refused : s.advance.refused = s.refused := rfl

/-! ### trapEntry -/

@[simp] theorem State.trapEntry_cfg (i : Bool) (c : Nat) : (s.trapEntry i c).cfg = s.cfg := rfl
@[simp] theorem State.trapEntry_cur (i : Bool) (c : Nat) : (s.trapEntry i c).cur = s.cur := rfl
@[simp] theorem State.trapEntry_mtime (i : Bool) (c : Nat) : (s.trapEntry i c).mtime = s.mtime := rfl
@[simp] theorem State.trapEntry_mtimecmp (i : Bool) (c : Nat) : (s.trapEntry i c).mtimecmp = s.mtimecmp := rfl
@[simp] theorem State.trapEntry_ram (i : Bool) (c : Nat) : (s.trapEntry i c).ram = s.ram := rfl
@[simp] theorem State.trapEntry_image (i : Bool) (c : Nat) : (s.trapEntry i c).image = s.image := rfl
@[simp] theorem State.trapEntry_history (i : Bool) (c : Nat) : (s.trapEntry i c).history = s.history := rfl
@[simp] theorem State.trapEntry_oracle (i : Bool) (c : Nat) : (s.trapEntry i c).oracle = s.oracle := rfl
@[simp] theorem State.trapEntry_agenda (i : Bool) (c : Nat) : (s.trapEntry i c).agenda = s.agenda := rfl
@[simp] theorem State.trapEntry_rota (i : Bool) (c : Nat) : (s.trapEntry i c).rota = s.rota := rfl
@[simp] theorem State.trapEntry_draws (i : Bool) (c : Nat) : (s.trapEntry i c).draws = s.draws := rfl
@[simp] theorem State.trapEntry_faults (i : Bool) (c : Nat) : (s.trapEntry i c).faults = s.faults := rfl
@[simp] theorem State.trapEntry_refused (i : Bool) (c : Nat) : (s.trapEntry i c).refused = s.refused := rfl

/-! ### takeException -/

@[simp] theorem State.takeException_cfg (c : ExceptionCause) : (s.takeException c).cfg = s.cfg := rfl
@[simp] theorem State.takeException_cur (c : ExceptionCause) : (s.takeException c).cur = s.cur := rfl
@[simp] theorem State.takeException_mtime (c : ExceptionCause) : (s.takeException c).mtime = s.mtime := rfl
@[simp] theorem State.takeException_mtimecmp (c : ExceptionCause) : (s.takeException c).mtimecmp = s.mtimecmp := rfl
@[simp] theorem State.takeException_ram (c : ExceptionCause) : (s.takeException c).ram = s.ram := rfl
@[simp] theorem State.takeException_image (c : ExceptionCause) : (s.takeException c).image = s.image := rfl
@[simp] theorem State.takeException_history (c : ExceptionCause) : (s.takeException c).history = s.history := rfl
@[simp] theorem State.takeException_oracle (c : ExceptionCause) : (s.takeException c).oracle = s.oracle := rfl
@[simp] theorem State.takeException_agenda (c : ExceptionCause) : (s.takeException c).agenda = s.agenda := rfl
@[simp] theorem State.takeException_rota (c : ExceptionCause) : (s.takeException c).rota = s.rota := rfl
@[simp] theorem State.takeException_draws (c : ExceptionCause) : (s.takeException c).draws = s.draws := rfl
@[simp] theorem State.takeException_faults (c : ExceptionCause) : (s.takeException c).faults = s.faults := rfl
@[simp] theorem State.takeException_refused (c : ExceptionCause) : (s.takeException c).refused = s.refused := rfl

/-! ### takeInterrupt -/

@[simp] theorem State.takeInterrupt_cfg (c : InterruptCause) : (s.takeInterrupt c).cfg = s.cfg := rfl
@[simp] theorem State.takeInterrupt_cur (c : InterruptCause) : (s.takeInterrupt c).cur = s.cur := rfl
@[simp] theorem State.takeInterrupt_mtime (c : InterruptCause) : (s.takeInterrupt c).mtime = s.mtime := rfl
@[simp] theorem State.takeInterrupt_mtimecmp (c : InterruptCause) : (s.takeInterrupt c).mtimecmp = s.mtimecmp := rfl
@[simp] theorem State.takeInterrupt_ram (c : InterruptCause) : (s.takeInterrupt c).ram = s.ram := rfl
@[simp] theorem State.takeInterrupt_image (c : InterruptCause) : (s.takeInterrupt c).image = s.image := rfl
@[simp] theorem State.takeInterrupt_history (c : InterruptCause) : (s.takeInterrupt c).history = s.history := rfl
@[simp] theorem State.takeInterrupt_oracle (c : InterruptCause) : (s.takeInterrupt c).oracle = s.oracle := rfl
@[simp] theorem State.takeInterrupt_agenda (c : InterruptCause) : (s.takeInterrupt c).agenda = s.agenda := rfl
@[simp] theorem State.takeInterrupt_rota (c : InterruptCause) : (s.takeInterrupt c).rota = s.rota := rfl
@[simp] theorem State.takeInterrupt_draws (c : InterruptCause) : (s.takeInterrupt c).draws = s.draws := rfl
@[simp] theorem State.takeInterrupt_faults (c : InterruptCause) : (s.takeInterrupt c).faults = s.faults := rfl
@[simp] theorem State.takeInterrupt_refused (c : InterruptCause) : (s.takeInterrupt c).refused = s.refused := rfl

/-! ### trapReturn -/

@[simp] theorem State.trapReturn_cfg : s.trapReturn.cfg = s.cfg := rfl
@[simp] theorem State.trapReturn_cur : s.trapReturn.cur = s.cur := rfl
@[simp] theorem State.trapReturn_mtime : s.trapReturn.mtime = s.mtime := rfl
@[simp] theorem State.trapReturn_mtimecmp : s.trapReturn.mtimecmp = s.mtimecmp := rfl
@[simp] theorem State.trapReturn_ram : s.trapReturn.ram = s.ram := rfl
@[simp] theorem State.trapReturn_image : s.trapReturn.image = s.image := rfl
@[simp] theorem State.trapReturn_history : s.trapReturn.history = s.history := rfl
@[simp] theorem State.trapReturn_oracle : s.trapReturn.oracle = s.oracle := rfl
@[simp] theorem State.trapReturn_agenda : s.trapReturn.agenda = s.agenda := rfl
@[simp] theorem State.trapReturn_rota : s.trapReturn.rota = s.rota := rfl
@[simp] theorem State.trapReturn_draws : s.trapReturn.draws = s.draws := rfl
@[simp] theorem State.trapReturn_faults : s.trapReturn.faults = s.faults := rfl
@[simp] theorem State.trapReturn_refused : s.trapReturn.refused = s.refused := rfl

/-! ### record -/

@[simp] theorem State.record_cfg (kind : EventKind) (space : Space) (a n : Nat) (v : Word) (aq rl : Bool) : (s.record kind space a n v aq rl).cfg = s.cfg := rfl
@[simp] theorem State.record_cur (kind : EventKind) (space : Space) (a n : Nat) (v : Word) (aq rl : Bool) : (s.record kind space a n v aq rl).cur = s.cur := rfl
@[simp] theorem State.record_mtime (kind : EventKind) (space : Space) (a n : Nat) (v : Word) (aq rl : Bool) : (s.record kind space a n v aq rl).mtime = s.mtime := rfl
@[simp] theorem State.record_mtimecmp (kind : EventKind) (space : Space) (a n : Nat) (v : Word) (aq rl : Bool) : (s.record kind space a n v aq rl).mtimecmp = s.mtimecmp := rfl
@[simp] theorem State.record_ram (kind : EventKind) (space : Space) (a n : Nat) (v : Word) (aq rl : Bool) : (s.record kind space a n v aq rl).ram = s.ram := rfl
@[simp] theorem State.record_image (kind : EventKind) (space : Space) (a n : Nat) (v : Word) (aq rl : Bool) : (s.record kind space a n v aq rl).image = s.image := rfl
@[simp] theorem State.record_oracle (kind : EventKind) (space : Space) (a n : Nat) (v : Word) (aq rl : Bool) : (s.record kind space a n v aq rl).oracle = s.oracle := rfl
@[simp] theorem State.record_agenda (kind : EventKind) (space : Space) (a n : Nat) (v : Word) (aq rl : Bool) : (s.record kind space a n v aq rl).agenda = s.agenda := rfl
@[simp] theorem State.record_rota (kind : EventKind) (space : Space) (a n : Nat) (v : Word) (aq rl : Bool) : (s.record kind space a n v aq rl).rota = s.rota := rfl
@[simp] theorem State.record_draws (kind : EventKind) (space : Space) (a n : Nat) (v : Word) (aq rl : Bool) : (s.record kind space a n v aq rl).draws = s.draws := rfl
@[simp] theorem State.record_faults (kind : EventKind) (space : Space) (a n : Nat) (v : Word) (aq rl : Bool) : (s.record kind space a n v aq rl).faults = s.faults := rfl
@[simp] theorem State.record_refused (kind : EventKind) (space : Space) (a n : Nat) (v : Word) (aq rl : Bool) : (s.record kind space a n v aq rl).refused = s.refused := rfl

/-! ### ramRead -/

@[simp] theorem State.ramRead_cfg (kind : EventKind) (a n : Nat) (aq rl : Bool) : (s.ramRead kind a n aq rl).cfg = s.cfg := rfl
@[simp] theorem State.ramRead_cur (kind : EventKind) (a n : Nat) (aq rl : Bool) : (s.ramRead kind a n aq rl).cur = s.cur := rfl
@[simp] theorem State.ramRead_mtime (kind : EventKind) (a n : Nat) (aq rl : Bool) : (s.ramRead kind a n aq rl).mtime = s.mtime := rfl
@[simp] theorem State.ramRead_mtimecmp (kind : EventKind) (a n : Nat) (aq rl : Bool) : (s.ramRead kind a n aq rl).mtimecmp = s.mtimecmp := rfl
@[simp] theorem State.ramRead_ram (kind : EventKind) (a n : Nat) (aq rl : Bool) : (s.ramRead kind a n aq rl).ram = s.ram := rfl
@[simp] theorem State.ramRead_image (kind : EventKind) (a n : Nat) (aq rl : Bool) : (s.ramRead kind a n aq rl).image = s.image := rfl
@[simp] theorem State.ramRead_oracle (kind : EventKind) (a n : Nat) (aq rl : Bool) : (s.ramRead kind a n aq rl).oracle = s.oracle.tail := rfl
@[simp] theorem State.ramRead_agenda (kind : EventKind) (a n : Nat) (aq rl : Bool) : (s.ramRead kind a n aq rl).agenda = s.agenda := rfl
@[simp] theorem State.ramRead_rota (kind : EventKind) (a n : Nat) (aq rl : Bool) : (s.ramRead kind a n aq rl).rota = s.rota := rfl
@[simp] theorem State.ramRead_draws (kind : EventKind) (a n : Nat) (aq rl : Bool) : (s.ramRead kind a n aq rl).draws = s.draws := rfl
@[simp] theorem State.ramRead_faults (kind : EventKind) (a n : Nat) (aq rl : Bool) : (s.ramRead kind a n aq rl).faults = s.faults := rfl
@[simp] theorem State.ramRead_refused (kind : EventKind) (a n : Nat) (aq rl : Bool) : (s.ramRead kind a n aq rl).refused = s.refused := rfl

/-! ### ramWrite -/

@[simp] theorem State.ramWrite_cfg (kind : EventKind) (a n : Nat) (v : Word) (aq rl : Bool) : (s.ramWrite kind a n v aq rl).cfg = s.cfg := rfl
@[simp] theorem State.ramWrite_cur (kind : EventKind) (a n : Nat) (v : Word) (aq rl : Bool) : (s.ramWrite kind a n v aq rl).cur = s.cur := rfl
@[simp] theorem State.ramWrite_mtime (kind : EventKind) (a n : Nat) (v : Word) (aq rl : Bool) : (s.ramWrite kind a n v aq rl).mtime = s.mtime := rfl
@[simp] theorem State.ramWrite_mtimecmp (kind : EventKind) (a n : Nat) (v : Word) (aq rl : Bool) : (s.ramWrite kind a n v aq rl).mtimecmp = s.mtimecmp := rfl
@[simp] theorem State.ramWrite_ram (kind : EventKind) (a n : Nat) (v : Word) (aq rl : Bool) : (s.ramWrite kind a n v aq rl).ram = s.ram.writeBytes a n v := rfl
@[simp] theorem State.ramWrite_image (kind : EventKind) (a n : Nat) (v : Word) (aq rl : Bool) : (s.ramWrite kind a n v aq rl).image = s.image := rfl
@[simp] theorem State.ramWrite_oracle (kind : EventKind) (a n : Nat) (v : Word) (aq rl : Bool) : (s.ramWrite kind a n v aq rl).oracle = s.oracle := rfl
@[simp] theorem State.ramWrite_agenda (kind : EventKind) (a n : Nat) (v : Word) (aq rl : Bool) : (s.ramWrite kind a n v aq rl).agenda = s.agenda := rfl
@[simp] theorem State.ramWrite_rota (kind : EventKind) (a n : Nat) (v : Word) (aq rl : Bool) : (s.ramWrite kind a n v aq rl).rota = s.rota := rfl
@[simp] theorem State.ramWrite_draws (kind : EventKind) (a n : Nat) (v : Word) (aq rl : Bool) : (s.ramWrite kind a n v aq rl).draws = s.draws := rfl
@[simp] theorem State.ramWrite_faults (kind : EventKind) (a n : Nat) (v : Word) (aq rl : Bool) : (s.ramWrite kind a n v aq rl).faults = s.faults := rfl
@[simp] theorem State.ramWrite_refused (kind : EventKind) (a n : Nat) (v : Word) (aq rl : Bool) : (s.ramWrite kind a n v aq rl).refused = s.refused := rfl

/-! ### noteFault, noteRefusal -/

@[simp] theorem State.noteFault_cfg (f : Fault) : (s.noteFault f).cfg = s.cfg := rfl
@[simp] theorem State.noteFault_harts (f : Fault) : (s.noteFault f).harts = s.harts := rfl
@[simp] theorem State.noteFault_cur (f : Fault) : (s.noteFault f).cur = s.cur := rfl
@[simp] theorem State.noteFault_mtime (f : Fault) : (s.noteFault f).mtime = s.mtime := rfl
@[simp] theorem State.noteFault_mtimecmp (f : Fault) : (s.noteFault f).mtimecmp = s.mtimecmp := rfl
@[simp] theorem State.noteFault_ram (f : Fault) : (s.noteFault f).ram = s.ram := rfl
@[simp] theorem State.noteFault_image (f : Fault) : (s.noteFault f).image = s.image := rfl
@[simp] theorem State.noteFault_history (f : Fault) : (s.noteFault f).history = s.history := rfl
@[simp] theorem State.noteFault_oracle (f : Fault) : (s.noteFault f).oracle = s.oracle := rfl
@[simp] theorem State.noteFault_agenda (f : Fault) : (s.noteFault f).agenda = s.agenda := rfl
@[simp] theorem State.noteFault_rota (f : Fault) : (s.noteFault f).rota = s.rota := rfl
@[simp] theorem State.noteFault_draws (f : Fault) : (s.noteFault f).draws = s.draws := rfl
@[simp] theorem State.noteFault_refused (f : Fault) : (s.noteFault f).refused = s.refused := rfl
@[simp] theorem State.noteFault_faults (f : Fault) : (s.noteFault f).faults = s.faults.insert f := rfl
@[simp] theorem State.noteRefusal_cfg : s.noteRefusal.cfg = s.cfg := rfl
@[simp] theorem State.noteRefusal_harts : s.noteRefusal.harts = s.harts := rfl
@[simp] theorem State.noteRefusal_cur : s.noteRefusal.cur = s.cur := rfl
@[simp] theorem State.noteRefusal_mtime : s.noteRefusal.mtime = s.mtime := rfl
@[simp] theorem State.noteRefusal_mtimecmp : s.noteRefusal.mtimecmp = s.mtimecmp := rfl
@[simp] theorem State.noteRefusal_ram : s.noteRefusal.ram = s.ram := rfl
@[simp] theorem State.noteRefusal_image : s.noteRefusal.image = s.image := rfl
@[simp] theorem State.noteRefusal_history : s.noteRefusal.history = s.history := rfl
@[simp] theorem State.noteRefusal_oracle : s.noteRefusal.oracle = s.oracle := rfl
@[simp] theorem State.noteRefusal_agenda : s.noteRefusal.agenda = s.agenda := rfl
@[simp] theorem State.noteRefusal_rota : s.noteRefusal.rota = s.rota := rfl
@[simp] theorem State.noteRefusal_draws : s.noteRefusal.draws = s.draws := rfl
@[simp] theorem State.noteRefusal_faults : s.noteRefusal.faults = s.faults := rfl
@[simp] theorem State.noteRefusal_refused : s.noteRefusal.refused = true := rfl

/-! ### tick -/

@[simp] theorem State.tick_cfg : s.tick.cfg = s.cfg := rfl
@[simp] theorem State.tick_cur : s.tick.cur = s.cur := rfl
@[simp] theorem State.tick_mtime : s.tick.mtime = s.mtime + 1 := rfl
@[simp] theorem State.tick_mtimecmp : s.tick.mtimecmp = s.mtimecmp := rfl
@[simp] theorem State.tick_ram : s.tick.ram = s.ram := rfl
@[simp] theorem State.tick_image : s.tick.image = s.image := rfl
@[simp] theorem State.tick_oracle : s.tick.oracle = s.oracle := rfl
@[simp] theorem State.tick_agenda : s.tick.agenda = s.agenda := rfl
@[simp] theorem State.tick_rota : s.tick.rota = s.rota := rfl
@[simp] theorem State.tick_draws : s.tick.draws = s.draws := rfl
@[simp] theorem State.tick_faults : s.tick.faults = s.faults := rfl
@[simp] theorem State.tick_refused : s.tick.refused = s.refused := rfl

/-! ### onHart -/

@[simp] theorem State.onHart_cfg (k : Nat) (f : Hart → Hart) : (s.onHart k f).cfg = s.cfg := rfl
@[simp] theorem State.onHart_cur (k : Nat) (f : Hart → Hart) : (s.onHart k f).cur = s.cur := rfl
@[simp] theorem State.onHart_mtime (k : Nat) (f : Hart → Hart) : (s.onHart k f).mtime = s.mtime := rfl
@[simp] theorem State.onHart_mtimecmp (k : Nat) (f : Hart → Hart) : (s.onHart k f).mtimecmp = s.mtimecmp := rfl
@[simp] theorem State.onHart_ram (k : Nat) (f : Hart → Hart) : (s.onHart k f).ram = s.ram := rfl
@[simp] theorem State.onHart_image (k : Nat) (f : Hart → Hart) : (s.onHart k f).image = s.image := rfl
@[simp] theorem State.onHart_history (k : Nat) (f : Hart → Hart) : (s.onHart k f).history = s.history := rfl
@[simp] theorem State.onHart_oracle (k : Nat) (f : Hart → Hart) : (s.onHart k f).oracle = s.oracle := rfl
@[simp] theorem State.onHart_agenda (k : Nat) (f : Hart → Hart) : (s.onHart k f).agenda = s.agenda := rfl
@[simp] theorem State.onHart_rota (k : Nat) (f : Hart → Hart) : (s.onHart k f).rota = s.rota := rfl
@[simp] theorem State.onHart_draws (k : Nat) (f : Hart → Hart) : (s.onHart k f).draws = s.draws := rfl
@[simp] theorem State.onHart_faults (k : Nat) (f : Hart → Hart) : (s.onHart k f).faults = s.faults := rfl
@[simp] theorem State.onHart_refused (k : Nat) (f : Hart → Hart) : (s.onHart k f).refused = s.refused := rfl

/-! ### propagate -/

@[simp] theorem State.propagate_cfg (k : Nat) : (s.propagate k).cfg = s.cfg := rfl
@[simp] theorem State.propagate_cur (k : Nat) : (s.propagate k).cur = s.cur := rfl
@[simp] theorem State.propagate_mtime (k : Nat) : (s.propagate k).mtime = s.mtime := rfl
@[simp] theorem State.propagate_mtimecmp (k : Nat) : (s.propagate k).mtimecmp = s.mtimecmp := rfl
@[simp] theorem State.propagate_ram (k : Nat) : (s.propagate k).ram = s.ram := rfl
@[simp] theorem State.propagate_image (k : Nat) : (s.propagate k).image = s.image := rfl
@[simp] theorem State.propagate_history (k : Nat) : (s.propagate k).history = s.history := rfl
@[simp] theorem State.propagate_oracle (k : Nat) : (s.propagate k).oracle = s.oracle := rfl
@[simp] theorem State.propagate_agenda (k : Nat) : (s.propagate k).agenda = s.agenda := rfl
@[simp] theorem State.propagate_rota (k : Nat) : (s.propagate k).rota = s.rota := rfl
@[simp] theorem State.propagate_draws (k : Nat) : (s.propagate k).draws = s.draws := rfl
@[simp] theorem State.propagate_faults (k : Nat) : (s.propagate k).faults = s.faults := rfl
@[simp] theorem State.propagate_refused (k : Nat) : (s.propagate k).refused = s.refused := rfl
/-! ### The event an access makes -/

@[simp] theorem State.record_history (kind : EventKind) (space : Space) (a n : Nat) (v : Word) (aq rl : Bool) :
    (s.record kind space a n v aq rl).history = s.history ++
      [{ agent := .hart s.cur, po := s.hart.events, kind := kind, space := space, addr := a, size := n, value := v,
         aq := aq, rl := rl }] := rfl

@[simp] theorem State.ramRead_history (kind : EventKind) (a n : Nat) (aq rl : Bool) :
    (s.ramRead kind a n aq rl).history = s.history ++
      [{ agent := .hart s.cur, po := s.hart.events, kind := kind, space := .ram, addr := a, size := n,
         value := s.loadValue a n, aq := aq, rl := rl }] := rfl

@[simp] theorem State.ramWrite_history (kind : EventKind) (a n : Nat) (v : Word) (aq rl : Bool) :
    (s.ramWrite kind a n v aq rl).history = s.history ++
      [{ agent := .hart s.cur, po := s.hart.events, kind := kind, space := .ram, addr := a, size := n,
         value := truncateBytes n v, aq := aq, rl := rl }] := rfl

@[simp] theorem State.tick_history : s.tick.history = s.history ++
    [{ agent := .timer, po := 0, kind := .write, space := .device, addr := s.cfg.timerBase.toNat + 0xBFF8, size := 8,
       value := s.mtime + 1, aq := false, rl := false }] := rfl

/-! ### The harts after each update -/

@[simp] theorem State.setHart_harts (h : Hart) : (s.setHart h).harts = s.harts.set s.cur h := rfl

@[simp] theorem State.setReg_harts (r : Reg) (v : Word) :
    (s.setReg r v).harts = s.harts.set s.cur (s.hart.setReg r v) := rfl

@[simp] theorem State.setPc_harts (t : Word) : (s.setPc t).harts = s.harts.set s.cur { s.hart with pc := t } := rfl

@[simp] theorem State.advance_harts : s.advance.harts = s.harts.set s.cur { s.hart with pc := s.pc + 4 } := rfl

@[simp] theorem State.trapReturn_harts : s.trapReturn.harts = s.harts.set s.cur
    { s.hart with mstatus := returnMstatus s.hart.mstatus, priv := .machine, pc := s.hart.mepc } := rfl

@[simp] theorem State.trapEntry_harts (i : Bool) (c : Nat) : (s.trapEntry i c).harts = s.harts.set s.cur
    { s.hart with
      mepc := s.hart.pc &&& ~~~1#64
      mcause := trapCause i c
      mstatus := trapMstatus s.hart.mstatus s.hart.priv
      priv := .machine
      pc := trapTarget s.hart.mtvec i c } := rfl

@[simp] theorem State.takeException_harts (c : ExceptionCause) :
    (s.takeException c).harts = (s.trapEntry false c.code).harts := rfl

@[simp] theorem State.takeInterrupt_harts (c : InterruptCause) :
    (s.takeInterrupt c).harts = (s.trapEntry true c.code).harts := rfl

@[simp] theorem State.record_harts (kind : EventKind) (space : Space) (a n : Nat) (v : Word) (aq rl : Bool) :
    (s.record kind space a n v aq rl).harts = s.harts.set s.cur { s.hart with events := s.hart.events + 1 } := rfl

@[simp] theorem State.ramRead_harts (kind : EventKind) (a n : Nat) (aq rl : Bool) :
    (s.ramRead kind a n aq rl).harts = s.harts.set s.cur { s.hart with events := s.hart.events + 1 } := rfl

@[simp] theorem State.ramWrite_harts (kind : EventKind) (a n : Nat) (v : Word) (aq rl : Bool) :
    (s.ramWrite kind a n v aq rl).harts = s.harts.set s.cur { s.hart with events := s.hart.events + 1 } := rfl

@[simp] theorem State.tick_harts : s.tick.harts = s.harts := rfl

@[simp] theorem State.onHart_harts (k : Nat) (f : Hart → Hart) : (s.onHart k f).harts = s.harts.modify k f := rfl

@[simp] theorem State.propagate_harts (k : Nat) :
    (s.propagate k).harts = s.harts.modify k fun x => { x with mtipSeen := s.mtipDev k } := rfl

/-! ### The executing hart, which exists, after each update -/

/-- The executing hart is the one at its place. -/
theorem State.getElem?_cur (active : s.Active) : s.harts[s.cur]? = some s.hart := by
  simp [State.hart, List.getElem?_eq_getElem active]

theorem State.hart_of_getElem? {h : Hart} (at_cur : s.harts[s.cur]? = some h) : s.hart = h := by
  simp [State.hart, at_cur]

@[simp] theorem State.setHart_hart (h : Hart) (active : s.Active) : (s.setHart h).hart = h :=
  State.hart_of_getElem? _ (by simp [active])

/-- A hart's place is another hart's or its own. -/
theorem State.setHart_other (h : Hart) (k : Nat) (other : k ≠ s.cur) : (s.setHart h).harts[k]? = s.harts[k]? := by
  simp [Ne.symm other]

@[simp] theorem State.setHart_setHart (h k : Hart) : (s.setHart h).setHart k = s.setHart k := by
  simp [State.setHart]

@[simp] theorem State.setHart_active (h : Hart) : (s.setHart h).Active ↔ s.Active := by simp [State.Active]

@[simp] theorem State.setReg_active (r : Reg) (v : Word) : (s.setReg r v).Active ↔ s.Active := State.setHart_active s _

@[simp] theorem State.setPc_active (t : Word) : (s.setPc t).Active ↔ s.Active := State.setHart_active s _

@[simp] theorem State.advance_active : s.advance.Active ↔ s.Active := State.setHart_active s _

@[simp] theorem State.record_active (kind : EventKind) (space : Space) (a n : Nat) (v : Word) (aq rl : Bool) :
    (s.record kind space a n v aq rl).Active ↔ s.Active := State.setHart_active s _

@[simp] theorem State.ramRead_active (kind : EventKind) (a n : Nat) (aq rl : Bool) :
    (s.ramRead kind a n aq rl).Active ↔ s.Active := State.setHart_active s _

@[simp] theorem State.ramWrite_active (kind : EventKind) (a n : Nat) (v : Word) (aq rl : Bool) :
    (s.ramWrite kind a n v aq rl).Active ↔ s.Active := State.setHart_active s _

variable {s} (active : s.Active)
include active

@[simp] theorem State.setReg_hart (r : Reg) (v : Word) : (s.setReg r v).hart = s.hart.setReg r v :=
  State.setHart_hart s _ active

@[simp] theorem State.setPc_hart (t : Word) : (s.setPc t).hart = { s.hart with pc := t } :=
  State.setHart_hart s _ active

@[simp] theorem State.advance_hart : s.advance.hart = { s.hart with pc := s.pc + 4 } := State.setHart_hart s _ active

@[simp] theorem State.trapEntry_hart (i : Bool) (c : Nat) : (s.trapEntry i c).hart =
    { s.hart with
      mepc := s.hart.pc &&& ~~~1#64
      mcause := trapCause i c
      mstatus := trapMstatus s.hart.mstatus s.hart.priv
      priv := .machine
      pc := trapTarget s.hart.mtvec i c } := State.setHart_hart s _ active

@[simp] theorem State.trapReturn_hart : s.trapReturn.hart =
    { s.hart with mstatus := returnMstatus s.hart.mstatus, priv := .machine, pc := s.hart.mepc } :=
  State.setHart_hart s _ active

@[simp] theorem State.record_hart (kind : EventKind) (space : Space) (a n : Nat) (v : Word) (aq rl : Bool) :
    (s.record kind space a n v aq rl).hart = { s.hart with events := s.hart.events + 1 } :=
  State.setHart_hart s _ active

@[simp] theorem State.ramRead_hart (kind : EventKind) (a n : Nat) (aq rl : Bool) :
    (s.ramRead kind a n aq rl).hart = { s.hart with events := s.hart.events + 1 } := State.setHart_hart s _ active

@[simp] theorem State.ramWrite_hart (kind : EventKind) (a n : Nat) (v : Word) (aq rl : Bool) :
    (s.ramWrite kind a n v aq rl).hart = { s.hart with events := s.hart.events + 1 } := State.setHart_hart s _ active

omit active

/-! ### Registers -/

/-- x0 reads 0 (10_state R13). -/
@[simp] theorem Hart.reg_zero (h : Hart) : h.reg 0 = 0 := rfl

/-- Reading a register after a write of one (R13). -/
theorem Hart.setReg_reg (h : Hart) (r q : Reg) (v : Word) :
    (h.setReg r v).reg q = if q = r ∧ r ≠ 0 then v else h.reg q := by
  unfold Hart.setReg Hart.reg
  by_cases hr : r = 0
  · simp [hr]
  · by_cases hq : q = 0
    · simp [hr, hq, Ne.symm hr]
    · by_cases e : q = r
      · subst e; simp [hr]
      · simp [hr, hq, e, Fin.val_ne_of_ne (Ne.symm e)]

/-- A register write changes no other field of the hart. -/
theorem Hart.setReg_fields (h : Hart) (r : Reg) (v : Word) : h.setReg r v = { h with regs := (h.setReg r v).regs } := by
  unfold Hart.setReg; split <;> rfl

@[simp] theorem Hart.setReg_pc (h : Hart) (r : Reg) (v : Word) : (h.setReg r v).pc = h.pc := by
  rw [Hart.setReg_fields]

@[simp] theorem Hart.setReg_priv (h : Hart) (r : Reg) (v : Word) : (h.setReg r v).priv = h.priv := by
  rw [Hart.setReg_fields]

@[simp] theorem Hart.setReg_events (h : Hart) (r : Reg) (v : Word) : (h.setReg r v).events = h.events := by
  rw [Hart.setReg_fields]

@[simp] theorem Hart.reg_withPc (h : Hart) (t : Word) (r : Reg) : ({ h with pc := t } : Hart).reg r = h.reg r := rfl

@[simp] theorem Hart.reg_withEvents (h : Hart) (n : Nat) (r : Reg) : ({ h with events := n } : Hart).reg r = h.reg r :=
  rfl

theorem State.getReg_eq (t : State) (r : Reg) : t.getReg r = t.hart.reg r := rfl

theorem State.pc_eq (t : State) : t.pc = t.hart.pc := rfl

end Sys2Proof.Machine
end

