-- ==== Sys2Proof/Laws/Ops.lean ====
section
/-! SUPPORT. For each shared operation, everything it can do, said once; and when an access completes. -/

namespace Sys2Proof.Machine

variable {s t : State}

/-! ### Stops -/

/-- An instruction that ends early and still answers a state has taken an exception. -/
theorem State.stop_next {e : Stop} (h : s.stop e = .next t) :
    (∃ c, e = .raise c ∧ t = s.takeException c) ∨
      (e = .misalignedAmo ∧ t = { s with draws := s.draws + 1 }.takeException s.misalignedAmoCause) := by
  cases e <;> simp_all [State.stop]

/-- The free draw is between the two causes (20_memory R49). -/
theorem State.misalignedAmoCause_cases (s : State) :
    s.misalignedAmoCause = .storeAmoAccessFault ∨ s.misalignedAmoCause = .storeAmoAddressMisaligned := by
  unfold State.misalignedAmoCause; split <;> simp

/-! ### The address map (20_memory R54-R58, 41_timer_arming R121) -/

theorem State.inRam_iff {a n : Nat} : s.inRam a n = true ↔
    s.cfg.ramBase.toNat ≤ a ∧ a + n ≤ s.cfg.ramBase.toNat + s.cfg.ramSize := by
  simp [State.inRam]

theorem State.touchesTimer_iff {a n : Nat} : s.touchesTimer a n = true ↔
    a < s.cfg.timerBase.toNat + 0x10000 ∧ s.cfg.timerBase.toNat < a + n := by
  simp only [State.touchesTimer, Bool.and_eq_true, decide_eq_true_eq]
  exact Iff.rfl

theorem State.touchesText_iff {a n : Nat} : s.touchesText a n = true ↔
    a < s.cfg.textBase.toNat + 4 * s.cfg.textWords ∧ s.cfg.textBase.toNat < a + n := by
  simp [State.touchesText]

/-- The slot of an existing hart. -/
theorem State.timerSlot_of_lt {h : Nat} (lt : h < s.mtimecmp.length) :
    s.timerSlot (s.cfg.timerBase.toNat + 0x4000 + 8 * h) = some h := by
  simp only [State.timerSlot]
  rw [if_pos (by omega)]
  congr 1
  omega

/-! ### Loads -/

/-- A load that is done reads RAM or a decoded timer register, aligned and not locked (40_register_interface R115,
R116; 41_timer_arming R122). -/
theorem State.load_ok {addr v : Word} {n : Nat} (h : s.load addr n = .ok (v, t)) :
    addr.toNat % n = 0 ∧ s.pmpLocked = false ∧
      ((s.touchesTimer addr.toNat n = true ∧ n = 8 ∧ s.timerRead addr.toNat = some v ∧
          t = s.record .read .device addr.toNat n v false false) ∨
        (s.touchesTimer addr.toNat n = false ∧ s.inRam addr.toNat n = true ∧ v = s.loadValue addr.toNat n ∧
          t = s.ramRead .read addr.toNat n false false)) := by
  simp only [State.load] at h
  repeat' split at h
  all_goals (cases h <;> simp_all)

/-- A load of RAM that nothing stands in the way of is done. -/
theorem State.load_ram {addr : Word} {n : Nat} (aligned : addr.toNat % n = 0)
    (outside : s.touchesTimer addr.toNat n = false) (open' : s.pmpLocked = false) (inside : s.inRam addr.toNat n = true) :
    s.load addr n = .ok (s.loadValue addr.toNat n, s.ramRead .read addr.toNat n false false) := by
  simp [State.load, aligned, outside, open', inside]

/-- An 8-byte load of a decoded timer register is done. -/
theorem State.load_timer {addr v : Word} (aligned : addr.toNat % 8 = 0)
    (inside : s.touchesTimer addr.toNat 8 = true) (open' : s.pmpLocked = false)
    (decoded : s.timerRead addr.toNat = some v) :
    s.load addr 8 = .ok (v, s.record .read .device addr.toNat 8 v false false) := by
  simp [State.load, aligned, inside, open', decoded]

/-- A load that is not done refuses or is stuck; it raises nothing (60_exceptions R179). -/
theorem State.load_error {addr : Word} {n : Nat} {e : Stop} (h : s.load addr n = .error e) :
    e = .fault .stuckData ∨ ∃ r, e = .refuse r := by
  simp only [State.load] at h
  repeat' split at h
  all_goals (cases h <;> simp)

/-! ### Stores -/

/-- What a timer write changes: one compare register (41_timer_arming R123). -/
theorem State.timerWrite_some {a : Nat} {v : Word} (h : s.timerWrite a v = some t) :
    ∃ k, s.timerSlot a = some k ∧ k < s.mtimecmp.length ∧ t = { s with mtimecmp := s.mtimecmp.set k v } := by
  unfold State.timerWrite at h
  cases hk : s.timerSlot a with
  | none => simp [hk] at h
  | some k =>
    refine ⟨k, rfl, ?_, by simpa [hk] using h.symm⟩
    unfold State.timerSlot at hk
    grind

/-- A store that is done writes RAM outside the program, or a decoded compare register, aligned and not locked
(40_register_interface R117, R118; 41_timer_arming R123). -/
theorem State.store_ok {addr v : Word} {n : Nat} (h : s.store addr n v = .ok t) :
    addr.toNat % n = 0 ∧ s.pmpLocked = false ∧
      ((s.touchesTimer addr.toNat n = true ∧ n = 8 ∧ ∃ u, s.timerWrite addr.toNat v = some u ∧
          t = u.record .write .device addr.toNat n v false false) ∨
        (s.touchesTimer addr.toNat n = false ∧ s.touchesText addr.toNat n = false ∧ s.inRam addr.toNat n = true ∧
          t = s.ramWrite .write addr.toNat n v false false)) := by
  simp only [State.store] at h
  repeat' split at h
  all_goals simp_all

/-- A store to RAM that nothing stands in the way of is done. -/
theorem State.store_ram {addr v : Word} {n : Nat} (aligned : addr.toNat % n = 0)
    (outside : s.touchesTimer addr.toNat n = false) (data : s.touchesText addr.toNat n = false)
    (open' : s.pmpLocked = false) (inside : s.inRam addr.toNat n = true) :
    s.store addr n v = .ok (s.ramWrite .write addr.toNat n v false false) := by
  simp [State.store, aligned, outside, data, open', inside]

theorem State.store_timer {addr v : Word} {u : State} (aligned : addr.toNat % 8 = 0)
    (inside : s.touchesTimer addr.toNat 8 = true) (open' : s.pmpLocked = false)
    (decoded : s.timerWrite addr.toNat v = some u) :
    s.store addr 8 v = .ok (u.record .write .device addr.toNat 8 v false false) := by
  simp [State.store, aligned, inside, open', decoded]

theorem State.store_error {addr v : Word} {n : Nat} {e : Stop} (h : s.store addr n v = .error e) :
    e = .fault .stuckData ∨ ∃ r, e = .refuse r := by
  simp only [State.store] at h
  repeat' split at h
  all_goals (cases h <;> simp)

/-! ### AMOs (42_atomic_lock R138, R146) -/

/-- The AMO checks that let an AMO pass. -/
theorem State.amoCheck_none {a n : Nat} : s.amoCheck a n = none ↔
    a % n = 0 ∧ s.touchesTimer a n = false ∧ s.inRam a n = true ∧ s.touchesText a n = false ∧ s.pmpLocked = false := by
  unfold State.amoCheck
  grind

/-- An AMO that answers a state has done its read-modify-write, or raised for its alignment. -/
theorem State.amo_next {rd : Reg} {addr : Word} {n : Nat} {f : Word → Option Word} {aq rl : Bool}
    {result : Word → Word} (h : s.amo rd addr n f aq rl result = .next t) :
    (addr.toNat % n ≠ 0 ∧ t = { s with draws := s.draws + 1 }.takeException s.misalignedAmoCause) ∨
      (s.amoCheck addr.toNat n = none ∧
        t = ((s.atomicRmw addr.toNat n f aq rl).setReg rd (result (s.loadValue addr.toNat n))).advance) := by
  unfold State.amo at h
  cases hc : s.amoCheck addr.toNat n with
  | none => exact .inr ⟨rfl, by simpa [hc] using h.symm⟩
  | some e =>
    rw [hc] at h
    refine .inl ?_
    unfold State.amoCheck at hc
    rcases State.stop_next h with ⟨c, rfl, -⟩ | ⟨rfl, rfl⟩ <;> grind

/-- An AMO that passes its checks completes. -/
theorem State.amo_ram {rd : Reg} {addr : Word} {n : Nat} {f : Word → Option Word} {aq rl : Bool} {result : Word → Word}
    (pass : s.amoCheck addr.toNat n = none) : s.amo rd addr n f aq rl result =
      .next ((s.atomicRmw addr.toNat n f aq rl).setReg rd (result (s.loadValue addr.toNat n))).advance := by
  simp [State.amo, pass]

/-! ### CSR instructions (40_register_interface R96-R101) -/

/-- A CSR instruction that answers a state has raised IllegalInstruction, or only read, or written. -/
theorem State.csrInstruction_next {rd : Reg} {number : BitVec 12} {reads : Bool} {change : Option (Word → Word)}
    (h : s.csrInstruction rd number reads change = .next t) :
    (t = s.takeException .illegalInstruction ∧
        (csrAllowed s.hart.priv number = false ∨ (change.isSome = true ∧ csrReadOnly number = true))) ∨
      ∃ r old, csrOfNumber number = some r ∧ (if reads then s.hart.csrRead s.cfg s.cur r else .ok 0) = .ok old ∧
        ((change = none ∧ t = (s.setReg rd old).advance) ∨
          ∃ f k, change = some f ∧ csrReadOnly number = false ∧
            s.hart.csrWrite s.cfg r (f (s.hart.csrRmw s.cfg r old)) = .ok k ∧
            t = ((s.setHart k).setReg rd old).advance) := by
  unfold State.csrInstruction at h
  split at h
  · simp at h
  · next r hr =>
    split at h
    · next np => exact .inl ⟨by simpa using h.symm, .inl (by simpa using np)⟩
    · split at h
      · next ro => exact .inl ⟨by simpa using h.symm, .inr (by simpa using ro)⟩
      · next ro =>
        split at h
        · simp at h
        · next old ho =>
          refine .inr ⟨r, old, hr, ho, ?_⟩
          cases change with
          | none => exact .inl ⟨rfl, by simpa using h.symm⟩
          | some f =>
            simp only at h
            split at h
            · simp at h
            · next k hk => exact .inr ⟨f, k, rfl, by simpa using ro, hk, by simpa using h.symm⟩

/-- The fold that a write of eight configuration bytes is: the bytes of the entries it names that take it change
(10_state R30). -/
theorem pmpcfg_fold_get {open' : Nat → Bool} {v : Nat → Byte} {first : Nat} {cfg : Vector Byte 16} (n : Nat)
    (i : Fin 16) :
    ((List.range n).foldl (fun cfg k => if open' (first + k) then cfg.setIfInBounds (first + k) (v k) else cfg) cfg)[i] =
      if first ≤ i.val ∧ i.val < first + n ∧ open' i.val = true then v (i.val - first) else cfg[i] := by
  induction n with
  | zero => rw [if_neg (by omega)]; rfl
  | succ n ih =>
    rw [List.range_succ, List.foldl_append, List.foldl_cons, List.foldl_nil]
    generalize (List.range n).foldl _ cfg = w at ih
    by_cases o : open' (first + n) = true
    · rw [if_pos o, Fin.getElem_fin, Vector.getElem_setIfInBounds]
      by_cases e : first + n = i.val
      · rw [if_pos e, if_pos ⟨by omega, by omega, e ▸ o⟩]
        congr 1; omega
      · rw [if_neg e, ← Fin.getElem_fin, ih]
        have : i.val < first + n ↔ i.val < first + (n + 1) := by omega
        simp only [this]
    · rw [if_neg o, ih]
      by_cases e : i.val = first + n
      · rw [if_neg (by omega), if_neg (by rw [e]; tauto)]
      · have : i.val < first + n ↔ i.val < first + (n + 1) := by omega
        simp only [this]

/-- A write of pmpcfg0 or pmpcfg2 that is done changes the bytes of its own entries that take it. -/
theorem Hart.pmpcfgWrite_ok {c : Config} {h k : Hart} {first : Nat} {v : Word} (w : h.pmpcfgWrite c first v = .ok k) :
    k = { h with pmpcfg := k.pmpcfg } ∧ ∀ i : Fin 16, k.pmpcfg[i] =
      if first ≤ i.val ∧ i.val < first + 8 ∧ h.pmpcfgOpen c i.val = true then pmpStored (byteOf v (i.val - first))
      else h.pmpcfg[i] := by
  unfold Hart.pmpcfgWrite at w
  split at w
  · cases w
  · cases w
    exact ⟨rfl, fun i => pmpcfg_fold_get (open' := h.pmpcfgOpen c) (v := fun k => pmpStored (byteOf v k)) 8 i⟩
/-- A CSR write changes nothing of the hart but CSRs: no general register, pc, mode, input or count. -/
theorem Hart.csrWrite_frame {c : Config} {h k : Hart} {r : Csr} {v : Word} (w : h.csrWrite c r v = .ok k) :
    k = { h with mstatus := k.mstatus, mie := k.mie, mipSw := k.mipSw, satp := k.satp, medeleg := k.medeleg,
                 mideleg := k.mideleg, pmpcfg := k.pmpcfg, pmpaddr := k.pmpaddr, mscratch := k.mscratch,
                 mtvec := k.mtvec, mepc := k.mepc, mcause := k.mcause } := by
  cases r <;> simp only [Hart.csrWrite, Hart.sstatusWrite, Hart.mstatusWrite, Hart.pmpcfgWrite,
    Hart.pmpaddrWrite] at w <;> repeat' split at w
  all_goals (cases w <;> rfl)

/-! ### Control transfer (43_integer_support R169) -/

/-- A transfer that does not happen has a target that is no multiple of 4. -/
theorem State.targetStop_none {a : Word} : s.targetStop a = none ↔ a.toNat % 4 = 0 := by
  unfold State.targetStop; grind

theorem State.branch_next {taken : Bool} {offset : BitVec 13} (h : s.branch taken offset = .next t) :
    (taken = false ∧ t = s.advance) ∨
      (taken = true ∧ (branchTarget s.pc offset).toNat % 4 = 0 ∧ t = s.setPc (branchTarget s.pc offset)) ∨
      (taken = true ∧ (branchTarget s.pc offset).toNat % 4 ≠ 0 ∧ s.cfg.hasC = false ∧
        t = s.takeException .instructionAddressMisaligned) := by
  unfold State.branch State.targetStop State.stop at h
  grind

/-! ### Trap return (44_system R174) -/

theorem execMret_next (h : execMret s = .next t) :
    (s.hart.priv ≠ .machine ∧ t = s.takeException .illegalInstruction) ∨
      (s.hart.priv = .machine ∧ mstatusMpp s.hart.mstatus = 3 ∧ s.hart.mepc.toNat % 4 = 0 ∧ t = s.trapReturn) := by
  unfold execMret at h
  grind

/-! ### One hart's step, and one move -/

/-- A step of a hart that answers a state took an interrupt, or ran the instruction its bytes decode to. -/
theorem State.hartStep_next {take : Bool} (h : s.hartStep take = .next t) :
    (∃ c, take = true ∧ s.hart.nextInterrupt s.cfg = some c ∧ t = s.takeInterrupt c) ∨
      ∃ bytes i, s.fetch = .ok bytes ∧ decodeBytes bytes = .ok i ∧ exec i s = .next t := by
  unfold State.hartStep at h
  split at h
  · next c hc => exact .inl ⟨c, rfl, hc, by simpa using h.symm⟩
  · unfold State.runInstruction at h
    split at h
    · next e he =>
      unfold State.fetch at he
      unfold State.stop at h
      grind
    · next bytes hb =>
      split at h
      · simp at h
      · next i hi => exact .inr ⟨bytes, i, hb, hi, h⟩

/-- A fetch that is done is aligned, in RAM, outside the timer region and not locked. -/
theorem State.fetch_ok {bytes : List Byte} (h : s.fetch = .ok bytes) :
    s.pc.toNat % 4 = 0 ∧ s.touchesTimer s.pc.toNat 4 = false ∧ s.pmpLocked = false ∧ s.inRam s.pc.toNat 4 = true ∧
      bytes = s.ram.bytes s.pc.toNat 4 := by
  unfold State.fetch at h
  grind

/-- The outcome of a hart's step for the machine, when it is a state. -/
theorem endHartOutcome_next {o : Host.Outcome State Fault Refusal} (h : endHartOutcome o = .next t) :
    ∃ u, o = .next u ∧ t = u.endHartStep := by
  cases o <;> simp_all [endHartOutcome]

/-- A move that answers a state is one of the four agents' steps, or an idle one. -/
theorem State.makeMove_next {m : Move} (h : s.makeMove m = .next t) :
    (m = .timer ∧ t = s.tick.passTurn) ∨ (∃ k, m = .propagate k ∧ t = (s.propagate k).passTurn) ∨
      (∃ k l b, m = .environment k l b ∧ t = (s.environment k l b).passTurn) ∨
      ∃ k take, m = .hart k take ∧
        ((s.hartSteps k take = false ∧ t = s.passTurn) ∨
          (s.hartSteps k take = true ∧ ∃ u, { s with cur := k }.hartStep take = .next u ∧ t = u.endHartStep)) := by
  cases m with
  | timer => exact .inl ⟨rfl, by simpa [State.makeMove] using h.symm⟩
  | propagate k => exact .inr (.inl ⟨k, rfl, by simpa [State.makeMove] using h.symm⟩)
  | environment k l b => exact .inr (.inr (.inl ⟨k, l, b, rfl, by simpa [State.makeMove] using h.symm⟩))
  | hart k take =>
    refine .inr (.inr (.inr ⟨k, take, rfl, ?_⟩))
    simp only [State.makeMove] at h
    split at h
    · next r =>
      obtain ⟨u, hu, rfl⟩ := endHartOutcome_next h
      exact .inr ⟨r, u, hu, rfl⟩
    · next r => exact .inl ⟨by simpa using r, by simpa using h.symm⟩

/-- A hart that has a step takes steps at all, and its step is no stuck one. -/
theorem State.hartSteps_iff {k : Nat} {take : Bool} :
    s.hartSteps k take = true ↔ s.runs k = true ∧ isStuck ({ s with cur := k }.hartStep take) = false := by
  simp [State.hartSteps]

/-- A hart that takes steps exists. -/
theorem State.runs_lt {k : Nat} (h : s.runs k = true) : k < s.harts.length := by
  unfold State.runs at h
  split at h
  · next x hx => exact (List.getElem?_eq_some_iff.mp hx).1
  · simp at h

/-- Passing the turn changes the choices to come and nothing else. -/
theorem State.passTurn_eq (s : State) :
    s.passTurn = { s with agenda := s.passTurn.agenda, rota := s.passTurn.rota } := by
  unfold State.passTurn; split <;> rfl

/-- What a move leaves: the next state; or the mark of a fault or of a refusal, which nothing clears, and the turn passed
(00_scope R8, 10_state R42). -/
theorem State.settle_cases (s : State) (o : Host.Outcome State Fault Refusal) :
    (∃ t, o = .next t ∧ s.settle o = t) ∨
      (∃ f, o = .fault f ∧ s.settle o = { s with
        faults := s.faults.insert f, agenda := s.passTurn.agenda, rota := s.passTurn.rota }) ∨
      ∃ r, o = .refused r ∧ s.settle o = { s with
        refused := true, agenda := s.passTurn.agenda, rota := s.passTurn.rota } := by
  cases o with
  | next t => exact .inl ⟨t, rfl, rfl⟩
  | fault f =>
    refine .inr (.inl ⟨f, rfl, ?_⟩)
    simp only [State.settle, State.noteFault, State.passTurn, State.nharts]
    split <;> rfl
  | refused r =>
    refine .inr (.inr ⟨r, rfl, ?_⟩)
    simp only [State.settle, State.noteRefusal, State.passTurn, State.nharts]
    split <;> rfl

/-- The run has ended when every hart has exited and the state carries no mark (70_reset R206). -/
theorem State.ended_iff {s : State} : s.ended = true ↔
    (∀ h ∈ s.harts, h.exited = true) ∧ s.faults = [] ∧ s.refused = false := by
  simp [State.ended, State.allExited, State.unmarked]

/-- The end of a hart's run changes `exited` of the executing hart and nothing else. -/
theorem State.noteExit_eq (s : State) : s.noteExit = s ∨ s.noteExit = s.setHart { s.hart with exited := true } := by
  unfold State.noteExit; split <;> simp

end Sys2Proof.Machine
end

