-- ==== Sys2Proof/Laws/Frames.lean ====
section
/-! SUPPORT. What the ends of an instruction, a register write and a new pc after its accesses, change and leave alone,
in the statements' terms; and the state trap entry leaves. -/

namespace Sys2Proof.Machine

variable {s : State}

/-- A register write and then a new pc write `rd` and pc, and nothing else. -/
theorem State.setReg_setPc_writesOnly (active : s.Active) (rd : Reg) (v next : Word) :
    s.WritesOnly ((s.setReg rd v).setPc next) rd v next := by
  have active' : (s.setReg rd v).Active := by simpa using active
  have hart : ((s.setReg rd v).setPc next).hart = { s.hart.setReg rd v with pc := next } := by
    rw [State.setPc_hart active', State.setReg_hart active]
  refine ⟨?_, ?_, ⟨?_, ?_, ?_, ?_⟩, fun x => rfl, rfl⟩
  · rw [State.getReg_eq, hart, Hart.reg_withPc, Hart.setReg_reg]
    by_cases h : rd = 0
    · subst h; simp
    · simp [h]
  · rw [State.pc_eq, hart]
  · intro r hr
    rw [State.getReg_eq, hart, Hart.reg_withPc, Hart.setReg_reg, if_neg (fun h => hr h.1), State.getReg_eq]
  · rw [hart, Hart.setReg_fields]; rfl
  · intro k hk
    simp [Ne.symm hk]
  · simp [State.nharts]

theorem State.setReg_pc (active : s.Active) (rd : Reg) (v : Word) : (s.setReg rd v).pc = s.pc := by
  rw [State.pc_eq, State.setReg_hart active, Hart.setReg_pc, State.pc_eq]

/-- The end of an instruction that writes `rd` and goes on. -/
theorem State.setReg_advance_writesOnly (active : s.Active) (rd : Reg) (v : Word) :
    s.WritesOnly (s.setReg rd v).advance rd v (s.pc + 4) := by
  have e : (s.setReg rd v).advance = (s.setReg rd v).setPc (s.pc + 4) := by
    rw [State.advance, State.setReg_pc active]
  rw [e]
  exact State.setReg_setPc_writesOnly active rd v _

theorem State.setReg_zero (active : s.Active) (v : Word) : s.setReg 0 v = s := by
  have : s.harts.set s.cur s.hart = s.harts := by
    apply List.ext_getElem?
    intro k
    by_cases hk : k = s.cur
    · subst hk; rw [State.getElem?_cur s active]; simp [active]
    · simp [Ne.symm hk]
  show { s with harts := s.harts.set s.cur (s.hart.setReg 0 v) } = s
  rw [Hart.setReg, if_pos rfl, this]

/-- A new pc alone writes no register. -/
theorem State.setPc_writesOnly (active : s.Active) (next : Word) : s.WritesOnly (s.setPc next) 0 0 next := by
  have := State.setReg_setPc_writesOnly active 0 0 next
  rwa [State.setReg_zero active] at this

/-- The end of an instruction whose accesses have brought the machine from `s` to `u`: they counted and listed their
events, and touched no hart's registers. -/
theorem State.accesses_end {u : State} {made : List Event} {used : Bool} (active : s.Active)
    (harts : u.harts = s.harts.set s.cur { s.hart with events := s.hart.events + made.length })
    (rest : u = { s with harts := u.harts, ram := u.ram, history := s.history ++ made,
                         oracle := if used then s.oracle.tail else s.oracle }) (rd : Reg) (v : Word) :
    s.Accesses (u.setReg rd v).advance rd v made used := by
  have cur : u.cur = s.cur := by rw [rest]
  have active' : u.Active := by simpa [State.Active, harts, cur] using active
  have hart : u.hart = { s.hart with events := s.hart.events + made.length } :=
    State.hart_of_getElem? _ (by rw [harts, cur]; simp [active])
  obtain ⟨dest, pc, frame, -, rest'⟩ := State.setReg_advance_writesOnly active' rd v
  have reg : ∀ r, u.getReg r = s.getReg r := by
    intro r; rw [State.getReg_eq, hart, Hart.reg_withEvents, State.getReg_eq]
  refine ⟨dest, ?_, ⟨?_, ?_, ?_, ?_⟩, ?_⟩
  · rw [pc, State.pc_eq, hart]; rfl
  · intro r hr; rw [frame.regs r hr, reg]
  · rw [frame.csrs, hart]; rfl
  · intro k hk
    rw [frame.others k (by rwa [cur]), harts]
    simp [Ne.symm hk]
  · rw [frame.count]; simp [State.nharts, harts]
  · rw [rest', rest]

/-- A store's bytes, in canonical memory. -/
theorem State.stores_of_ram {t : State} (wf : s.ram.wf) (a n : Nat) (v : Word) (ram : t.ram = s.ram.writeBytes a n v) :
    s.Stores t a n v :=
  ⟨fun _ hk => by rw [ram]; exact Memory.read_writeBytes wf a v hk,
    fun _ hx => by rw [ram]; exact Memory.read_writeBytes_other _ _ hx⟩

/-! ### AMOs -/

/-- What an AMO that meets none of its checks does, by whether the comparison gives a value to write
(42_atomic_lock R139, R146). -/
theorem State.amo_complete {rd : Reg} {addr : Word} {n : Nat} {f : Word → Option Word} {aq rl : Bool}
    {result : Word → Word} {old : Word} (active : s.Active) (wf : s.ram.wf) (open' : s.Writable addr.toNat n)
    (value : old = s.loadValue addr.toNat n) :
    ∃ t, s.amo rd addr n f aq rl result = .next t ∧
      (∀ new, f old = some new → s.Stores t addr.toNat n new ∧ s.Accesses t rd (result old)
        [s.event 0 .amoRead .ram addr.toNat n old aq rl,
          s.event 1 .amoWrite .ram addr.toNat n (truncateBytes n new) aq rl] true) ∧
      (f old = none → s.RamKept t ∧
        s.Accesses t rd (result old) [s.event 0 .read .ram addr.toNat n old aq rl] true) := by
  subst value
  refine ⟨_, State.amo_ram (State.amoCheck_none.mpr
    ⟨open'.1.1, open'.1.2.1, open'.1.2.2.1, open'.2, open'.1.2.2.2⟩), ?_, ?_⟩
  · intro new hn
    simp only [State.atomicRmw, hn]
    refine ⟨State.stores_of_ram wf _ _ _ rfl, State.accesses_end active ?_ ?_ rd _⟩
    · simp [State.ramWrite, State.ramRead, State.record, State.setHart]
      rw [State.hart_of_getElem? (h := { s.hart with events := s.hart.events + 1 })]
      simp [active]
    · have : (s.ramRead .amoRead addr.toNat n aq rl).hart = { s.hart with events := s.hart.events + 1 } :=
        State.hart_of_getElem? _ (by simp [State.ramRead, State.record, State.setHart, active])
      simp only [State.ramWrite, State.record, this]
      simp [State.ramRead, State.record, State.event, State.setHart]
  · intro hn
    simp only [State.atomicRmw, hn]
    exact ⟨fun _ => rfl, State.accesses_end active rfl rfl rd _⟩

/-! ### CSR writes -/

/-- A CSR write changes no more than its own register's storage (10_state R22-R35). -/
theorem Hart.csrWrite_only {c : Config} {h k : Hart} {r : Csr} {v : Word} (w : h.csrWrite c r v = .ok k) :
    h.OnlyCsr k r := by
  cases r
  case pmpcfg0 =>
    obtain ⟨e, get⟩ := Hart.pmpcfgWrite_ok w
    exact ⟨e, fun i hi => by rw [get, if_neg (by omega)]⟩
  case pmpcfg2 =>
    obtain ⟨e, get⟩ := Hart.pmpcfgWrite_ok w
    exact ⟨e, fun i hi => by rw [get, if_neg (by omega)]⟩
  case pmpaddr i =>
    simp only [Hart.csrWrite, Hart.pmpaddrWrite] at w
    split at w <;> cases w
    · refine ⟨rfl, fun j hj => ?_⟩
      simp only [Fin.getElem_fin, Vector.getElem_set]
      exact if_neg fun e => hj (Fin.ext e.symm)
    · exact ⟨rfl, fun j hj => rfl⟩
  all_goals
    simp only [Hart.csrWrite, Hart.mstatusWrite, Hart.sstatusWrite] at w
    repeat' split at w
    all_goals (cases w <;> rfl)

/-- It leaves pc and the mode. -/
theorem Hart.OnlyCsr.pc_priv {h k : Hart} {r : Csr} (only : h.OnlyCsr k r) : k.pc = h.pc ∧ k.priv = h.priv := by
  cases r <;> simp only [Hart.OnlyCsr] at only <;>
    first
    | (have only := only.1; rw [only]; exact ⟨rfl, rfl⟩)
    | (rw [only]; exact ⟨rfl, rfl⟩)

/-! ### Traps -/

theorem getLsbD_withBit (w : Word) (k : Nat) (b : Bool) (i : Nat) (lt : i < 64) :
    (withBit w k b).getLsbD i = if i = k then b else w.getLsbD i := by
  unfold withBit
  by_cases e : i = k
  · subst e; cases b <;> simp [lt]
  · cases b <;> simp [lt, e] <;> omega

theorem getLsbD_withMpp (w : Word) (p : BitVec 2) (i : Nat) (h11 : i ≠ 11) (h12 : i ≠ 12) :
    (withMpp w p).getLsbD i = w.getLsbD i := by
  unfold withMpp
  by_cases lt : i < 64
  · have mask : (0x1800#64).getLsbD i = false := by
      have := fun k : Fin 64 => (by decide : ∀ k : Fin 64, k.val ≠ 11 → k.val ≠ 12 → (0x1800#64).getLsbD k = false) k
      exact this ⟨i, lt⟩ h11 h12
    have high : (p.setWidth 64 <<< 11).getLsbD i = false := by
      simp only [BitVec.getLsbD_shiftLeft, BitVec.getLsbD_setWidth]
      by_cases lo : i < 11
      · simp [lo]
      · rw [BitVec.getLsbD_of_ge p (i - 11) (by omega)]; simp
    simp only [BitVec.getLsbD_or, BitVec.getLsbD_and, BitVec.getLsbD_not, mask, high, lt]
    simp
  · rw [BitVec.getLsbD_of_ge _ _ (by omega), BitVec.getLsbD_of_ge _ _ (by omega)]

theorem mstatusMie_withMpp (w : Word) (p : BitVec 2) : mstatusMie (withMpp w p) = mstatusMie w :=
  getLsbD_withMpp w p 3 (by decide) (by decide)

theorem mstatusMpie_withMpp (w : Word) (p : BitVec 2) : mstatusMpie (withMpp w p) = mstatusMpie w :=
  getLsbD_withMpp w p 7 (by decide) (by decide)

/-- The bits of mstatus that neither trap entry nor return writes. -/
theorem getLsbD_withMpp_withBit_withBit (w : Word) (p : BitVec 2) (b d : Bool) (k l i : Nat) (hk : i ≠ k) (hl : i ≠ l)
    (h11 : i ≠ 11) (h12 : i ≠ 12) : (withMpp (withBit (withBit w k b) l d) p).getLsbD i = w.getLsbD i := by
  rw [getLsbD_withMpp _ _ _ h11 h12]
  by_cases lt : i < 64
  · rw [getLsbD_withBit _ _ _ _ lt, if_neg hl, getLsbD_withBit _ _ _ _ lt, if_neg hk]
  · rw [BitVec.getLsbD_of_ge _ _ (by omega), BitVec.getLsbD_of_ge _ _ (by omega)]

/-- Trap entry leaves what 60_exceptions R186 says. -/
theorem State.trapEntry_trapped (active : s.Active) (interrupt : Bool) (code : Nat) :
    s.Trapped (s.trapEntry interrupt code) interrupt code := by
  have hart := State.trapEntry_hart active interrupt code
  constructor
  · rw [hart]; rfl
  · rw [hart]; rfl
  · rw [hart]; simp only [trapMstatus, mstatusMpie_withMpp]
    rw [mstatusMpie, withMie, getLsbD_withBit _ _ _ _ (by decide), withMpie, getLsbD_withBit _ _ _ _ (by decide)]
    simp
  · rw [hart]; simp only [trapMstatus, mstatusMie_withMpp]
    rw [mstatusMie, withMie, getLsbD_withBit _ _ _ _ (by decide), if_pos rfl]
  · rw [hart]
    unfold mstatusMpp trapMstatus withMpp
    ext k hk
    have : (0x1800#64).getLsbD (11 + k) = true := by interval_cases k <;> decide
    simp only [BitVec.getElem_extractLsb', BitVec.getLsbD_or, BitVec.getLsbD_and, BitVec.getLsbD_not, this,
      BitVec.getLsbD_shiftLeft]
    simp [show 11 + k < 64 by omega, show k < 64 by omega, BitVec.getLsbD_eq_getElem hk]
  · intro i h3 h7 h11 h12
    rw [hart]
    exact getLsbD_withMpp_withBit_withBit _ _ _ _ _ _ _ h7 h3 h11 h12
  · rw [hart]
  · rw [State.pc_eq, hart]
    simp only [trapTarget, mtvecBase]
    split <;> simp
  · rw [hart]
  · intro k hk; simp [Ne.symm hk]
  · simp [State.nharts]
  · intro x; rfl
  · rfl

theorem State.takeException_trapped (active : s.Active) (c : ExceptionCause) :
    s.Trapped (s.takeException c) false c.code := State.trapEntry_trapped active _ _

theorem State.takeInterrupt_trapped (active : s.Active) (c : InterruptCause) :
    s.Trapped (s.takeInterrupt c) true c.code := State.trapEntry_trapped active _ _

end Sys2Proof.Machine
end

