-- ==== Sys2Proof/Laws/Invariant.lean ====
section
/-! SUPPORT. Each shared operation keeps the hart's and the machine's invariant. -/

namespace Sys2Proof.Machine

/-! ### Bits -/

/-- A value lies within a mask when each of its set bits is one of the mask's. -/
theorem masked_iff {w m : Word} : w &&& ~~~m = 0 ↔ ∀ k, (hk : k < 64) → w[k] = true → m[k] = true := by
  constructor
  · intro h k hk hw
    have bit : (w &&& ~~~m)[k] = (0 : Word)[k] := by rw [h]
    simp only [BitVec.getElem_and, BitVec.getElem_not, hw] at bit
    simpa using bit
  · intro h
    ext k hk
    have := h k hk
    simp
    exact this

/-- A value stays within a mask when one of the mask's bits is set or cleared. -/
theorem withBit_masked {w m : Word} {i : Nat} (b : Bool) (h : w &&& ~~~m = 0) (hi : m.getLsbD i = true) :
    withBit w i b &&& ~~~m = 0 := by
  rw [masked_iff] at h ⊢
  intro k hk
  unfold withBit
  split <;> simp <;> grind

/-- The bits of a masked value are the mask's. -/
theorem and_masked (v m : Word) : v &&& m &&& ~~~m = 0 := by
  rw [masked_iff]
  intro k hk
  simp

theorem masked_of_masked {v m n : Word} (sub : m &&& ~~~n = 0) : v &&& m &&& ~~~n = 0 := by
  rw [masked_iff] at sub ⊢
  intro k hk
  simp
  grind

/-- A value whose masked bits are replaced stays within the larger mask. -/
theorem replace_masked {w v m n : Word} (h : w &&& ~~~n = 0) (sub : m &&& ~~~n = 0) :
    ((w &&& ~~~m) ||| (v &&& m)) &&& ~~~n = 0 := by
  rw [masked_iff] at h sub ⊢
  intro k hk
  simp
  grind

theorem or_masked {w v n : Word} (h : w &&& ~~~n = 0) (h' : v &&& ~~~n = 0) : (w ||| v) &&& ~~~n = 0 := by
  rw [masked_iff] at h h' ⊢
  intro k hk
  simp
  grind

theorem withMpp_masked {c : Config} {w : Word} (p : BitVec 2) (h : w &&& ~~~mstatusMod c = 0) :
    withMpp w p &&& ~~~mstatusMod c = 0 := by
  refine or_masked ?_ ?_
  · rw [masked_iff] at h ⊢
    intro k hk
    simp
    grind
  · unfold mstatusMod; split <;> (revert p; decide)

theorem mstatusMpp_withMpp (w : Word) (p : BitVec 2) : mstatusMpp (withMpp w p) = p := by
  unfold mstatusMpp withMpp
  ext k hk
  have : (0x1800#64).getLsbD (11 + k) = true := by interval_cases k <;> decide
  simp only [BitVec.getElem_extractLsb', BitVec.getLsbD_or, BitVec.getLsbD_and, BitVec.getLsbD_not, this,
    BitVec.getLsbD_shiftLeft]
  simp [show 11 + k < 64 by omega, show k < 64 by omega, BitVec.getLsbD_eq_getElem hk]

theorem mstatusMod_bit (c : Config) : (mstatusMod c).getLsbD 3 = true ∧ (mstatusMod c).getLsbD 7 = true := by
  unfold mstatusMod; split <;> decide

/-! ### Alignment -/

theorem aligned_add_four {a : Word} (h : a.toNat % 4 = 0) : (a + 4).toNat % 4 = 0 := by bv_omega

theorem mtvecBase_aligned (v : Word) : (mtvecBase v).toNat % 4 = 0 := by
  simp only [mtvecBase, BitVec.toNat_shiftLeft, BitVec.toNat_ushiftRight, Nat.shiftLeft_eq]
  omega

theorem trapTarget_aligned (v : Word) (i : Bool) (c : Nat) : (trapTarget v i c).toNat % 4 = 0 := by
  have := mtvecBase_aligned v
  unfold trapTarget
  split
  · simp only [BitVec.toNat_add, BitVec.toNat_ofNat]; omega
  · exact this

theorem low_bits : ∀ k : Fin 64, 2 ≤ k.val → (3#64).getLsbD k = false := by decide

/-- mepc of a trap: the pc of a multiple of 4 keeps every stored bit (10_state R33, 60_exceptions R186). -/
theorem mepc_of_aligned {c : Config} {a : Word} (h : a.toNat % 4 = 0) : (a &&& ~~~1#64) &&& ~~~mepcMask c = 0 := by
  rw [masked_iff]
  intro k hk set'
  have set : a[k] = true := by
    simp only [BitVec.getElem_and, Bool.and_eq_true] at set'
    exact set'.1
  have high : 2 ≤ k := by
    by_contra low
    have : a.toNat.testBit k = true := set
    rw [Nat.testBit_eq_decide_div_mod_eq] at this
    obtain rfl | rfl : k = 0 ∨ k = 1 := by omega
    all_goals simp at this; omega
  unfold mepcMask
  have one : (1#64)[k] = false := by rw [BitVec.getElem_one]; simp; omega
  have three : (3#64)[k] = false := low_bits ⟨k, hk⟩ high
  split
  · exact (BitVec.getElem_not ..).trans (congrArg (! ·) one)
  · exact (BitVec.getElem_not ..).trans (congrArg (! ·) three)

/-! ### The causes a trap writes -/

theorem exceptionCause_legal (c : ExceptionCause) : mcauseLegal (trapCause false c.code) = true := by
  cases c <;> decide

theorem interruptCause_legal (c : InterruptCause) : mcauseLegal (trapCause true c.code) = true := by
  cases c <;> decide

/-! ### The hart's invariant -/

/-- A trap keeps the invariant (60_exceptions R186). -/
theorem Hart.Inv.trap {c : Config} {h : Hart} (inv : h.Inv c) {i : Bool} {code : Nat}
    (legal : mcauseLegal (trapCause i code) = true) :
    Hart.Inv c { h with
      mepc := h.pc &&& ~~~1#64
      mcause := trapCause i code
      mstatus := trapMstatus h.mstatus h.priv
      priv := .machine
      pc := trapTarget h.mtvec i code } :=
  { inv with
    pcAligned := trapTarget_aligned _ _ _
    machineMode := rfl
    mstatusBits := withMpp_masked _ (withBit_masked _ (withBit_masked _ inv.mstatusBits (mstatusMod_bit c).2)
      (mstatusMod_bit c).1)
    mppLegal := by
      simp only [trapMstatus, mstatusMpp_withMpp]
      cases h.priv <;> decide
    mepcBits := mepc_of_aligned inv.pcAligned
    mcauseIsLegal := .inl legal }

/-- A trap return keeps the invariant (44_system R174). -/
theorem Hart.Inv.trapReturn {c : Config} {h : Hart} (inv : h.Inv c) (aligned : h.mepc.toNat % 4 = 0) :
    Hart.Inv c { h with mstatus := returnMstatus h.mstatus, priv := .machine, pc := h.mepc } :=
  { inv with
    pcAligned := aligned
    machineMode := rfl
    mstatusBits := withMpp_masked _ (withBit_masked _ (withBit_masked _ inv.mstatusBits (mstatusMod_bit c).1)
      (mstatusMod_bit c).2)
    mppLegal := by
      simp only [returnMstatus, mstatusMpp_withMpp]
      decide }

theorem Hart.Inv.withPc {c : Config} {h : Hart} (inv : h.Inv c) {a : Word} (aligned : a.toNat % 4 = 0) :
    Hart.Inv c { h with pc := a } := { inv with pcAligned := aligned }

theorem Hart.Inv.setReg {c : Config} {h : Hart} (inv : h.Inv c) (r : Reg) (v : Word) : (h.setReg r v).Inv c := by
  rw [Hart.setReg_fields]
  exact { inv with }

theorem Hart.Inv.withEvents {c : Config} {h : Hart} (inv : h.Inv c) (n : Nat) : Hart.Inv c { h with events := n } :=
  { inv with }

theorem Hart.Inv.withExited {c : Config} {h : Hart} (inv : h.Inv c) : Hart.Inv c { h with exited := true } :=
  { inv with }

theorem Hart.Inv.withMtipSeen {c : Config} {h : Hart} (inv : h.Inv c) (b : Bool) :
    Hart.Inv c { h with mtipSeen := b } := { inv with }

theorem Hart.Inv.drive {c : Config} {h : Hart} (inv : h.Inv c) (l : ExtLine) (b : Bool) : (h.drive l b).Inv c := by
  cases l <;> exact { inv with }

/-- A configuration byte is stored with bits 6:5 at 0 (10_state R30). -/
theorem pmpStored_reserved (b : Byte) : pmpStored b &&& 0x60 = 0 := by
  unfold pmpStored
  rw [BitVec.and_assoc]
  simp

/-- The bytes of a PMP configuration write keep bits 6:5 at 0. -/
theorem pmpcfg_fold {open' : Nat → Bool} {v : Nat → Byte} (ks : List Nat) {first : Nat} {cfg : Vector Byte 16}
    (h : ∀ i : Fin 16, cfg[i] &&& 0x60 = 0) (i : Fin 16) :
    (ks.foldl (fun cfg k => if open' k then cfg.setIfInBounds (first + k) (pmpStored (v k)) else cfg) cfg)[i] &&& 0x60
      = 0 := by
  induction ks generalizing cfg with
  | nil => exact h i
  | cons k ks ih =>
    refine ih fun j => ?_
    dsimp only
    split
    · have hj := h j
      have := pmpStored_reserved (v k)
      simp only [Fin.getElem_fin] at hj ⊢
      rw [Vector.getElem_setIfInBounds]
      split <;> assumption
    · exact h j

theorem mipSwMask_sip (c : Config) (h : Hart) : h.sipWritable c &&& ~~~mipSwMask c = 0 := by
  unfold Hart.sipWritable
  apply masked_of_masked
  unfold mipSwMask
  split <;> decide

/-- A CSR write keeps the invariant (10_state R22-R34; 40_register_interface R103). -/
theorem Hart.Inv.csrWrite {c : Config} {h k : Hart} (inv : h.Inv c) {r : Csr} {v : Word}
    (w : h.csrWrite c r v = .ok k) : k.Inv c := by
  have status {v : Word} {k : Hart} (w : h.mstatusWrite c v = .ok k) : k.Inv c := by
    unfold Hart.mstatusWrite at w
    split at w
    · cases w
    · split at w
      · cases w
      · next legal =>
        cases w
        refine { inv with mstatusBits := and_masked _ _, mppLegal := ?_ }
        have : mstatusMpp (v &&& mstatusMod c) = mstatusMpp v := by
          unfold mstatusMpp mstatusMod
          ext i hi
          have : ∀ u, ((0x19AA#64) ||| u).getLsbD (11 + i) = true := by
            intro u
            have : (0x19AA#64).getLsbD (11 + i) = true := by interval_cases i <;> decide
            simp [this]
          simp_all
        rw [this]
        exact legal
  cases r with
  | mstatus => exact status w
  | sstatus => exact status w
  | mie => cases w; exact { inv with mieBits := and_masked _ _ }
  | sie =>
    cases w
    exact { inv with mieBits := replace_masked inv.mieBits (and_masked _ _) }
  | mip => cases w; exact { inv with mipBits := and_masked _ _ }
  | sip => cases w; exact { inv with mipBits := replace_masked inv.mipBits (mipSwMask_sip c h) }
  | satp =>
    cases w
    split
    · next legal => exact { inv with satpLegal := legal }
    · exact inv
  | medeleg => cases w; exact { inv with medelegBits := and_masked _ _ }
  | mideleg => cases w; exact { inv with midelegBits := and_masked _ _ }
  | pmpcfg0 =>
    simp only [Hart.csrWrite, Hart.pmpcfgWrite] at w
    split at w
    · cases w
    · cases w; exact { inv with pmpReservedZero := pmpcfg_fold _ inv.pmpReservedZero }
  | pmpcfg2 =>
    simp only [Hart.csrWrite, Hart.pmpcfgWrite] at w
    split at w
    · cases w
    · cases w; exact { inv with pmpReservedZero := pmpcfg_fold _ inv.pmpReservedZero }
  | pmpaddr i =>
    cases w
    unfold Hart.pmpaddrWrite
    split
    · refine { inv with pmpaddrBits := fun j => ?_ }
      have := inv.pmpaddrBits j
      simp only [Fin.getElem_fin] at this ⊢
      rw [Vector.getElem_set]
      split
      · exact and_masked _ _
      · exact this
    · exact inv
  | mscratch => cases w; exact { inv with }
  | mtvec =>
    simp only [Hart.csrWrite] at w
    split at w
    · next legal => cases w; exact { inv with mtvecIsLegal := legal }
    · cases w
  | mepc => cases w; exact { inv with mepcBits := and_masked _ _ }
  | mcause =>
    simp only [Hart.csrWrite] at w
    split at w
    · next legal => cases w; exact { inv with mcauseIsLegal := .inl legal }
    · cases w
  | mhartid => cases w; exact inv

/-! ### The machine's invariant, operation by operation -/

variable {s t : State}

/-- The executing hart satisfies its invariant. -/
theorem State.Inv.hart (inv : s.Inv) : s.hart.Inv s.cfg :=
  inv.harts _ (List.mem_of_getElem? (State.getElem?_cur s inv.active))

theorem State.Inv.setHart (inv : s.Inv) {k : Hart} (hk : k.Inv s.cfg) : (s.setHart k).Inv where
  ramWf := inv.ramWf
  ramInside := inv.ramInside
  slots := by simpa using inv.slots
  active := by simpa using inv.active
  harts := by
    intro h hh
    rcases List.mem_or_eq_of_mem_set hh with hh | rfl
    · exact inv.harts h hh
    · exact hk

theorem State.Inv.withHistory (inv : s.Inv) (H : List Event) : State.Inv { s with history := H } :=
  { ramWf := inv.ramWf, ramInside := inv.ramInside, slots := inv.slots, active := inv.active, harts := inv.harts }

theorem State.Inv.withOracle (inv : s.Inv) (o : List (Option Word)) : State.Inv { s with oracle := o } :=
  { ramWf := inv.ramWf, ramInside := inv.ramInside, slots := inv.slots, active := inv.active, harts := inv.harts }

theorem State.Inv.withDraws (inv : s.Inv) (o : Nat) : State.Inv { s with draws := o } :=
  { ramWf := inv.ramWf, ramInside := inv.ramInside, slots := inv.slots, active := inv.active, harts := inv.harts }

theorem State.Inv.withTurn (inv : s.Inv) (a : List Move) (r : Move) : State.Inv { s with agenda := a, rota := r } :=
  { ramWf := inv.ramWf, ramInside := inv.ramInside, slots := inv.slots, active := inv.active, harts := inv.harts }

theorem State.Inv.trap (inv : s.Inv) {i : Bool} {c : Nat} (l : mcauseLegal (trapCause i c) = true) :
    (s.trapEntry i c).Inv :=
  inv.setHart (inv.hart.trap l)

theorem State.Inv.raise (inv : s.Inv) (c : ExceptionCause) : (s.takeException c).Inv := inv.trap (exceptionCause_legal c)

theorem State.Inv.setReg (inv : s.Inv) (r : Reg) (v : Word) : (s.setReg r v).Inv := inv.setHart (inv.hart.setReg r v)

theorem State.Inv.setPc (inv : s.Inv) {v : Word} (h : v.toNat % 4 = 0) : (s.setPc v).Inv :=
  inv.setHart (inv.hart.withPc h)

theorem State.Inv.advance (inv : s.Inv) : s.advance.Inv :=
  inv.setPc (aligned_add_four inv.hart.pcAligned)

theorem State.Inv.record (inv : s.Inv) (k : EventKind) (sp : Space) (a n : Nat) (v : Word) (aq rl : Bool) :
    (s.record k sp a n v aq rl).Inv :=
  (inv.setHart (inv.hart.withEvents _)).withHistory _

theorem State.Inv.ramRead (inv : s.Inv) (k : EventKind) (a n : Nat) (aq rl : Bool) :
    (s.ramRead k a n aq rl).Inv :=
  (inv.record _ _ _ _ _ _ _).withOracle _

theorem State.Inv.ramWrite (inv : s.Inv) (k : EventKind) (a n : Nat) (v : Word) (aq rl : Bool) (h : s.inRam a n = true) :
    (s.ramWrite k a n v aq rl).Inv :=
  let r := (inv.record k .ram a n (truncateBytes n v) aq rl)
  { ramWf := Memory.writeBytes_wf inv.ramWf _ _ _
    ramInside := by
      intro c hc
      rcases Memory.mem_writeBytes hc with hc | hc
      · exact inv.ramInside c hc
      · simp only [State.inRam, Bool.and_eq_true, decide_eq_true_eq] at h ⊢
        exact ⟨le_trans h.1 hc.1, le_trans hc.2 h.2⟩
    slots := r.slots, active := r.active, harts := r.harts }

theorem State.Inv.stop (inv : s.Inv) {e} (h : s.stop e = .next t) : t.Inv := by
  rcases State.stop_next h with ⟨c, -, rfl⟩ | ⟨-, rfl⟩
  · exact inv.raise c
  · exact (inv.withDraws _).raise _

/-- An AMO keeps the invariant (42_atomic_lock R138, R139). -/
theorem State.Inv.amo (inv : s.Inv) {rd addr n f aq rl result} (h : s.amo rd addr n f aq rl result = .next t) :
    t.Inv := by
  rcases State.amo_next h with ⟨-, rfl⟩ | ⟨pass, rfl⟩
  · exact (inv.withDraws _).raise _
  · refine ((State.Inv.setReg ?_ _ _)).advance
    unfold State.atomicRmw
    have := State.amoCheck_none.mp pass
    split
    · exact inv.ramRead _ _ _ _ _
    · exact (inv.ramRead _ _ _ _ _).ramWrite _ _ _ _ _ _ this.2.2.1

/-- A CSR instruction keeps the invariant (40_register_interface R96-R103). -/
theorem State.Inv.csr (inv : s.Inv) {rd n r c} (h : s.csrInstruction rd n r c = .next t) : t.Inv := by
  rcases State.csrInstruction_next h with ⟨rfl, -⟩ | ⟨r, old, -, -, ⟨-, rfl⟩ | ⟨f, k, -, -, w, rfl⟩⟩
  · exact inv.raise _
  · exact (inv.setReg _ _).advance
  · exact ((inv.setHart (inv.hart.csrWrite w)).setReg _ _).advance

/-- A load keeps the invariant. -/
theorem State.Inv.load (inv : s.Inv) {a n v} (h : s.load a n = .ok (v, t)) : t.Inv := by
  rcases State.load_ok h with ⟨-, -, ⟨-, -, -, rfl⟩ | ⟨-, -, -, rfl⟩⟩
  · exact inv.record _ _ _ _ _ _ _
  · exact inv.ramRead _ _ _ _ _

/-- A store keeps the invariant (40_register_interface R117, R118; 41_timer_arming R123). -/
theorem State.Inv.store (inv : s.Inv) {a n v} (h : s.store a n v = .ok t) : t.Inv := by
  rcases State.store_ok h with ⟨-, -, ⟨-, -, u, hu, rfl⟩ | ⟨-, -, hr, rfl⟩⟩
  · obtain ⟨k, -, -, rfl⟩ := State.timerWrite_some hu
    refine State.Inv.record ?_ _ _ _ _ _ _ _
    exact { ramWf := inv.ramWf, ramInside := inv.ramInside, slots := by simpa using inv.slots, active := inv.active,
            harts := inv.harts }
  · exact inv.ramWrite _ _ _ _ _ _ hr

/-- A branch keeps the invariant (43_integer_support R169). -/
theorem State.Inv.branch (inv : s.Inv) {b o} (h : s.branch b o = .next t) : t.Inv := by
  rcases State.branch_next h with ⟨-, rfl⟩ | ⟨-, a, rfl⟩ | ⟨-, -, -, rfl⟩
  · exact inv.advance
  · exact inv.setPc a
  · exact inv.raise _

/-- The mark of a fault or a refusal keeps the invariant. -/
theorem State.Inv.settle (inv : s.Inv) {o : Host.Outcome State Fault Refusal} (h : ∀ t, o = .next t → t.Inv) :
    (s.settle o).Inv := by
  rcases State.settle_cases s o with ⟨t, ho, e⟩ | ⟨f, -, e⟩ | ⟨r, -, e⟩ <;> rw [e]
  · exact h t ho
  · exact { ramWf := inv.ramWf, ramInside := inv.ramInside, slots := inv.slots, active := inv.active, harts := inv.harts }
  · exact { ramWf := inv.ramWf, ramInside := inv.ramInside, slots := inv.slots, active := inv.active, harts := inv.harts }

end Sys2Proof.Machine
end

