-- ==== Sys2Proof/Laws/MemoryModel.lean ====
section
/-! SUPPORT. The laws of executions: the source of a read is one, a write is eventually seen (20_memory R67), and the
step order (R79): what it orders, and which write each of its reads returns. -/

namespace Sys2Proof.Machine

/-! ### Places -/

theorem eventIs_some {E : Events} {i : Nat} {p : Event → Bool} :
    eventIs E i p = true ↔ ∃ e, E i = some e ∧ p e = true := by
  unfold eventIs
  cases E i <;> simp

theorem eventsAre_some {E : Events} {i j : Nat} {p : Event → Event → Bool} :
    eventsAre E i j p = true ↔ ∃ e f, E i = some e ∧ E j = some f ∧ p e f = true := by
  unfold eventsAre
  cases E i <;> cases E j <;> simp

theorem eventIs_mono {E : Events} {i : Nat} {p q : Event → Bool} (h : eventIs E i p = true)
    (pq : ∀ e, p e = true → q e = true) : eventIs E i q = true := by
  obtain ⟨e, he, hp⟩ := eventIs_some.mp h
  exact eventIs_some.mpr ⟨e, he, pq e hp⟩

theorem eventsOf_lt {H : List Event} {i : Nat} {e : Event} (h : eventsOf H i = some e) : i < H.length :=
  (List.getElem?_eq_some_iff.mp h).1

theorem eventIs_lt {H : List Event} {i : Nat} {p : Event → Bool} (h : eventIs (eventsOf H) i p = true) :
    i < H.length := by
  obtain ⟨e, he, -⟩ := eventIs_some.mp h
  exact eventsOf_lt he

theorem eventsAre_lt {H : List Event} {i j : Nat} {p : Event → Event → Bool}
    (h : eventsAre (eventsOf H) i j p = true) : i < H.length ∧ j < H.length := by
  obtain ⟨e, f, he, hf, -⟩ := eventsAre_some.mp h
  exact ⟨eventsOf_lt he, eventsOf_lt hf⟩

theorem eventsOf_append {H : List Event} {e : Event} {i : Nat} (lt : i < H.length) :
    eventsOf (H ++ [e]) i = eventsOf H i := by
  simp [eventsOf, List.getElem?_append_left lt]

theorem eventsOf_last {H : List Event} {e : Event} : eventsOf (H ++ [e]) H.length = some e := by simp [eventsOf]

theorem eventIs_append {H : List Event} {e : Event} {i : Nat} {p : Event → Bool} (lt : i < H.length) :
    eventIs (eventsOf (H ++ [e])) i p = eventIs (eventsOf H) i p := by
  simp [eventIs, eventsOf_append lt]

theorem eventIs_last {H : List Event} {e : Event} {p : Event → Bool} :
    eventIs (eventsOf (H ++ [e])) H.length p = p e := by
  simp [eventIs, eventsOf_last]

theorem poBefore_lt {E : Events} {i j : Nat} (h : poBefore E i j = true) : i < j := by
  simp only [poBefore, Bool.and_eq_true, decide_eq_true_eq] at h
  exact h.1

/-! ### Kinds -/

theorem EventKind.isMem_of_isRead {k : EventKind} (h : k.isRead = true) : k.isMem = true := by simp [EventKind.isMem, h]

theorem EventKind.isMem_of_isWrite {k : EventKind} (h : k.isWrite = true) : k.isMem = true := by
  simp [EventKind.isMem, h]

theorem Event.isMem_of_writesRam {e : Event} {x : Nat} (h : e.writesRam x = true) : e.kind.isMem = true := by
  simp only [Event.writesRam, Bool.and_eq_true] at h
  exact EventKind.isMem_of_isWrite h.1.1

theorem Event.isMem_of_readsRam {e : Event} {x : Nat} (h : e.readsRam x = true) : e.kind.isMem = true := by
  simp only [Event.readsRam, Bool.and_eq_true] at h
  exact EventKind.isMem_of_isRead h.1.1

/-- No event both reads and writes. -/
theorem Event.readsRam_not_writesRam {e : Event} {x y : Nat} (h : e.readsRam x = true) : e.writesRam y = false := by
  simp only [Event.readsRam, Bool.and_eq_true] at h
  cases hk : e.kind <;> simp_all [Event.writesRam, EventKind.isRead, EventKind.isWrite]

theorem isMemAt_of_writesRam {E : Events} {i x : Nat} (h : eventIs E i (fun e => e.writesRam x) = true) :
    isMemAt E i = true := eventIs_mono h fun _ => Event.isMem_of_writesRam

theorem isMemAt_of_readsRam {E : Events} {i x : Nat} (h : eventIs E i (fun e => e.readsRam x) = true) :
    isMemAt E i = true := eventIs_mono h fun _ => Event.isMem_of_readsRam

theorem not_reads_and_writes {E : Events} {i x y : Nat} (h : eventIs E i (fun e => e.readsRam x) = true) :
    eventIs E i (fun e => e.writesRam y) = false := by
  obtain ⟨e, he, hr⟩ := eventIs_some.mp h
  simp [eventIs, he, Event.readsRam_not_writesRam hr]

/-! ### The latest write, and progress -/

theorem IsTotalOrder.asymm {E : Events} {gmo : Order} (h : IsTotalOrder E gmo) {i j : Nat} (ij : gmo i j = true) :
    gmo j i = false := by
  by_contra ji
  have := h.trans i j i ij (by simpa using ji)
  simp [h.irrefl i] at this

/-- There is at most one latest write. -/
theorem IsLatest.unique {E : Events} {gmo : Order} (h : IsTotalOrder E gmo) {p : Nat → Bool} {a b : Option Nat}
    (ha : IsLatest gmo p a) (hb : IsLatest gmo p b) : a = b := by
  cases a with
  | none =>
    cases b with
    | none => rfl
    | some j => simp [IsLatest, ha j] at hb
  | some i =>
    cases b with
    | none => simp [IsLatest, hb i] at ha
    | some j =>
      by_contra ne
      have ij : gmo i j = true := hb.2 i ha.1 (by simpa using ne)
      have ji : gmo j i = true := ha.2 j hb.1 (fun e => ne (by rw [e]))
      simp [h.asymm ij] at ji

/-- Progress (20_memory R67): of a consistent execution's reads of byte `x`, all but finitely many return the write at
`w` or one that is later in `gmo`. So a hart that keeps reading a location eventually sees a write to it (R154). -/
theorem Consistent.eventually_sees {image : Memory} {E : Events} {gmo : Order} (h : Consistent image E gmo) {w x : Nat}
    (write : eventIs E w (fun e => e.writesRam x) = true) :
    ∃ n, ∀ i, n ≤ i → eventIs E i (fun e => e.readsRam x) = true →
      ∃ j, IsSource E gmo i x (some j) ∧ (j = w ∨ gmo w j = true) := by
  obtain ⟨n, hn⟩ := h.progress w
  refine ⟨n, fun i le read => ?_⟩
  have ne : i ≠ w := by
    rintro rfl
    simp [not_reads_and_writes read] at write
  have wi : gmo w i = true := by
    rcases h.order.total i w (isMemAt_of_readsRam read) (isMemAt_of_writesRam write) ne with iw | wi
    · have := hn i iw; omega
    · exact wi
  have cand : candidate E gmo i x w = true := by simp [candidate, write, wi]
  obtain ⟨e, he, hr⟩ := eventIs_some.mp read
  obtain ⟨src, hs, -⟩ := h.loadValues i e x he hr
  cases src with
  | none => simp [hs w] at cand
  | some j => exact ⟨j, hs, (eq_or_ne j w).imp_right fun ne => hs.2 w cand (Ne.symm ne)⟩

/-- An order on a finite history satisfies R67. -/
theorem IsTotalOrder.progress_of_finite {H : List Event} {gmo : Order} (h : IsTotalOrder (eventsOf H) gmo) :
    Progress gmo := fun _ => ⟨H.length, fun j ji => eventIs_lt (h.onMem j _ ji).1⟩

/-! ### The step order -/

/-- The step order orders two events as their steps are. -/
theorem stepOrder_iff {E : Events} {i j : Nat} :
    stepOrder E i j = true ↔ i < j ∧ isMemAt E i = true ∧ isMemAt E j = true := by
  simp [stepOrder, and_assoc]

theorem stepOrder_isTotalOrder (E : Events) : IsTotalOrder E (stepOrder E) where
  onMem _ _ h := (stepOrder_iff.mp h).2
  irrefl i := by simp [stepOrder]
  trans _ _ _ h g := by
    rw [stepOrder_iff] at *
    exact ⟨by omega, h.2.1, g.2.2⟩
  total i j hi hj ne := by
    simp only [stepOrder_iff, hi, hj, and_self, and_true]
    omega

theorem stepOrder_progress (E : Events) : Progress (stepOrder E) := fun i => ⟨i, fun _ h => (stepOrder_iff.mp h).1⟩

/-- The last write to byte `x` before place `i`. -/
def lastWriteBefore (E : Events) (i x : Nat) : Option Nat :=
  ((List.range i).filter fun j => eventIs E j fun e => e.writesRam x).getLast?

/-- What the last write before a place is. -/
theorem lastWriteBefore_some {E : Events} {i x w : Nat} (h : lastWriteBefore E i x = some w) :
    w < i ∧ eventIs E w (fun e => e.writesRam x) = true ∧
      ∀ j, w < j → j < i → eventIs E j (fun e => e.writesRam x) = false := by
  unfold lastWriteBefore at h
  have member := List.mem_of_getLast? h
  simp only [List.mem_filter, List.mem_range] at member
  refine ⟨member.1, member.2, fun j lt ji => ?_⟩
  by_contra hj
  have hm : j ∈ (List.range i).filter fun j => eventIs E j fun e => e.writesRam x := by
    simp only [List.mem_filter, List.mem_range]
    exact ⟨ji, by simpa using hj⟩
  have sorted : ((List.range i).filter fun j => eventIs E j fun e => e.writesRam x).Pairwise (· < ·) :=
    List.pairwise_lt_range.filter _
  generalize hl : (List.range i).filter (fun j => eventIs E j fun e => e.writesRam x) = l at *
  obtain ⟨init, rfl⟩ : ∃ init, l = init ++ [w] := by
    rcases List.eq_nil_or_concat l with rfl | ⟨init, last, rfl⟩
    · simp at h
    · simp at h; exact ⟨init, by simp [h]⟩
  rcases List.mem_append.mp hm with hm | hm
  · have := (List.pairwise_append.mp sorted).2.2 j hm w (by simp)
    omega
  · simp at hm; omega

theorem lastWriteBefore_none {E : Events} {i x : Nat} (h : lastWriteBefore E i x = none) (j : Nat) (lt : j < i) :
    eventIs E j (fun e => e.writesRam x) = false := by
  unfold lastWriteBefore at h
  simp only [List.getLast?_eq_none_iff, List.filter_eq_nil_iff, List.mem_range] at h
  simpa using h j lt

/-- The last write before a place is the latest of the writes before it in step order. -/
theorem isLatest_lastWriteBefore {E : Events} {i x : Nat} {p : Nat → Bool}
    (hp : ∀ j, p j = true ↔ eventIs E j (fun e => e.writesRam x) = true ∧ j < i) :
    IsLatest (stepOrder E) p (lastWriteBefore E i x) := by
  cases h : lastWriteBefore E i x with
  | none =>
    intro k
    by_contra hk
    obtain ⟨w, lt⟩ := (hp k).mp (by simpa using hk)
    simp [lastWriteBefore_none h k lt] at w
  | some w =>
    obtain ⟨lt, hw, between⟩ := lastWriteBefore_some h
    refine ⟨(hp w).mpr ⟨hw, lt⟩, fun k hk ne => ?_⟩
    obtain ⟨kw, ki⟩ := (hp k).mp hk
    refine stepOrder_iff.mpr ⟨?_, isMemAt_of_writesRam kw, isMemAt_of_writesRam hw⟩
    by_contra hc
    simp [between k (by omega) ki] at kw

/-- With the step order, a read returns the last write before it (20_memory R65, R79). -/
theorem isSource_stepOrder {E : Events} {i x : Nat} (read : eventIs E i (fun e => e.readsRam x) = true) :
    IsSource E (stepOrder E) i x (lastWriteBefore E i x) := by
  refine isLatest_lastWriteBefore fun j => ?_
  simp only [candidate, Bool.and_eq_true, Bool.or_eq_true, stepOrder_iff]
  refine and_congr_right fun w => ?_
  exact ⟨fun h => h.elim (fun h => h.1) poBefore_lt,
    fun lt => .inl ⟨lt, isMemAt_of_writesRam w, isMemAt_of_readsRam read⟩⟩

/-- The last write to byte `x` of a history, if there is one. -/
def lastWrite (H : List Event) (x : Nat) : Option Nat := lastWriteBefore (eventsOf H) H.length x

/-- The byte the final observation reads under the step order. -/
theorem isFinalByte_stepOrder {image : Memory} {H : List Event} {x : Nat} {b : Byte} :
    IsFinalByte image (eventsOf H) (stepOrder (eventsOf H)) x b ↔
      b = sourceByte image (eventsOf H) (lastWrite H x) x := by
  have latest : IsLatest (stepOrder (eventsOf H)) (fun j => eventIs (eventsOf H) j fun e => e.writesRam x)
      (lastWrite H x) :=
    isLatest_lastWriteBefore fun j => ⟨fun h => ⟨h, eventIs_lt h⟩, fun h => h.1⟩
  constructor
  · rintro ⟨src, hs, rfl⟩
    rw [IsLatest.unique (stepOrder_isTotalOrder _) hs latest]
  · exact fun h => ⟨_, latest, h⟩

/-- A later event does not change which write came last before an earlier place. -/
theorem lastWriteBefore_append {H : List Event} {e : Event} {i x : Nat} (le : i ≤ H.length) :
    lastWriteBefore (eventsOf (H ++ [e])) i x = lastWriteBefore (eventsOf H) i x := by
  unfold lastWriteBefore
  congr 1
  refine List.filter_congr fun j hj => ?_
  exact eventIs_append (by have := List.mem_range.mp hj; omega)

/-- The last write of a history that gains an event. -/
theorem lastWrite_append (H : List Event) (e : Event) (x : Nat) :
    lastWrite (H ++ [e]) x = if e.writesRam x then some H.length else lastWrite H x := by
  rw [lastWrite, lastWrite, ← lastWriteBefore_append (H := H) (e := e) (le_refl _)]
  unfold lastWriteBefore
  simp only [List.length_append, List.length_singleton, List.range_succ, List.filter_append]
  have : eventIs (eventsOf (H ++ [e])) H.length (fun f => f.writesRam x) = e.writesRam x := eventIs_last
  by_cases w : e.writesRam x <;> simp [this, w]

/-- A source among the earlier events gives the same byte when an event is appended. -/
theorem sourceByte_append {image : Memory} {H : List Event} {e : Event} {src : Option Nat} {x : Nat}
    (early : ∀ j, src = some j → j < H.length) :
    sourceByte image (eventsOf (H ++ [e])) src x = sourceByte image (eventsOf H) src x := by
  cases src with
  | none => rfl
  | some j => simp [sourceByte, eventsOf_append (early j rfl)]

theorem sourceByte_lastWrite_append (image : Memory) (H : List Event) (e : Event) (x : Nat) :
    sourceByte image (eventsOf (H ++ [e])) (lastWrite (H ++ [e]) x) x =
      if e.writesRam x then e.byteAt x else sourceByte image (eventsOf H) (lastWrite H x) x := by
  rw [lastWrite_append]
  split
  · simp [sourceByte, eventsOf_last]
  · exact sourceByte_append fun j hj => (lastWriteBefore_some hj).1

/-! ### Values byte by byte -/

/-- Byte `x` of the value an access of RAM reads is the byte at `x` (20_memory R43, R80). -/
theorem readBytes_byte (m : Memory) {a n x : Nat} (small : n ≤ 8) (lo : a ≤ x) (hi : x < a + n) :
    ((m.readBytes a n) >>> (8 * (x - a))).setWidth 8 = m.read x := by
  ext i hi8
  simp only [BitVec.getElem_setWidth, BitVec.getLsbD_ushiftRight]
  rw [Memory.getLsbD_readBytes _ _ _ _ small]
  have h1 : (8 * (x - a) + i) / 8 = x - a := by omega
  have h2 : (8 * (x - a) + i) % 8 = i := by omega
  rw [h1, h2, show a + (x - a) = x by omega]
  simp [show 8 * (x - a) + i < 8 * n by omega, BitVec.getLsbD_eq_getElem hi8]

/-- Cutting a value to the width of an access keeps the access's bytes. -/
theorem truncateBytes_byte {n k : Nat} (v : Word) (width : n = 4 ∨ n = 8) (lt : k < n) :
    ((truncateBytes n v) >>> (8 * k)).setWidth 8 = (v >>> (8 * k)).setWidth 8 := by
  rcases width with rfl | rfl
  · ext i hi
    have : 8 * k + i < 32 := by omega
    simp [truncateBytes, lowWord, this]
    omega
  · rfl

end Sys2Proof.Machine
end

