-- ==== Sys2Proof/Laws/Litmus.lean ====
section
/-! SUPPORT. The consistency of a concrete finite history as a Boolean check that Lean's kernel evaluates, and that the
check and `Consistent` agree. The tests decide litmus histories with it. -/

namespace Sys2Proof.Machine

/-! ### Global memory orders of a finite history as lists -/

/-- The places of a history's memory events, in step order. -/
def memPlaces (H : List Event) : List Nat := (List.range H.length).filter (isMemAt (eventsOf H))

theorem mem_memPlaces {H : List Event} {i : Nat} : i ∈ memPlaces H ↔ isMemAt (eventsOf H) i = true := by
  simp only [memPlaces, List.mem_filter, List.mem_range]
  exact ⟨fun h => h.2, fun h => ⟨eventIs_lt h, h⟩⟩

theorem memPlaces_nodup (H : List Event) : (memPlaces H).Nodup := List.nodup_range.filter _

/-- A list names each memory event of a history once. -/
structure Lists (H : List Event) (l : List Nat) : Prop where
  nodup : l.Nodup
  mem : ∀ i, i ∈ l ↔ isMemAt (eventsOf H) i = true

theorem listOrder_iff {l : List Nat} {i j : Nat} :
    listOrder l i j = true ↔ i ∈ l ∧ j ∈ l ∧ l.idxOf i < l.idxOf j := by
  simp [listOrder, and_assoc]

theorem idxOf_inj {l : List Nat} {i j : Nat} (hi : i ∈ l) (e : l.idxOf i = l.idxOf j) : i = j :=
  (List.idxOf_inj hi).mp e

theorem Lists.isTotalOrder {H : List Event} {l : List Nat} (h : Lists H l) :
    IsTotalOrder (eventsOf H) (listOrder l) where
  onMem i j ij := by
    rw [listOrder_iff] at ij
    exact ⟨(h.mem i).mp ij.1, (h.mem j).mp ij.2.1⟩
  irrefl i := by simp [listOrder]
  trans i j k ij jk := by
    rw [listOrder_iff] at *
    exact ⟨ij.1, jk.2.1, by omega⟩
  total i j hi hj ne := by
    have hi := (h.mem i).mpr hi
    have hj := (h.mem j).mpr hj
    simp only [listOrder_iff, hi, hj, true_and]
    have : l.idxOf i ≠ l.idxOf j := fun e => ne (idxOf_inj hi e)
    omega

/-- In a list that rises by an order the places of two members are in their order. -/
theorem idxOf_lt_of_pairwise {l : List Nat} {R : Order} (asymm : ∀ i j, R i j = true → R j i = false)
    (sorted : l.Pairwise fun i j => R i j = true) {i j : Nat} (hi : i ∈ l) (hj : j ∈ l) :
    l.idxOf i < l.idxOf j ↔ R i j = true := by
  have irrefl : ∀ i, R i i = false := fun i => by
    by_contra h
    have := asymm i i (by simpa using h)
    simp_all
  induction l with
  | nil => simp at hi
  | cons a l ih =>
    obtain ⟨first, sorted'⟩ := List.pairwise_cons.mp sorted
    by_cases ia : i = a
    · subst ia
      by_cases ja : j = i
      · subst ja; simp [irrefl]
      · have : j ∈ l := by simpa [ja] using hj
        simp [List.idxOf_cons_ne _ (Ne.symm ja), first j this]
    · have il : i ∈ l := by simpa [ia] using hi
      by_cases ja : j = a
      · subst ja
        simp [asymm _ _ (first i il)]
      · have jl : j ∈ l := by simpa [ja] using hj
        simp [List.idxOf_cons_ne _ (Ne.symm ia), List.idxOf_cons_ne _ (Ne.symm ja), ih sorted' il jl]

/-- A total order of the memory events puts any of them in a rising list. -/
theorem IsTotalOrder.sort {E : Events} {gmo : Order} (h : IsTotalOrder E gmo) {l : List Nat} (nodup : l.Nodup)
    (mem : ∀ i ∈ l, isMemAt E i = true) : ∃ s : List Nat, s.Perm l ∧ s.Pairwise fun i j => gmo i j = true := by
  induction l with
  | nil => exact ⟨[], List.Perm.refl _, List.Pairwise.nil⟩
  | cons a l ih =>
    obtain ⟨na, nodup⟩ := List.nodup_cons.mp nodup
    obtain ⟨s, perm, sorted⟩ := ih nodup fun i hi => mem i (List.mem_cons_of_mem _ hi)
    have after : ∀ c ∈ s.filter (fun b => !gmo b a), gmo a c = true := by
      intro c hc
      obtain ⟨cs, nc⟩ := List.mem_filter.mp hc
      have cl := perm.mem_iff.mp cs
      have ne : a ≠ c := fun e => na (e ▸ cl)
      exact (h.total a c (mem a (by simp)) (mem c (by simp [cl])) ne).resolve_right (by simpa using nc)
    refine ⟨s.filter (fun b => gmo b a) ++ a :: s.filter (fun b => !gmo b a), ?_, ?_⟩
    · exact List.perm_middle.trans (((List.filter_append_perm (fun b => gmo b a) s).trans perm).cons a)
    · refine List.pairwise_append.mpr ⟨sorted.filter _, List.pairwise_cons.mpr ⟨after, sorted.filter _⟩, ?_⟩
      intro b hb c hc
      have ba : gmo b a = true := (List.mem_filter.mp hb).2
      rcases List.mem_cons.mp hc with rfl | hc
      · exact ba
      · exact h.trans b a c ba (after c hc)

/-- A total order on a finite history's memory events is the order of a list of their places. -/
theorem IsTotalOrder.exists_list {H : List Event} {gmo : Order} (h : IsTotalOrder (eventsOf H) gmo) :
    ∃ l ∈ (memPlaces H).permutations', Lists H l ∧ gmo = listOrder l := by
  obtain ⟨l, perm, sorted⟩ := h.sort (memPlaces_nodup H) fun i hi => mem_memPlaces.mp hi
  have lists : Lists H l :=
    ⟨perm.nodup_iff.mpr (memPlaces_nodup H), fun i => perm.mem_iff.trans mem_memPlaces⟩
  refine ⟨l, List.mem_permutations'.mpr perm, lists, ?_⟩
  funext i j
  rw [Bool.eq_iff_iff, listOrder_iff]
  constructor
  · intro ij
    obtain ⟨hi, hj⟩ := h.onMem i j ij
    exact ⟨(lists.mem i).mpr hi, (lists.mem j).mpr hj,
      (idxOf_lt_of_pairwise (fun _ _ => h.asymm) sorted ((lists.mem i).mpr hi) ((lists.mem j).mpr hj)).mpr ij⟩
  · rintro ⟨hi, hj, lt⟩
    exact (idxOf_lt_of_pairwise (fun _ _ => h.asymm) sorted hi hj).mp lt

/-- The write that byte `x` of the read at `i` returns under the order of a list. -/
def sourceOf (H : List Event) (l : List Nat) (i x : Nat) : Option Nat :=
  (l.filter (candidate (eventsOf H) (listOrder l) i x)).getLast?

theorem pairwise_listOrder {l : List Nat} (nodup : l.Nodup) : l.Pairwise fun i j => listOrder l i j = true := by
  rw [List.pairwise_iff_getElem]
  intro i j hi hj lt
  simp [listOrder_iff, nodup.idxOf_getElem, lt]

theorem Lists.isSource {H : List Event} {l : List Nat} (h : Lists H l) (i x : Nat) :
    IsSource (eventsOf H) (listOrder l) i x (sourceOf H l i x) := by
  have member : ∀ k, candidate (eventsOf H) (listOrder l) i x k = true →
      k ∈ l.filter (candidate (eventsOf H) (listOrder l) i x) := by
    intro k hk
    refine List.mem_filter.mpr ⟨(h.mem k).mpr ?_, hk⟩
    simp only [candidate, Bool.and_eq_true] at hk
    exact isMemAt_of_writesRam hk.1
  cases s : sourceOf H l i x with
  | none =>
    intro k
    by_contra hk
    have := member k (by simpa using hk)
    rw [List.getLast?_eq_none_iff.mp s] at this
    simp at this
  | some w =>
    have hw := List.mem_of_getLast? s
    refine ⟨(List.mem_filter.mp hw).2, fun k hk ne => ?_⟩
    have sorted := (pairwise_listOrder h.nodup).filter (candidate (eventsOf H) (listOrder l) i x)
    have hk := member k hk
    unfold sourceOf at s
    generalize l.filter (candidate (eventsOf H) (listOrder l) i x) = m at *
    obtain ⟨init, rfl⟩ : ∃ init, m = init ++ [w] := by
      rcases List.eq_nil_or_concat m with rfl | ⟨init, last, rfl⟩
      · simp at s
      · simp at s; exact ⟨init, by simp [s]⟩
    rcases List.mem_append.mp hk with hk | hk
    · exact (List.pairwise_append.mp sorted).2.2 k hk w (by simp)
    · simp at hk; exact absurd hk ne

theorem Lists.isSource_iff {H : List Event} {l : List Nat} (h : Lists H l) {i x : Nat} {src : Option Nat} :
    IsSource (eventsOf H) (listOrder l) i x src ↔ src = sourceOf H l i x :=
  ⟨fun hs => IsLatest.unique h.isTotalOrder hs (h.isSource i x), fun e => e ▸ h.isSource i x⟩

/-! ### The check -/

/-- The bytes an event's access covers. -/
def Event.bytes (e : Event) : List Nat := (List.range e.size).map (e.addr + ·)

/-- The bytes of the event at a place. -/
def bytesAt (H : List Event) (i : Nat) : List Nat := (H[i]?).elim [] Event.bytes

theorem Event.mem_bytes {e : Event} {x : Nat} : x ∈ e.bytes ↔ e.covers x = true := by
  simp only [Event.bytes, List.mem_map, List.mem_range, Event.covers, Bool.and_eq_true, decide_eq_true_eq]
  constructor
  · rintro ⟨k, lt, rfl⟩; omega
  · rintro ⟨lo, hi⟩; exact ⟨x - e.addr, by omega, by omega⟩

theorem mem_bytesAt {H : List Event} {i x : Nat} :
    x ∈ bytesAt H i ↔ eventIs (eventsOf H) i (fun e => e.covers x) = true := by
  unfold bytesAt eventIs eventsOf
  cases H[i]? <;> simp [Event.mem_bytes]

theorem covers_of_readsRam {e : Event} {x : Nat} (h : e.readsRam x = true) : e.covers x = true := by
  simp only [Event.readsRam, Bool.and_eq_true] at h; exact h.2

/-- Preserved program order of two places, evaluated. -/
def ppoHolds (H : List Event) (l : List Nat) (i j : Nat) : Bool :=
  let E := eventsOf H
  poBefore E i j && eventsAre E i j (fun e f => e.kind.isMem && f.kind.isMem) &&
    (eventsAre E i j (fun e f => f.kind.isWrite && e.overlaps f) ||
      (bytesAt H i).any (fun x => eventIs E i (fun e => e.readsRam x) && eventIs E j (fun f => f.readsRam x) &&
        (List.range H.length).all (fun k =>
          !(poBefore E i k && poBefore E k j && eventIs E k (fun e => e.writesRam x))) &&
        sourceOf H l i x != sourceOf H l j x) ||
      (eventIs E i (fun e => e.kind == .amoWrite) &&
        (bytesAt H j).any fun x => eventIs E j (fun f => f.readsRam x) && sourceOf H l j x == some i) ||
      (List.range H.length).any (fun k => poBefore E i k && poBefore E k j &&
        eventIs E k (fun g => eventsAre E i j fun e f => fenceOrders e g f)) ||
      eventIs E i (fun e => e.aq) || eventIs E j (fun f => f.rl) ||
      eventsAre E i j (fun e f => e.annotated && f.annotated))

theorem Lists.ppo_iff {H : List Event} {l : List Nat} (h : Lists H l) {i j : Nat} :
    ppo (eventsOf H) (listOrder l) i j ↔ ppoHolds H l i j = true := by
  simp only [ppo, ppoHolds, Bool.and_eq_true, Bool.or_eq_true, and_assoc, or_assoc]
  refine and_congr_right fun _ => and_congr_right fun _ => ?_
  refine or_congr Iff.rfl (or_congr ?_ (or_congr ?_ (or_congr ?_ Iff.rfl)))
  · simp only [ppo2, h.isSource_iff, List.any_eq_true, List.all_eq_true, List.mem_range, Bool.and_eq_true,
      Bool.not_eq_true', bne_iff_ne, ne_eq, and_assoc]
    constructor
    · rintro ⟨x, hi, hj, hk, v, w, rfl, rfl, hs⟩
      refine ⟨x, mem_bytesAt.mpr (eventIs_mono hi fun e => covers_of_readsRam), hi, hj, fun k _ => ?_, hs⟩
      by_contra hc
      simp only [Bool.not_eq_false, Bool.and_eq_true] at hc
      simp [hk k hc.1.1 hc.1.2] at hc
    · rintro ⟨x, -, hi, hj, hk, hs⟩
      refine ⟨x, hi, hj, fun k a b => ?_, _, _, rfl, rfl, hs⟩
      by_contra hc
      simp only [Bool.not_eq_false] at hc
      have := hk k (eventIs_lt hc)
      simp [a, b, hc] at this
  · simp only [ppo3, h.isSource_iff, List.any_eq_true, Bool.and_eq_true, beq_iff_eq]
    refine and_congr_right fun _ => ⟨?_, ?_⟩
    · rintro ⟨x, hj, hs⟩
      exact ⟨x, mem_bytesAt.mpr (eventIs_mono hj fun e => covers_of_readsRam), hj, hs.symm⟩
    · rintro ⟨x, -, hj, hs⟩; exact ⟨x, hj, hs.symm⟩
  · simp only [ppo4, List.any_eq_true, List.mem_range, Bool.and_eq_true, and_assoc]
    constructor
    · rintro ⟨k, a, b, c⟩; exact ⟨k, eventIs_lt c, a, b, c⟩
    · rintro ⟨k, -, a, b, c⟩; exact ⟨k, a, b, c⟩

/-- `Consistent` of a history and the order of a list that names its memory events, evaluated: every quantifier ranges
over the places of the history or the bytes of an event. -/
def axiomsCheck (image : Memory) (H : List Event) (l : List Nat) : Bool :=
  let E := eventsOf H
  let gmo := listOrder l
  let places := List.range H.length
  places.all (fun i => places.all fun j => !ppoHolds H l i j || gmo i j) &&
    places.all (fun i => (bytesAt H i).all fun x =>
      eventIs E i fun e => !e.readsRam x || e.byteAt x == sourceByte image E (sourceOf H l i x) x) &&
    places.all (fun i => !paired E i (i + 1) || (bytesAt H i).all fun x =>
      match sourceOf H l i x with
      | some w => gmo w (i + 1) && places.all fun k => !(foreignWrite E (i + 1) x k && gmo w k && gmo k (i + 1))
      | none => places.all fun k => !(foreignWrite E (i + 1) x k && gmo k (i + 1))) &&
    places.all (fun i => places.all fun j =>
      !(decide (i < j) &&
        eventsAre E i j (fun e f => e.kind.isMem && f.kind.isMem && e.space == .device && f.space == .device)) ||
      gmo i j)

theorem paired_next {E : Events} {i j : Nat} (h : paired E i j = true) : j = i + 1 := by
  simp only [paired, Bool.and_eq_true, decide_eq_true_eq] at h; exact h.1

theorem poBefore_places {H : List Event} {i j : Nat} (h : poBefore (eventsOf H) i j = true) :
    i < H.length ∧ j < H.length := by
  simp only [poBefore, Bool.and_eq_true] at h; exact eventsAre_lt h.2

theorem Lists.consistent_iff {image : Memory} {H : List Event} {l : List Nat} (h : Lists H l) :
    Consistent image (eventsOf H) (listOrder l) ↔ axiomsCheck image H l = true := by
  have split : Consistent image (eventsOf H) (listOrder l) ↔ GmoKeepsPpo (eventsOf H) (listOrder l) ∧
      LoadValues image (eventsOf H) (listOrder l) ∧ AmosAtomic (eventsOf H) (listOrder l) ∧
      DeviceOrder (eventsOf H) (listOrder l) :=
    ⟨fun h => ⟨h.3, h.4, h.5, h.6⟩,
      fun ⟨b, c, d, e⟩ => ⟨h.isTotalOrder, h.isTotalOrder.progress_of_finite, b, c, d, e⟩⟩
  rw [split]
  simp only [axiomsCheck, Bool.and_eq_true, and_assoc]
  refine and_congr ?_ (and_congr ?_ (and_congr ?_ ?_))
  · simp only [GmoKeepsPpo, List.all_eq_true, List.mem_range, Bool.or_eq_true, Bool.not_eq_true', h.ppo_iff]
    constructor
    · intro h i _ j _
      by_cases p : ppoHolds H l i j = true
      · exact .inr (h i j p)
      · exact .inl (by simpa using p)
    · intro g i j p
      have ⟨a, b⟩ := poBefore_places (h.ppo_iff.mpr p).1
      exact (g i a j b).resolve_left (by simp [p])
  · simp only [LoadValues, List.all_eq_true, List.mem_range, h.isSource_iff, exists_eq_left]
    constructor
    · intro h i lt x hx
      obtain ⟨e, he⟩ : ∃ e, eventsOf H i = some e := ⟨H[i], List.getElem?_eq_getElem lt⟩
      simp only [eventIs, he, Option.any_some, Bool.or_eq_true, Bool.not_eq_true', beq_iff_eq]
      by_cases r : e.readsRam x = true
      · exact .inr (h i e x he r)
      · exact .inl (by simpa using r)
    · intro h i e x he r
      have := h i (eventsOf_lt he) x (mem_bytesAt.mpr (by simp [eventIs, he, covers_of_readsRam r]))
      simp only [eventIs, he, Option.any_some, Bool.or_eq_true, Bool.not_eq_true', beq_iff_eq] at this
      exact this.resolve_left (by simp [r])
  · simp only [AmosAtomic, List.all_eq_true, List.mem_range, Bool.or_eq_true, Bool.not_eq_true', h.isSource_iff]
    have foreign_lt : ∀ {j x k}, foreignWrite (eventsOf H) j x k = true → k < H.length := fun h => (eventsAre_lt h).1
    constructor
    · intro h i _
      by_cases p : paired (eventsOf H) i (i + 1) = true
      · refine .inr fun x hx => ?_
        have := h i (i + 1) x _ p (mem_bytesAt.mp hx) rfl
        cases s : sourceOf H l i x with
        | none =>
          simp only [s, AtomicAt] at this ⊢
          simp only [List.all_eq_true, List.mem_range, Bool.not_eq_true', Bool.and_eq_false_iff]
          intro k _
          by_cases f : foreignWrite (eventsOf H) (i + 1) x k = true
          · exact .inr (this k f)
          · exact .inl (by simpa using f)
        | some w =>
          simp only [s, AtomicAt] at this ⊢
          simp only [Bool.and_eq_true, List.all_eq_true, List.mem_range, Bool.not_eq_true']
          refine ⟨this.1, fun k _ => ?_⟩
          by_contra hc
          simp only [Bool.not_eq_false, Bool.and_eq_true] at hc
          exact this.2 k hc.1.1 ⟨hc.1.2, hc.2⟩
      · exact .inl (by simpa using p)
    · rintro h i j x src p hx rfl
      obtain rfl := paired_next p
      have lt : i < H.length := eventIs_lt hx
      have := (h i lt).resolve_left (by simp [p]) x (mem_bytesAt.mpr hx)
      cases s : sourceOf H l i x with
      | none =>
        simp only [s, List.all_eq_true, List.mem_range, Bool.not_eq_true', Bool.and_eq_false_iff] at this
        exact fun k f => (this k (foreign_lt f)).resolve_left (by simp [f])
      | some w =>
        simp only [s, Bool.and_eq_true, List.all_eq_true, List.mem_range, Bool.not_eq_true'] at this
        refine ⟨this.1, fun k f ⟨a, b⟩ => ?_⟩
        have := this.2 k (foreign_lt f)
        simp [f, a, b] at this
  · simp only [DeviceOrder, List.all_eq_true, List.mem_range]
    constructor
    · intro h i _ j _
      rw [Bool.or_eq_true, Bool.not_eq_true']
      by_contra hc
      rw [not_or, Bool.not_eq_false, Bool.and_eq_true, decide_eq_true_eq] at hc
      exact hc.2 (h i j hc.1.1 hc.1.2)
    · intro h i j lt d
      have ⟨a, b⟩ := eventsAre_lt d
      have := h i a j b
      rw [Bool.or_eq_true, Bool.not_eq_true'] at this
      refine this.resolve_left ?_
      rw [Bool.not_eq_false, Bool.and_eq_true, decide_eq_true_eq]
      exact ⟨lt, d⟩

/-- `Lists`, evaluated. -/
def listsCheck (H : List Event) (l : List Nat) : Bool :=
  decide l.Nodup && l.all (isMemAt (eventsOf H)) &&
    (List.range H.length).all fun i => !isMemAt (eventsOf H) i || l.contains i

theorem lists_of_check {H : List Event} {l : List Nat} (h : listsCheck H l = true) : Lists H l := by
  simp only [listsCheck, Bool.and_eq_true, decide_eq_true_eq, List.all_eq_true, List.mem_range, Bool.or_eq_true,
    Bool.not_eq_true', List.contains_iff_mem] at h
  exact ⟨h.1.1, fun i => ⟨h.1.2 i, fun m => (h.2 i (eventIs_lt m)).resolve_left (by simp [m])⟩⟩

/-- The list names each memory event once, and its order is consistent. -/
theorem consistent_of_check {image : Memory} {H : List Event} {l : List Nat}
    (h : (listsCheck H l && axiomsCheck image H l) = true) : Consistent image (eventsOf H) (listOrder l) := by
  rw [Bool.and_eq_true] at h
  exact (lists_of_check h.1).consistent_iff.mpr h.2

/-- No order makes a history consistent, if none of the orders of its memory events passes the check. -/
theorem inconsistent {image : Memory} {H : List Event}
    (fails : (memPlaces H).permutations'.all (fun l => !axiomsCheck image H l) = true) (gmo : Order) :
    ¬Consistent image (eventsOf H) gmo := by
  intro h
  obtain ⟨l, member, lists, rfl⟩ := h.order.exists_list
  have := List.all_eq_true.mp fails l member
  simp [lists.consistent_iff.mp h] at this

end Sys2Proof.Machine
end

