-- ==== Sys2Proof/Laws/PerInstr.lean ====
section
/-! SUPPORT. The family RowMatch, one lemma for each instruction: the word of a well-formed instruction matches the
instruction's own row of the opcode table, and that row reads the instruction back (30_encoding R82-R90). -/

namespace Sys2Proof.Laws

/-- A row of the table that the instruction's word matches and that builds the instruction from it. -/
def RowMatch.Statement (i : Instr) : Prop :=
  i.wellFormed = true → ∃ r ∈ admittedRows ++ refusedRows, r.hits (encode i) = true ∧ r.build (encode i) = i

/-- A row that hits is one whose fixed bits the word has. -/
theorem hits_of_fixed {r : Row} {w : BitVec 32} (h : w &&& r.mask = r.pattern) : r.hits w = true := by
  simp [Row.hits, h]

/-- The low bits of a 16-bit form stay its low bits in the word. -/
theorem short_fixed {parcel : BitVec 16} {k : BitVec 16} (h : parcel &&& 0x3 = k) :
    parcel.setWidth 32 &&& 0x3 = k.setWidth 32 := by
  rw [← h]
  ext i hi
  simp

theorem fieldRd_of {w : BitVec 32} {r : Reg} (h : w.extractLsb' 7 5 = regBits r) : fieldRd w = r := by
  rw [fieldRd, h, toFin_regBits]

theorem fieldRs1_of {w : BitVec 32} {r : Reg} (h : w.extractLsb' 15 5 = regBits r) : fieldRs1 w = r := by
  rw [fieldRs1, h, toFin_regBits]

theorem fieldRs2_of {w : BitVec 32} {r : Reg} (h : w.extractLsb' 20 5 = regBits r) : fieldRs2 w = r := by
  rw [fieldRs2, h, toFin_regBits]

/-- A well-formed branch's or jump's offset is even. -/
theorem even_of_not {n : Nat} {offset : BitVec n} (h : (!offset.getLsbD 0) = true) : offset.getLsbD 0 = false := by
  simpa using h

theorem RowMatch.csrrw (rd : Reg) (rs1 : Reg) (csr : BitVec 12) : RowMatch.Statement (.csrrw rd rs1 csr) := by
  intro _
  refine ⟨_, List.mem_of_getElem? (i := 0) rfl, hits_of_fixed (encodeI_fixed _ _ _ _ _), ?_⟩
  obtain ⟨h1, h2, h3⟩ := encodeI_fields csr (regBits rs1) 1 rd 115
  exact congr(Instr.csrrw $(fieldRd_of h3) $(fieldRs1_of h2) $h1)

theorem RowMatch.csrrs (rd : Reg) (rs1 : Reg) (csr : BitVec 12) : RowMatch.Statement (.csrrs rd rs1 csr) := by
  intro _
  refine ⟨_, List.mem_of_getElem? (i := 1) rfl, hits_of_fixed (encodeI_fixed _ _ _ _ _), ?_⟩
  obtain ⟨h1, h2, h3⟩ := encodeI_fields csr (regBits rs1) 2 rd 115
  exact congr(Instr.csrrs $(fieldRd_of h3) $(fieldRs1_of h2) $h1)

theorem RowMatch.csrrc (rd : Reg) (rs1 : Reg) (csr : BitVec 12) : RowMatch.Statement (.csrrc rd rs1 csr) := by
  intro _
  refine ⟨_, List.mem_of_getElem? (i := 2) rfl, hits_of_fixed (encodeI_fixed _ _ _ _ _), ?_⟩
  obtain ⟨h1, h2, h3⟩ := encodeI_fields csr (regBits rs1) 3 rd 115
  exact congr(Instr.csrrc $(fieldRd_of h3) $(fieldRs1_of h2) $h1)

theorem RowMatch.csrrwi (rd : Reg) (uimm : BitVec 5) (csr : BitVec 12) : RowMatch.Statement (.csrrwi rd uimm csr) := by
  intro _
  refine ⟨_, List.mem_of_getElem? (i := 3) rfl, hits_of_fixed (encodeI_fixed _ _ _ _ _), ?_⟩
  obtain ⟨h1, h2, h3⟩ := encodeI_fields csr uimm 5 rd 115
  exact congr(Instr.csrrwi $(fieldRd_of h3) $h2 $h1)

theorem RowMatch.csrrsi (rd : Reg) (uimm : BitVec 5) (csr : BitVec 12) : RowMatch.Statement (.csrrsi rd uimm csr) := by
  intro _
  refine ⟨_, List.mem_of_getElem? (i := 4) rfl, hits_of_fixed (encodeI_fixed _ _ _ _ _), ?_⟩
  obtain ⟨h1, h2, h3⟩ := encodeI_fields csr uimm 6 rd 115
  exact congr(Instr.csrrsi $(fieldRd_of h3) $h2 $h1)

theorem RowMatch.csrrci (rd : Reg) (uimm : BitVec 5) (csr : BitVec 12) : RowMatch.Statement (.csrrci rd uimm csr) := by
  intro _
  refine ⟨_, List.mem_of_getElem? (i := 5) rfl, hits_of_fixed (encodeI_fixed _ _ _ _ _), ?_⟩
  obtain ⟨h1, h2, h3⟩ := encodeI_fields csr uimm 7 rd 115
  exact congr(Instr.csrrci $(fieldRd_of h3) $h2 $h1)

theorem RowMatch.lw (rd : Reg) (rs1 : Reg) (imm : BitVec 12) : RowMatch.Statement (.lw rd rs1 imm) := by
  intro _
  refine ⟨_, List.mem_of_getElem? (i := 6) rfl, hits_of_fixed (encodeI_fixed _ _ _ _ _), ?_⟩
  obtain ⟨h1, h2, h3⟩ := encodeI_fields imm (regBits rs1) 2 rd 3
  exact congr(Instr.lw $(fieldRd_of h3) $(fieldRs1_of h2) $h1)

theorem RowMatch.ld (rd : Reg) (rs1 : Reg) (imm : BitVec 12) : RowMatch.Statement (.ld rd rs1 imm) := by
  intro _
  refine ⟨_, List.mem_of_getElem? (i := 7) rfl, hits_of_fixed (encodeI_fixed _ _ _ _ _), ?_⟩
  obtain ⟨h1, h2, h3⟩ := encodeI_fields imm (regBits rs1) 3 rd 3
  exact congr(Instr.ld $(fieldRd_of h3) $(fieldRs1_of h2) $h1)

theorem RowMatch.sw (rs1 : Reg) (rs2 : Reg) (imm : BitVec 12) : RowMatch.Statement (.sw rs1 rs2 imm) := by
  intro _
  refine ⟨_, List.mem_of_getElem? (i := 8) rfl, hits_of_fixed (encodeS_fixed _ _ _ _), ?_⟩
  obtain ⟨h1, h2, h3⟩ := encodeS_fields imm rs2 rs1 2
  exact congr(Instr.sw $(fieldRs1_of h3) $(fieldRs2_of h2) $h1)

theorem RowMatch.sd (rs1 : Reg) (rs2 : Reg) (imm : BitVec 12) : RowMatch.Statement (.sd rs1 rs2 imm) := by
  intro _
  refine ⟨_, List.mem_of_getElem? (i := 9) rfl, hits_of_fixed (encodeS_fixed _ _ _ _), ?_⟩
  obtain ⟨h1, h2, h3⟩ := encodeS_fields imm rs2 rs1 3
  exact congr(Instr.sd $(fieldRs1_of h3) $(fieldRs2_of h2) $h1)

theorem RowMatch.amoswapW (rd : Reg) (rs1 : Reg) (rs2 : Reg) (aq : Bool) (rl : Bool) : RowMatch.Statement (.amoswapW rd rs1 rs2 aq rl) := by
  intro _
  refine ⟨_, List.mem_of_getElem? (i := 10) rfl, hits_of_fixed (encodeAmo_fixed _ _ _ _ _ _ _), ?_⟩
  obtain ⟨h1, h2, h3, h4, h5⟩ := encodeAmo_fields 1 aq rl rs2 rs1 2 rd
  exact congr(Instr.amoswapW $(fieldRd_of h5) $(fieldRs1_of h4) $(fieldRs2_of h3) $h1 $h2)

theorem RowMatch.amoswapD (rd : Reg) (rs1 : Reg) (rs2 : Reg) (aq : Bool) (rl : Bool) : RowMatch.Statement (.amoswapD rd rs1 rs2 aq rl) := by
  intro _
  refine ⟨_, List.mem_of_getElem? (i := 11) rfl, hits_of_fixed (encodeAmo_fixed _ _ _ _ _ _ _), ?_⟩
  obtain ⟨h1, h2, h3, h4, h5⟩ := encodeAmo_fields 1 aq rl rs2 rs1 3 rd
  exact congr(Instr.amoswapD $(fieldRd_of h5) $(fieldRs1_of h4) $(fieldRs2_of h3) $h1 $h2)

theorem RowMatch.amocasW (rd : Reg) (rs1 : Reg) (rs2 : Reg) (aq : Bool) (rl : Bool) : RowMatch.Statement (.amocasW rd rs1 rs2 aq rl) := by
  intro _
  refine ⟨_, List.mem_of_getElem? (i := 12) rfl, hits_of_fixed (encodeAmo_fixed _ _ _ _ _ _ _), ?_⟩
  obtain ⟨h1, h2, h3, h4, h5⟩ := encodeAmo_fields 5 aq rl rs2 rs1 2 rd
  exact congr(Instr.amocasW $(fieldRd_of h5) $(fieldRs1_of h4) $(fieldRs2_of h3) $h1 $h2)

theorem RowMatch.amocasD (rd : Reg) (rs1 : Reg) (rs2 : Reg) (aq : Bool) (rl : Bool) : RowMatch.Statement (.amocasD rd rs1 rs2 aq rl) := by
  intro _
  refine ⟨_, List.mem_of_getElem? (i := 13) rfl, hits_of_fixed (encodeAmo_fixed _ _ _ _ _ _ _), ?_⟩
  obtain ⟨h1, h2, h3, h4, h5⟩ := encodeAmo_fields 5 aq rl rs2 rs1 3 rd
  exact congr(Instr.amocasD $(fieldRd_of h5) $(fieldRs1_of h4) $(fieldRs2_of h3) $h1 $h2)

theorem RowMatch.fence (pred : FenceSet) (succ : FenceSet) (rs1 : Reg) (rd : Reg) : RowMatch.Statement (.fence pred succ rs1 rd) := by
  intro _
  refine ⟨_, List.mem_of_getElem? (i := 14) rfl, hits_of_fixed (encodeFence_fixed _ _ _ _), ?_⟩
  obtain ⟨h1, h2, h3, h4⟩ := encodeFence_fields pred succ rs1 rd
  exact congr(Instr.fence $h1 $h2 $(fieldRs1_of h3) $(fieldRd_of h4))

theorem RowMatch.lui (rd : Reg) (imm : BitVec 20) : RowMatch.Statement (.lui rd imm) := by
  intro _
  refine ⟨_, List.mem_of_getElem? (i := 15) rfl, hits_of_fixed (encodeU_fixed _ _), ?_⟩
  obtain ⟨h1, h2⟩ := encodeU_fields imm rd
  exact congr(Instr.lui $(fieldRd_of h2) $h1)

theorem RowMatch.addi (rd : Reg) (rs1 : Reg) (imm : BitVec 12) : RowMatch.Statement (.addi rd rs1 imm) := by
  intro _
  refine ⟨_, List.mem_of_getElem? (i := 16) rfl, hits_of_fixed (encodeI_fixed _ _ _ _ _), ?_⟩
  obtain ⟨h1, h2, h3⟩ := encodeI_fields imm (regBits rs1) 0 rd 19
  exact congr(Instr.addi $(fieldRd_of h3) $(fieldRs1_of h2) $h1)

theorem RowMatch.andi (rd : Reg) (rs1 : Reg) (imm : BitVec 12) : RowMatch.Statement (.andi rd rs1 imm) := by
  intro _
  refine ⟨_, List.mem_of_getElem? (i := 17) rfl, hits_of_fixed (encodeI_fixed _ _ _ _ _), ?_⟩
  obtain ⟨h1, h2, h3⟩ := encodeI_fields imm (regBits rs1) 7 rd 19
  exact congr(Instr.andi $(fieldRd_of h3) $(fieldRs1_of h2) $h1)

theorem RowMatch.slli (rd : Reg) (rs1 : Reg) (shamt : BitVec 6) : RowMatch.Statement (.slli rd rs1 shamt) := by
  intro _
  refine ⟨_, List.mem_of_getElem? (i := 18) rfl, hits_of_fixed (encodeShift_fixed _ _ _ _ _ _), ?_⟩
  obtain ⟨-, h2, h3⟩ := encodeI_fields (0b000000#6 ++ shamt) (regBits rs1) 1 rd 19
  exact congr(Instr.slli $(fieldRd_of h3) $(fieldRs1_of h2) $(encodeShift_field 0 shamt (regBits rs1) 1 rd 19))

theorem RowMatch.add (rd : Reg) (rs1 : Reg) (rs2 : Reg) : RowMatch.Statement (.add rd rs1 rs2) := by
  intro _
  refine ⟨_, List.mem_of_getElem? (i := 19) rfl, hits_of_fixed (encodeR_fixed _ _ _ _ _ _), ?_⟩
  obtain ⟨h1, h2, h3⟩ := encodeR_fields 0 rs2 rs1 0 rd 51
  exact congr(Instr.add $(fieldRd_of h3) $(fieldRs1_of h2) $(fieldRs2_of h1))

theorem RowMatch.beq (rs1 : Reg) (rs2 : Reg) (offset : BitVec 13) : RowMatch.Statement (.beq rs1 rs2 offset) := by
  intro even
  refine ⟨_, List.mem_of_getElem? (i := 20) rfl, hits_of_fixed (encodeB_fixed _ _ _ _), ?_⟩
  obtain ⟨h1, h2, h3⟩ := encodeB_fields offset rs2 rs1 0 (even_of_not even)
  exact congr(Instr.beq $(fieldRs1_of h3) $(fieldRs2_of h2) $h1)

theorem RowMatch.bne (rs1 : Reg) (rs2 : Reg) (offset : BitVec 13) : RowMatch.Statement (.bne rs1 rs2 offset) := by
  intro even
  refine ⟨_, List.mem_of_getElem? (i := 21) rfl, hits_of_fixed (encodeB_fixed _ _ _ _), ?_⟩
  obtain ⟨h1, h2, h3⟩ := encodeB_fields offset rs2 rs1 1 (even_of_not even)
  exact congr(Instr.bne $(fieldRs1_of h3) $(fieldRs2_of h2) $h1)

theorem RowMatch.jal (rd : Reg) (offset : BitVec 21) : RowMatch.Statement (.jal rd offset) := by
  intro even
  refine ⟨_, List.mem_of_getElem? (i := 22) rfl, hits_of_fixed (encodeJ_fixed _ _), ?_⟩
  obtain ⟨h1, h2⟩ := encodeJ_fields rd offset (even_of_not even)
  exact congr(Instr.jal $(fieldRd_of h2) $h1)

theorem RowMatch.mret : RowMatch.Statement (.mret) :=
  fun _ => ⟨_, List.mem_of_getElem? (i := 23) rfl, rfl, rfl⟩

theorem RowMatch.ecall : RowMatch.Statement .ecall :=
  fun _ => ⟨_, List.mem_of_getElem? (i := 24) rfl, rfl, rfl⟩

theorem RowMatch.ebreak : RowMatch.Statement .ebreak :=
  fun _ => ⟨_, List.mem_of_getElem? (i := 25) rfl, rfl, rfl⟩

theorem RowMatch.wfi : RowMatch.Statement .wfi :=
  fun _ => ⟨_, List.mem_of_getElem? (i := 26) rfl, rfl, rfl⟩

theorem RowMatch.sret : RowMatch.Statement .sret :=
  fun _ => ⟨_, List.mem_of_getElem? (i := 27) rfl, rfl, rfl⟩

theorem RowMatch.uret : RowMatch.Statement .uret :=
  fun _ => ⟨_, List.mem_of_getElem? (i := 28) rfl, rfl, rfl⟩

theorem RowMatch.sfenceVma (word : BitVec 32) : RowMatch.Statement (.sfenceVma word) :=
  fun h => ⟨_, List.mem_of_getElem? (i := 29) rfl, h, rfl⟩

theorem RowMatch.fenceI (word : BitVec 32) : RowMatch.Statement (.fenceI word) :=
  fun h => ⟨_, List.mem_of_getElem? (i := 30) rfl, h, rfl⟩

theorem RowMatch.auipc (word : BitVec 32) : RowMatch.Statement (.auipc word) :=
  fun h => ⟨_, List.mem_of_getElem? (i := 31) rfl, h, rfl⟩

theorem RowMatch.jalr (word : BitVec 32) : RowMatch.Statement (.jalr word) :=
  fun h => ⟨_, List.mem_of_getElem? (i := 32) rfl, h, rfl⟩

theorem RowMatch.sub (word : BitVec 32) : RowMatch.Statement (.sub word) :=
  fun h => ⟨_, List.mem_of_getElem? (i := 33) rfl, h, rfl⟩

theorem RowMatch.lb (word : BitVec 32) : RowMatch.Statement (.lb word) :=
  fun h => ⟨_, List.mem_of_getElem? (i := 34) rfl, h, rfl⟩

theorem RowMatch.lh (word : BitVec 32) : RowMatch.Statement (.lh word) :=
  fun h => ⟨_, List.mem_of_getElem? (i := 35) rfl, h, rfl⟩

theorem RowMatch.lbu (word : BitVec 32) : RowMatch.Statement (.lbu word) :=
  fun h => ⟨_, List.mem_of_getElem? (i := 36) rfl, h, rfl⟩

theorem RowMatch.lhu (word : BitVec 32) : RowMatch.Statement (.lhu word) :=
  fun h => ⟨_, List.mem_of_getElem? (i := 37) rfl, h, rfl⟩

theorem RowMatch.lwu (word : BitVec 32) : RowMatch.Statement (.lwu word) :=
  fun h => ⟨_, List.mem_of_getElem? (i := 38) rfl, h, rfl⟩

theorem RowMatch.sb (word : BitVec 32) : RowMatch.Statement (.sb word) :=
  fun h => ⟨_, List.mem_of_getElem? (i := 39) rfl, h, rfl⟩

theorem RowMatch.sh (word : BitVec 32) : RowMatch.Statement (.sh word) :=
  fun h => ⟨_, List.mem_of_getElem? (i := 40) rfl, h, rfl⟩

theorem RowMatch.blt (word : BitVec 32) : RowMatch.Statement (.blt word) :=
  fun h => ⟨_, List.mem_of_getElem? (i := 41) rfl, h, rfl⟩

theorem RowMatch.bge (word : BitVec 32) : RowMatch.Statement (.bge word) :=
  fun h => ⟨_, List.mem_of_getElem? (i := 42) rfl, h, rfl⟩

theorem RowMatch.bltu (word : BitVec 32) : RowMatch.Statement (.bltu word) :=
  fun h => ⟨_, List.mem_of_getElem? (i := 43) rfl, h, rfl⟩

theorem RowMatch.bgeu (word : BitVec 32) : RowMatch.Statement (.bgeu word) :=
  fun h => ⟨_, List.mem_of_getElem? (i := 44) rfl, h, rfl⟩

theorem RowMatch.lrW (word : BitVec 32) : RowMatch.Statement (.lrW word) :=
  fun h => ⟨_, List.mem_of_getElem? (i := 45) rfl, h, rfl⟩

theorem RowMatch.lrD (word : BitVec 32) : RowMatch.Statement (.lrD word) :=
  fun h => ⟨_, List.mem_of_getElem? (i := 46) rfl, h, rfl⟩

theorem RowMatch.scW (word : BitVec 32) : RowMatch.Statement (.scW word) :=
  fun h => ⟨_, List.mem_of_getElem? (i := 47) rfl, h, rfl⟩

theorem RowMatch.scD (word : BitVec 32) : RowMatch.Statement (.scD word) :=
  fun h => ⟨_, List.mem_of_getElem? (i := 48) rfl, h, rfl⟩

theorem RowMatch.amoaddW (word : BitVec 32) : RowMatch.Statement (.amoaddW word) :=
  fun h => ⟨_, List.mem_of_getElem? (i := 49) rfl, h, rfl⟩

theorem RowMatch.amoaddD (word : BitVec 32) : RowMatch.Statement (.amoaddD word) :=
  fun h => ⟨_, List.mem_of_getElem? (i := 50) rfl, h, rfl⟩

theorem RowMatch.systemFunct3_100 (word : BitVec 32) : RowMatch.Statement (.systemFunct3_100 word) :=
  fun h => ⟨_, List.mem_of_getElem? (i := 51) rfl, h, rfl⟩

theorem RowMatch.fenceTso : RowMatch.Statement .fenceTso :=
  fun _ => ⟨_, List.mem_of_getElem? (i := 52) rfl, rfl, rfl⟩

theorem RowMatch.short00 (parcel : BitVec 16) : RowMatch.Statement (.short00 parcel) := by
  intro h
  refine ⟨_, List.mem_of_getElem? (i := 53) rfl, hits_of_fixed (short_fixed (eq_of_beq h)), ?_⟩
  simp [encode]

theorem RowMatch.short01 (parcel : BitVec 16) : RowMatch.Statement (.short01 parcel) := by
  intro h
  refine ⟨_, List.mem_of_getElem? (i := 54) rfl, hits_of_fixed (short_fixed (eq_of_beq h)), ?_⟩
  simp [encode]

theorem RowMatch.short10 (parcel : BitVec 16) : RowMatch.Statement (.short10 parcel) := by
  intro h
  refine ⟨_, List.mem_of_getElem? (i := 55) rfl, hits_of_fixed (short_fixed (eq_of_beq h)), ?_⟩
  simp [encode]

theorem RowMatch.long (word : BitVec 32) : RowMatch.Statement (.long word) :=
  fun h => ⟨_, List.mem_of_getElem? (i := 56) rfl, h, rfl⟩

end Sys2Proof.Laws
end

