-- ==== Sys2Proof/Tests/Slice0.lean ====
section
/-! SUPPORT. The model's own tests: ill-formed terms, a word of every row of the opcode table, one or two steps of each
instruction from the vectors of 95_test_vectors, litmus tests of the memory model, and for every statement with
hypotheses a concrete case that meets them. -/

namespace Sys2Proof.Tests

open Sys2Proof.Machine

/-! ### Ill-formed terms (30_encoding R81, R86-R88) -/

theorem test_wellFormed_refuses_odd_offsets :
    (Instr.beq 1 2 3).wellFormed = false ∧ (Instr.bne 1 2 0x1FFF).wellFormed = false ∧
      (Instr.jal 1 0x100001).wellFormed = false := by decide

theorem test_wellFormed_takes_even_offsets :
    (Instr.beq 1 2 0x1000).wellFormed = true ∧ (Instr.bne 1 2 0xFFE).wellFormed = true ∧
      (Instr.jal 1 0xFFFFE).wellFormed = true := by decide

/-- Each refused row's word with one of the row's fixed bits wrong. -/
theorem test_wellFormed_refuses_other_rows_words :
    ∀ i ∈ [Instr.sfenceVma 0x120000F3, .fenceI 0x0000000F, .auipc 0x00000037, .jalr 0x00001067, .sub 0x000282B3,
      .lb 0x00051303, .lh 0x00050303, .lbu 0x00050303, .lhu 0x00054303, .lwu 0x00052303, .sb 0x00651023, .sh 0x00650023,
      .blt 0x00B50463, .bge 0x00B54463, .bltu 0x00B57463, .bgeu 0x00B56463, .lrW 0x1015232F, .lrD 0x1005232F,
      .scW 0x1005232F, .scD 0x1855232F, .amoaddW 0x0855232F, .amoaddD 0x0055232F, .systemFunct3_100 0x30000073,
      .short00 1, .short01 2, .short10 3, .long 0x00000013], i.wellFormed = false := by decide

/-! ### A word of every row (30_encoding, 95_test_vectors) -/

theorem test_decode_csr :
    decode 0x340312F3 = .ok (.csrrw 5 6 0x340) ∧ decode 0xF142A073 = .ok (.csrrs 0 5 0xF14) ∧
      decode 0x3002B073 = .ok (.csrrc 0 5 0x300) ∧ decode 0x340FD073 = .ok (.csrrwi 0 31 0x340) ∧
      decode 0x30046073 = .ok (.csrrsi 0 8 0x300) ∧ decode 0x300473F3 = .ok (.csrrci 7 8 0x300) := by decide

theorem test_decode_memory :
    decode 0x00452383 = .ok (.lw 7 10 4) ∧ decode 0xFF83B303 = .ok (.ld 6 7 (-8)) ∧
      decode 0x00652223 = .ok (.sw 10 6 4) ∧ decode 0x00553423 = .ok (.sd 10 5 8) := by decide

theorem test_decode_atomic :
    decode 0x0855232F = .ok (.amoswapW 6 10 5 false false) ∧ decode 0x0A05302F = .ok (.amoswapD 0 10 0 false true) ∧
      decode 0x285523AF = .ok (.amocasW 7 10 5 false false) ∧ decode 0x2E55352F = .ok (.amocasD 10 10 5 true true) ∧
      decode 0x0480000F = .ok (.fence ⟨false, true, false, false⟩ ⟨true, false, false, false⟩ 0 0) ∧
      decode 0x0330008F = .ok (.fence fenceRw fenceRw 0 1) := by decide

theorem test_decode_integer :
    decode 0xFFFFF2B7 = .ok (.lui 5 0xFFFFF) ∧ decode 0x80000293 = .ok (.addi 5 0 0x800) ∧
      decode 0xFFF2F313 = .ok (.andi 6 5 0xFFF) ∧ decode 0x03F29293 = .ok (.slli 5 5 63) ∧
      decode 0x00C58533 = .ok (.add 10 11 12) := by decide

theorem test_decode_control :
    decode 0x80B50063 = .ok (.beq 10 11 (-4096)) ∧ decode 0x7EB50FE3 = .ok (.beq 10 11 4094) ∧
      decode 0x00B51363 = .ok (.bne 10 11 6) ∧ decode 0x7FD7F0EF = .ok (.jal 1 0x7FFFC) ∧
      decode 0xFFDFF06F = .ok (.jal 0 (-4)) ∧ decode 0x30200073 = .ok .mret := by decide

theorem test_decode_refused_rows :
    decode 0x00000073 = .ok .ecall ∧ decode 0x00100073 = .ok .ebreak ∧ decode 0x10500073 = .ok .wfi ∧
      decode 0x10200073 = .ok .sret ∧ decode 0x00200073 = .ok .uret ∧
      decode 0x12000073 = .ok (.sfenceVma 0x12000073) ∧ decode 0x0000100F = .ok (.fenceI 0x0000100F) ∧
      decode 0x00000297 = .ok (.auipc 0x00000297) ∧ decode 0x00008067 = .ok (.jalr 0x00008067) ∧
      decode 0x406282B3 = .ok (.sub 0x406282B3) ∧ decode 0x00050303 = .ok (.lb 0x00050303) ∧
      decode 0x00051303 = .ok (.lh 0x00051303) ∧ decode 0x00054303 = .ok (.lbu 0x00054303) ∧
      decode 0x00055303 = .ok (.lhu 0x00055303) ∧ decode 0x00056303 = .ok (.lwu 0x00056303) ∧
      decode 0x00650023 = .ok (.sb 0x00650023) ∧ decode 0x00651023 = .ok (.sh 0x00651023) := by decide

theorem test_decode_refused_rows_2 :
    decode 0x00B54463 = .ok (.blt 0x00B54463) ∧ decode 0x00B55463 = .ok (.bge 0x00B55463) ∧
      decode 0x00B56463 = .ok (.bltu 0x00B56463) ∧ decode 0x00B57463 = .ok (.bgeu 0x00B57463) ∧
      decode 0x1005232F = .ok (.lrW 0x1005232F) ∧ decode 0x1005332F = .ok (.lrD 0x1005332F) ∧
      decode 0x1855232F = .ok (.scW 0x1855232F) ∧ decode 0x1855332F = .ok (.scD 0x1855332F) ∧
      decode 0x0055232F = .ok (.amoaddW 0x0055232F) ∧ decode 0x0055332F = .ok (.amoaddD 0x0055332F) ∧
      decode 0x30004073 = .ok (.systemFunct3_100 0x30004073) ∧ decode 0x8330000F = .ok .fenceTso ∧
      decode 0x00000000 = .ok (.short00 0) ∧ decode 0x00000001 = .ok (.short01 1) ∧
      decode 0xABCD0002 = .ok (.short10 2) ∧ decode 0xFFFFFFFF = .ok (.long 0xFFFFFFFF) := by decide

/-- V-DEC-5, V-DEC-6, and FENCE with fm 1: words of no row. -/
theorem test_decode_rejects :
    decode 0x04029293 = .error .outsideBlock ∧ decode 0x0855032F = .error .outsideBlock ∧
      decode 0x1330000F = .error .unmodelledFence ∧ decodeBytes [0x13, 0, 0] = .error .unmodelledLength := by decide

/-- The bytes of a word, and the host's reading of a table row (30_encoding R44). -/
theorem test_bytes :
    encodeBytes (.csrrci 7 8 0x300) = [0xF3, 0x73, 0x04, 0x30] ∧ decodeTableWord 32 0x300473F3 = some (.csrrci 7 8 0x300) ∧
      decodeTableWord 16 0x00000001 = some (.short01 1) := by decide

/-- The protocols' instructions are the words of programs P1 to P4 and of R114. -/
theorem test_protocol_words :
    (acquireBySwap 10 5 6).map encode = [0x00100293, 0x0C55332F, 0xFE031EE3] ∧
      (releaseBySwap 10).map encode = [0x0A05302F] ∧ (releaseByFence 10).map encode = [0x0310000F, 0x00053023] ∧
      (acquireByCas 10 5 7).map encode = [0x00100293, 0x00000393, 0x2C5533AF, 0xFE039CE3] ∧
      (maskInterrupts 8 ++ restoreInterrupts 8).map encode = [0x30047473, 0x00847413, 0x30042073] ∧
      (armTimer 10 12 11 5 6 7).map encode =
        [0x00359293, 0x00A282B3, 0x00004337, 0x006282B3, 0x0000C3B7, 0x00A383B3, 0xFF83B303, 0x00C30333, 0x0062B023] := by
  decide

/-! ### One step -/

/-- A machine at pc 0x10000100 with TEXT the first four words of RAM, and the registers given. -/
def machine (regs : List (Reg × Word)) (ram : Memory := []) (set : Hart → Hart := id) : State :=
  let cfg := { Config.default with textWords := 4 }
  let hart := regs.foldl (fun h p => h.setReg p.1 p.2) { Hart.reset cfg with pc := 0x10000100 }
  { State.reset with cfg := cfg, harts := [set hart], ram := ram, image := ram, agenda := [.hart 0 false] }

/-- RAM with a doubleword at X = 0x10002000. -/
def ramX (v : Word) : Memory := Memory.writeBytes [] 0x10002000 8 v

/-- What a step that runs the word gives. -/
def run (w : Nat) (s : State) : Option State :=
  match step (s.withFetchWord 32 w) with
  | .next t => some t
  | .fault _ | .refused _ => none

/-- Why an outcome is no state. -/
def reason : Host.Outcome State Fault Refusal → Option (Fault ⊕ Refusal)
  | .next _ => none
  | .fault f => some (.inl f)
  | .refused r => some (.inr r)

/-- Why a hart's step that runs the word stops. -/
def stopOf (w : Nat) (s : State) : Option (Fault ⊕ Refusal) := reason ((s.withFetchWord 32 w).hartStep false)

/-- State.reset is the reset of the launch of no program. -/
theorem test_reset_is_a_launch : State.launch Launch.empty = State.reset := by
  simp [State.launch, Launch.empty, State.reset, HartLaunch.reset, HartLaunch.zero, Hart.reset, Launch.image,
    Memory.writeWords, Memory.writeCells, resetMstatus, withMie, withBit, mstatusMpp, satpModeLegal, mtvecLegal,
    Config.default, mepcMask]

/-- V-CSR-1, V-CSR-2. -/
theorem test_csrrw :
    (run 0x340312F3 (machine [(6, 9)] [] fun h => { h with mscratch := 5 })).map (fun t => (t.getReg 5, t.hart.mscratch))
        = some (5, 9) ∧
      (run 0x340292F3 (machine [(5, 7)] [] fun h => { h with mscratch := 3 })).map (fun t => (t.getReg 5, t.hart.mscratch))
        = some (3, 7) := by decide

/-- V-CSR-8: the trap of a write of mhartid. -/
theorem test_csrrs_readonly :
    (run 0xF142A073 (machine [] [] fun h => { h with mstatus := 8, mtvec := 0x10000201 })).map
      (fun t => (t.pc, t.hart.mepc, t.hart.mcause, t.hart.mstatus)) = some (0x10000200, 0x10000100, 2, 0x1880) := by decide

/-- V-CSR-22, V-CSR-7 with hart 0. -/
theorem test_csrrs_reads :
    (run 0x34402573 (machine [] [] fun h => { h with mtipSeen := true })).map (fun t => t.getReg 10) = some 0x80 ∧
      (run 0xF1402573 (machine [(10, 5)])).map (fun t => t.getReg 10) = some 0 := by decide

/-- V-CSR-18. -/
theorem test_csrrc :
    (run 0x3002B073 (machine [(5, 8)] [] fun h => { h with mstatus := 0x88 })).map (fun t => t.hart.mstatus)
      = some 0x80 := by decide

/-- V-CSR-5. -/
theorem test_csrrwi : (run 0x340FD073 (machine [])).map (fun t => t.hart.mscratch) = some 31 := by decide

/-- V-CSR-24, V-CSR-10. -/
theorem test_csrrsi :
    (run 0x34416073 (machine [])).map (fun t => t.hart.mipSw) = some 2 ∧
      (run 0xF1406073 (machine [])).map (fun t => (t.pc, t.hart.mcause)) = some (0x10000104, 0) := by decide

/-- V-CSR-16. -/
theorem test_csrrci :
    (run 0x300473F3 (machine [] [] fun h => { h with mstatus := 0x1888 })).map (fun t => (t.getReg 7, t.hart.mstatus))
      = some (0x1888, 0x1880) := by decide

/-- V-CSR-11, V-CSR-15, V-CSR-20, V-CSR-21, V-CSR-27, V-CSR-29. -/
theorem test_csr_refusals :
    stopOf 0xF1101073 (machine []) = some (.inr .unmodelledCsr) ∧
      stopOf 0x3A102573 (machine []) = some (.inr .unmodelledCsr) ∧
      stopOf 0x30029073 (machine [(5, 0x1000)]) = some (.inr .illegalWarlValue) ∧
      stopOf 0x3002A073 (machine [(5, 0x20000)]) = some (.inr .unmodelledCsrBits) ∧
      stopOf 0x30529073 (machine [(5, 0x10000102)]) = some (.inr .illegalWarlValue) ∧
      stopOf 0x34229073 (machine [(5, 10)]) = some (.inr .illegalWlrlValue) := by decide

/-- V-MEM-1 (the load of the high word), V-MEM-2. -/
theorem test_lw :
    (run 0x00452383 (machine [(10, 0x10002000)] (ramX 0x0102030405060708))).map (fun t => t.getReg 7)
        = some 0x01020304 ∧
      (run 0x00052303 (machine [(10, 0x10002000)] (ramX 0x80FFFFFF))).map (fun t => t.getReg 6)
        = some 0xFFFFFFFF80FFFFFF := by decide

/-- V-MEM-5, V-MEM-15. -/
theorem test_ld :
    (run 0x00053303 (machine [(10, 0x10002000)] (ramX 0xDEADBEEF00000001))).map (fun t => t.getReg 6)
        = some 0xDEADBEEF00000001 ∧
      (run 0xFF83B303 { machine [(7, 0x0200C000)] with mtime := 1000 }).map (fun t => t.getReg 6) = some 1000 := by decide

/-- V-MEM-4. -/
theorem test_sw :
    (run 0x00652023 (machine [(10, 0x10002000), (6, 0xAAAAAAAABBBBBBBB)] (ramX 0x1111111122222222))).map
      (fun t => t.ram.readBytes 0x10002000 8) = some 0x11111111BBBBBBBB := by decide

/-- V-MEM-1, V-MEM-19 with hart 0's slot. -/
theorem test_sd :
    (run 0x00653023 (machine [(10, 0x10002000), (6, 0x0102030405060708)])).map (fun t => t.ram.bytes 0x10002000 8)
        = some [8, 7, 6, 5, 4, 3, 2, 1] ∧
      (run 0x0063B023 (machine [(7, 0x02004000), (6, 1500)])).map (fun t => (t.mtimecmp, t.mtime)) = some ([1500], 0) := by
  decide

/-- V-MEM-6, V-MEM-9, V-MEM-11, V-MEM-12, V-MEM-16, V-MEM-17. -/
theorem test_memory_stops :
    stopOf 0x00453303 (machine [(10, 0x10002000)]) = some (.inr .misalignedAccess) ∧
      stopOf 0x00653023 (machine [(10, 0x10000000)]) = some (.inr .writeToText) ∧
      stopOf 0x00053303 (machine [(10, 0x40000000)]) = some (.inl .stuckData) ∧
      stopOf 0x00052303 (machine [(10, 0x10010000)]) = some (.inl .stuckData) ∧
      stopOf 0x0003A303 (machine [(7, 0x0200BFF8)]) = some (.inr .unmodelledDeviceAccess) ∧
      stopOf 0x0063B023 (machine [(7, 0x0200BFF8)]) = some (.inr .unmodelledDeviceAccess) := by decide

/-- V-AMO-6. -/
theorem test_amoswapW :
    (run 0x0855232F (machine [(10, 0x10002000), (5, 0xAAAAAAAA00000001)] (ramX 0x1234567880000000))).map
      (fun t => (t.getReg 6, t.ram.readBytes 0x10002000 8)) = some (0xFFFFFFFF80000000, 0x1234567800000001) := by decide

/-- V-AMO-8, and V-AMO-4's two events. -/
theorem test_amoswapD :
    (run 0x08A5352F (machine [(10, 0x10002000)] (ramX 7))).map
        (fun t => (t.getReg 10, t.ram.readBytes 0x10002000 8)) = some (7, 0x10002000) ∧
      (run 0x0A05302F (machine [(10, 0x10002000)] (ramX 1))).map
        (fun t => (t.ram.readBytes 0x10002000 8, t.history.map fun e => (e.kind, e.value, e.rl)))
        = some (0, [(.amoRead, 1, true), (.amoWrite, 0, true)]) := by decide

/-- V-AMO-20, V-AMO-21. -/
theorem test_amocasW :
    (run 0x285523AF (machine [(10, 0x10002000), (7, 0x12345678FFFFFFFF), (5, 5)] (ramX 0xFFFFFFFF))).map
        (fun t => (t.getReg 7, t.ram.readBytes 0x10002000 8)) = some (0xFFFFFFFFFFFFFFFF, 5) ∧
      (run 0x285523AF (machine [(10, 0x10002000), (5, 9)] (ramX 5))).map
        (fun t => (t.getReg 7, t.ram.readBytes 0x10002000 8)) = some (5, 5) := by decide

/-- V-AMO-24, V-AMO-18. -/
theorem test_amocasD :
    (run 0x2E55352F (machine [(10, 0x10002000), (5, 1)] (ramX 0x10002000))).map
        (fun t => (t.getReg 10, t.ram.readBytes 0x10002000 8)) = some (0x10002000, 1) ∧
      (run 0x285533AF (machine [(10, 0x10002000), (5, 1)] (ramX 1))).map
        (fun t => (t.getReg 7, t.history.map fun e => e.kind)) = some (1, [.read]) := by decide

/-- V-AMO-9, V-AMO-11: what a misaligned AMO leaves, whichever code it draws. -/
theorem test_amo_misaligned :
    (run 0x0855332F (machine [(10, 0x10002004)])).map (fun t => (t.hart.mepc, t.getReg 6, t.history))
        = some (0x10000100, 0, []) ∧
      (run 0x0855332F (machine [(10, 0x02004004)])).map (fun t => (t.hart.mepc, t.draws)) = some (0x10000100, 1) := by
  decide

/-- V-AMO-12, V-AMO-14, V-AMO-27. -/
theorem test_amo_stops :
    stopOf 0x0855332F (machine [(10, 0x02004000)]) = some (.inr .unmodelledDeviceAccess) ∧
      stopOf 0x0855332F (machine [(10, 0x40000000)]) = some (.inl .stuckData) ∧
      stopOf 0x285533AF (machine [(10, 0x10000000), (7, 99)]) = some (.inr .writeToText) := by decide

/-- V-FEN-2, V-FEN-11. -/
theorem test_fence :
    (run 0x0310000F (machine [])).map (fun t => t.history.map fun e => e.kind) = some [.fence fenceRw fenceW] ∧
      (run 0x0330008F (machine [(1, 7)])).map (fun t => (t.getReg 1, t.pc)) = some (7, 0x10000104) := by decide

/-- V-INT-1, V-INT-2. -/
theorem test_lui :
    (run 0xFFFFF2B7 (machine [])).map (fun t => t.getReg 5) = some 0xFFFFFFFFFFFFF000 ∧
      (run 0x800002B7 (machine [])).map (fun t => t.getReg 5) = some 0xFFFFFFFF80000000 := by decide

/-- V-INT-4, V-INT-7. -/
theorem test_addi :
    (run 0x80000293 (machine [])).map (fun t => t.getReg 5) = some 0xFFFFFFFFFFFFF800 ∧
      (run 0x00128293 (machine [(5, 0xFFFFFFFFFFFFFFFF)])).map (fun t => t.getReg 5) = some 0 := by decide

/-- V-INT-8, V-INT-9. -/
theorem test_andi :
    (run 0xFFF2F313 (machine [(5, 0x8000000000000001)])).map (fun t => t.getReg 6) = some 0x8000000000000001 ∧
      (run 0x00847413 (machine [(8, 0x188A)])).map (fun t => t.getReg 8) = some 8 := by decide

/-- V-INT-10, V-INT-12. -/
theorem test_slli :
    (run 0x03F29293 (machine [(5, 3)])).map (fun t => t.getReg 5) = some 0x8000000000000000 ∧
      (run 0x00359513 (machine [(11, 2)])).map (fun t => t.getReg 10) = some 16 := by decide

/-- V-INT-13, V-INT-14. -/
theorem test_add :
    (run 0x005282B3 (machine [(5, 0x8000000000000000)])).map (fun t => t.getReg 5) = some 0 ∧
      (run 0x00C58533 (machine [(11, 0xFFFFFFFFFFFFFFF0), (12, 0x20)])).map (fun t => t.getReg 10) = some 0x10 := by decide

/-- V-BR-2, V-BR-5. -/
theorem test_beq :
    (run 0x00B50463 (machine [(10, 4), (11, 4)])).map (fun t => t.pc) = some 0x10000108 ∧
      (run 0x7EB50FE3 (machine [] [] fun h => { h with mcause := 5, mtvec := 0x10000200 })).map
        (fun t => (t.pc, t.hart.mepc, t.hart.mcause)) = some (0x10000200, 0x10000100, 0) := by decide

/-- V-BR-10, V-BR-9. -/
theorem test_bne :
    (run 0xFE031EE3 (machine [(6, 1)])).map (fun t => t.pc) = some 0x100000FC ∧
      (run 0x00631463 (machine [(6, 1)])).map (fun t => t.pc) = some 0x10000104 := by decide

/-- V-BR-13 (from this pc), V-BR-17. -/
theorem test_jal :
    (run 0x010000EF (machine [])).map (fun t => (t.getReg 1, t.pc)) = some (0x10000104, 0x10000110) ∧
      (run 0x002000EF (machine [(1, 9)])).map (fun t => (t.getReg 1, t.hart.mepc)) = some (9, 0x10000100) := by decide

/-- V-SYS-1, V-SYS-3. -/
theorem test_mret :
    (run 0x30200073 (machine [] [] fun h => { h with mstatus := 0x1880, mepc := 0x10000040 })).map
        (fun t => (t.pc, t.hart.mstatus)) = some (0x10000040, 0x88) ∧
      stopOf 0x30200073 (machine [] [] fun h => { h with mstatus := 0x88 }) = some (.inr .leavesMachineMode) := by decide

/-- V-SYS-5, V-SYS-6, V-DEC-1, V-DEC-15: refused rows. -/
theorem test_refused_rows :
    stopOf 0x00000073 (machine []) = some (.inr .outsideBlock) ∧ stopOf 0x10500073 (machine []) = some (.inr .outsideBlock) ∧
      stopOf 0x00000000 (machine []) = some (.inr .unmodelledLength) ∧
      stopOf 0x8330000F (machine []) = some (.inr .unmodelledFence) := by decide

/-- V-SYS-9 (at pc 0x10000100): a vectored timer interrupt. -/
theorem test_interrupt :
    (match step { machine [] [] (fun h => { h with mtipSeen := true, mie := 0x80, mstatus := 8, mtvec := 0x10000101 }) with
        agenda := [.hart 0 true] } with
      | .next t => some (t.pc, t.hart.mepc, t.hart.mcause, t.hart.mstatus)
      | _ => none) = some (0x1000011C, 0x10000100, 0x8000000000000007, 0x1880) := by decide

/-- 41_timer_arming R125, R130: the counter reaches the deadline, and the propagation copies it. -/
theorem test_timer_and_propagation :
    (match Host.Core.run core 2 { machine [] with mtime := 1499, mtimecmp := [1500], agenda := [.timer, .propagate 0] } with
      | .next t => some (t.mtime, t.hart.mtipSeen)
      | _ => none) = some (1500, true) := by decide

/-- 00_scope R10, 20_memory R57: hart 0 is stuck at a load, and the timer goes on. -/
theorem test_stuck_hart_stops_alone :
    (match Host.Core.run core 2 { (machine []).withFetchWord 32 0x00053303 with agenda := [.hart 0 false, .timer] } with
      | .next t => some (t.mtime, t.pc, t.history.length)
      | _ => none) = some (1, 0x10000100, 1) := by decide

/-! ### Litmus tests (95_test_vectors section 2.9) -/

/-- An access of eight bytes of RAM by a hart. -/
def access (h : Nat) (kind : EventKind) (a : Nat) (v : Word) (aq rl : Bool := false) : Event :=
  { agent := .hart h, po := 0, kind := kind, space := .ram, addr := a, size := 8, value := v, aq := aq, rl := rl }

/-- A FENCE of a hart. -/
def fenceOf (h : Nat) (pred succ : FenceSet) : Event := { access h (.fence pred succ) 0 0 with size := 0 }

/-- The set `r` of a FENCE. -/
def fenceR : FenceSet := { i := false, o := false, r := true, w := false }

/-- V-LIT-1: message passing with no ordering. -/
theorem test_litmus_1_allowed :
    Consistent [] (eventsOf [access 0 .write 0x10002000 1, access 0 .write 0x10002008 1, access 1 .read 0x10002008 1,
      access 1 .read 0x10002000 0]) (listOrder [1, 2, 3, 0]) := consistent_of_check (by decide)

/-- V-LIT-4: message passing with a release and an acquire. -/
theorem test_litmus_4_forbidden (gmo : Order) :
    ¬Consistent [] (eventsOf [access 0 .write 0x10002000 1, access 0 .amoRead 0x10002008 0 false true,
      access 0 .amoWrite 0x10002008 1 false true, access 1 .read 0x10002008 1 true, access 1 .read 0x10002000 0]) gmo :=
  inconsistent (by decide) gmo

/-- V-LIT-5: message passing with fences. -/
theorem test_litmus_5_forbidden (gmo : Order) :
    ¬Consistent [] (eventsOf [access 0 .write 0x10002000 1, fenceOf 0 fenceW fenceW, access 0 .write 0x10002008 1,
      access 1 .read 0x10002008 1, fenceOf 1 fenceR fenceR, access 1 .read 0x10002000 0]) gmo :=
  inconsistent (by decide) gmo

/-- V-LIT-7: store buffering. -/
theorem test_litmus_7_allowed :
    Consistent [] (eventsOf [access 0 .write 0x10002000 1, access 0 .read 0x10002008 0, access 1 .write 0x10002008 1,
      access 1 .read 0x10002000 0]) (listOrder [1, 3, 0, 2]) := consistent_of_check (by decide)

/-- V-LIT-8: store buffering with fences. -/
theorem test_litmus_8_forbidden (gmo : Order) :
    ¬Consistent [] (eventsOf [access 0 .write 0x10002000 1, fenceOf 0 fenceRw fenceRw, access 0 .read 0x10002008 0,
      access 1 .write 0x10002008 1, fenceOf 1 fenceRw fenceRw, access 1 .read 0x10002000 0]) gmo :=
  inconsistent (by decide) gmo

/-- V-LIT-9: two loads of one word by one hart. -/
theorem test_litmus_9_forbidden (gmo : Order) :
    ¬Consistent [] (eventsOf [access 0 .write 0x10002000 1, access 1 .read 0x10002000 1, access 1 .read 0x10002000 0]) gmo :=
  inconsistent (by decide) gmo

/-- V-LIT-10: the acquiring swaps of two harts. -/
theorem test_litmus_10_forbidden (gmo : Order) :
    ¬Consistent [] (eventsOf [access 0 .amoRead 0x10002008 0 true, access 0 .amoWrite 0x10002008 1 true,
      access 1 .amoRead 0x10002008 0 true, access 1 .amoWrite 0x10002008 1 true]) gmo := inconsistent (by decide) gmo

/-- V-LIT-12: a hand-off with no acquire annotation. -/
theorem test_litmus_12_allowed :
    Consistent [(0x10002000, 1)] (eventsOf [access 0 .write 0x10002008 5, access 0 .amoRead 0x10002000 1 false true,
      access 0 .amoWrite 0x10002000 0 false true, access 1 .amoRead 0x10002000 0, access 1 .amoWrite 0x10002000 1,
      access 1 .read 0x10002008 0]) (listOrder [5, 0, 1, 2, 3, 4]) := consistent_of_check (by decide)

/-! ### For every statement with hypotheses, a case that meets them -/

/-- Hart 0 of a machine with two harts, at pc 0x10000100 and in RAM's middle. -/
def two (regs : List (Reg × Word)) (ram : Memory := []) : State :=
  let s := machine regs ram;
  { s with harts := s.harts ++ [Hart.reset s.cfg], mtimecmp := [1500, 77] }

theorem witness_DecodeOfEncodeIsTheInstruction :
    (Instr.beq 31 0 0x1000).wellFormed = true ∧ (Instr.jal 31 0x1FFFFE).wellFormed = true ∧
      (Instr.lrW 0x1005232F).wellFormed = true ∧ (Instr.short10 0xFFFE).wellFormed = true := by decide

theorem witness_EncodeOfDecodedIsTheWord :
    decode 0xFE000EE3 = .ok (.beq 0 0 (-4)) ∧ decode 0xABCD0002 = .ok (.short10 2) ∧
      decode 0xFFFFFFFF = .ok (.long 0xFFFFFFFF) := by decide

/-- A step that goes on, one that faults and one that is refused, and a move that would take an interrupt. -/
theorem witness_StepRunsTheDecodedInstruction :
    (∀ x ∈ [(0x00000013, Instr.addi 0 0 0), (0x00053303, .ld 6 10 0), (0x00000073, .ecall)],
      let s := (machine []).withFetchWord 32 x.1;
      s.nextMove = .hart 0 false ∧ s.runs 0 = true ∧ x.2.wellFormed = true ∧
        (match State.fetch { s with cur := 0 } with
          | .ok bytes => decodeBytes bytes
          | .error _ => .error .outsideBlock) = .ok x.2) ∧
      reason (exec (.ld 6 10 0) (machine [])) = some (.inl .stuckData) ∧
      (let s := { (machine []).withFetchWord 32 0x13 with agenda := [.hart 0 true] };
      s.nextMove = .hart 0 true ∧ (State.hart { s with cur := 0 }).nextInterrupt s.cfg = none) := by decide

/-- The last word of RAM; a hart with a locked entry; the first word past RAM; both ends of the timer region. -/
theorem witness_FetchReadsFourBytesOrStops :
    (∀ pc ∈ [0x10000000, 0x1000FFFC], let s := machine [] [] fun h => { h with pc := BitVec.ofNat 64 pc };
      s.pc.toNat % 4 = 0 ∧ s.touchesTimer s.pc.toNat 4 = false ∧ s.pmpLocked = false ∧ s.inRam s.pc.toNat 4 = true) ∧
      (machine [] [] fun h => { h with pmpcfg := h.pmpcfg.set 15 0x88 }).pmpLocked = true ∧
      (∀ pc ∈ [0x10010000, 0x0FFFFFFC], let s := machine [] [] fun h => { h with pc := BitVec.ofNat 64 pc };
        s.pc.toNat % 4 = 0 ∧ s.touchesTimer s.pc.toNat 4 = false ∧ s.pmpLocked = false ∧
          s.inRam s.pc.toNat 4 = false) ∧
      (∀ pc ∈ [0x02000000, 0x0200FFFC], let s := machine [] [] fun h => { h with pc := BitVec.ofNat 64 pc };
        s.pc.toNat % 4 = 0 ∧ s.touchesTimer s.pc.toNat 4 = true) := by decide

theorem witness_LengthAndFenceFormsAreRefused :
    ∀ w ∈ [0x00000000, 0xFFFFFFFE, 0xFFFFFFFF, 0x8330000F, 0x1000000F],
      (match ((machine []).withFetchWord 32 w).fetch with
        | .ok bytes => bytes
        | .error _ => []) = wordBytes (BitVec.ofNat 32 w) := by decide

theorem witness_active : (machine []).Active ∧ (two []).Active := by decide

theorem witness_RefusedRowsRefuse : Instr.ecall ∈ [Instr.ecall, .ebreak, .wfi] := by decide

/-- Each branch, taken to the lowest and the highest target and not taken. -/
theorem witness_BranchesGoToTheTargetOrOn :
    let s := machine [(10, 4), (11, 4)];
    s.Active ∧ s.getReg 10 = s.getReg 11 ∧ s.getReg 10 ≠ s.getReg 0 ∧
      (s.pc + BitVec.signExtend 64 (-4096#13)).toNat % 4 = 0 ∧
      (s.pc + BitVec.signExtend 64 (4092#13)).toNat % 4 = 0 := by decide

theorem witness_JalLinksAndJumps :
    let s := machine [];
    s.Active ∧ (s.pc + BitVec.signExtend 64 (0x100000#21)).toNat % 4 = 0 ∧
      (s.pc + BitVec.signExtend 64 (0xFFFFC#21)).toNat % 4 = 0 := by decide

/-- Both branches and a jump, with `HAS_C` false and true. -/
theorem witness_MisalignedTargetsTrapOrRefuse :
    let s := machine [(10, 4), (11, 4)];
    s.Active ∧ (s.pc + BitVec.signExtend 64 (4094#13)).toNat % 4 ≠ 0 ∧
      (s.pc + BitVec.signExtend 64 (2#21)).toNat % 4 ≠ 0 ∧
      s.getReg 10 = s.getReg 11 ∧ s.getReg 10 ≠ s.getReg 0 ∧ s.cfg.hasC = false ∧
      State.Active { s with cfg := { s.cfg with hasC := true } } := by decide

/-- The first and the last word of RAM, and the first after TEXT. -/
theorem witness_loads_and_stores_of_ram :
    (∀ a ∈ [0x10000000, 0x1000FFF8], let s := machine [(10, BitVec.ofNat 64 a)];
      s.Active ∧ a = (s.getReg 10 + BitVec.signExtend 64 0#12).toNat ∧ s.Readable a 8 ∧ s.Readable (a + 4) 4) ∧
      ∀ a ∈ [0x10000010, 0x1000FFF8], let s := machine [(10, BitVec.ofNat 64 a)];
        s.Active ∧ s.ram.wf ∧ s.Writable a 8 ∧ s.Writable (a + 4) 4 := by decide

theorem witness_SimulatorLoadIsTheBytes : (machine []).oracle = [] := by decide

/-- mtime, and the first and the last compare register. -/
theorem witness_LdReadsTheTimerRegisters :
    (∀ a ∈ [0x0200BFF8, 0x02004000, 0x02004008], let s := two [(10, BitVec.ofNat 64 a)];
      s.Active ∧ a = (s.getReg 10 + BitVec.signExtend 64 0#12).toNat ∧ a % 8 = 0 ∧ s.pmpLocked = false ∧
        s.mtimecmp.length ≤ 4095) ∧
      0x0200BFF8 = (two []).cfg.timerBase.toNat + 0xBFF8 ∧ (two []).mtimecmp[1]? = some 77 ∧
      0x02004008 = (two []).cfg.timerBase.toNat + 0x4000 + 8 * 1 := by decide

theorem witness_SdWritesACompareRegister :
    ∀ x ∈ [(0x02004000, 0), (0x02004008, 1)], let s := two [(10, BitVec.ofNat 64 x.1)];
      s.Active ∧ x.1 = (s.getReg 10 + BitVec.signExtend 64 0#12).toNat ∧ x.1 % 8 = 0 ∧
        s.pmpLocked = false ∧ x.1 = s.cfg.timerBase.toNat + 0x4000 + 8 * x.2 ∧ x.2 < s.mtimecmp.length ∧
        s.mtimecmp.length ≤ 4095 := by decide

/-- Each stop: a misaligned address; both ends of the timer region, and past the last compare register; the last word
of TEXT; a locked entry; past RAM. -/
theorem witness_LoadsAndStoresStop :
    0x10002004 % 8 ≠ 0 ∧ 0x10002002 % 4 ≠ 0 ∧
      (let s := two [];
      (∀ a ∈ [0x02000000, 0x0200FFF8, 0x02004010], a % 8 = 0 ∧ s.touchesTimer a 8 = true ∧ s.timerRead a = none ∧
          s.timerSlot a = none) ∧
        (s.touchesTimer 0x0200FFFC 4 = true ∧ 0x0200FFFC % 4 = 0) ∧
        (∀ a ∈ [0x10000000, 0x10000008], a % 8 = 0 ∧ s.touchesTimer a 8 = false ∧ s.touchesText a 8 = true) ∧
        ∀ a ∈ [0x10010000, 0x0FFFFFF8, 0x02010000], a % 8 = 0 ∧ s.touchesTimer a 8 = false ∧ s.pmpLocked = false ∧
          s.inRam a 8 = false ∧ s.touchesText a 8 = false) ∧
      let s := machine [] [] fun h => { h with pmpcfg := h.pmpcfg.set 0 0x98 };
      s.touchesTimer 0x10002000 8 = false ∧ s.pmpLocked = true ∧ s.touchesText 0x10002000 8 = false ∧
        s.touchesTimer 0x02004000 8 = true ∧ s.timerRead 0x0200BFF8 ≠ none ∧ s.timerRead 0x02004000 ≠ none ∧
        s.timerSlot 0x02004000 ≠ none := by decide

/-- A comparison that succeeds and one that fails. -/
theorem witness_atomics :
    ∀ x ∈ [0x10000010, 0x1000FFF8],
      let s := machine [(10, BitVec.ofNat 64 x), (7, 5), (5, 9)] (Memory.writeBytes [] x 8 5);
      s.Active ∧ s.ram.wf ∧ x = (s.getReg 10).toNat ∧ s.Writable x 4 ∧ s.Writable x 8 ∧
        s.loadValue x 8 = s.getReg 7 ∧ s.loadValue x 8 ≠ s.getReg 5 ∧
        s.loadValue x 4 = ((s.getReg 7).setWidth 32).setWidth 64 ∧
        s.loadValue x 4 ≠ ((s.getReg 5).setWidth 32).setWidth 64 := by decide

theorem witness_MisalignedAmoTraps :
    (machine []).Active ∧ ((machine [(10, 0x10002003)]).getReg 10).toNat % 4 ≠ 0 ∧
      ((machine [(10, 0x02004004)]).getReg 10).toNat % 8 ≠ 0 := by decide

theorem witness_AlignedAmoStops :
    let s := machine [];
    (∀ a ∈ [0x02000000, 0x0200FFF8], a % 8 = 0 ∧ s.touchesTimer a 8 = true) ∧
      (∀ a ∈ [0x10010000, 0x02010000], a % 8 = 0 ∧ s.touchesTimer a 8 = false ∧ s.touchesText a 8 = false ∧
        s.pmpLocked = false ∧ s.inRam a 8 = false) ∧
      (∀ a ∈ [0x10000000, 0x10000008], a % 8 = 0 ∧ s.touchesTimer a 8 = false ∧ s.touchesText a 8 = true) ∧
      let s := machine [] [] fun h => { h with pmpcfg := h.pmpcfg.set 0 0x88 };
      ∀ a ∈ [0x10000010, 0x10010000], s.touchesTimer a 8 = false ∧ s.touchesText a 8 = false ∧ s.pmpLocked = true := by
  decide

/-- An AMO of eight bytes that straddles the start of RAM into the text is refused, not stuck (60_exceptions R185). -/
theorem test_amo_refused_before_stuck :
    let s := machine [(10, 0x0FFFFFF8)];
    let s := { s with cfg := { s.cfg with ramBase := 0x0FFFFFFC, textBase := 0x0FFFFFFC } };
    s.inRam 0x0FFFFFF8 8 = false ∧ stopOf 0x0855332F s = some (.inr .writeToText) := by decide

/-- What a refused step and a step that faults leave, and that a later move keeps it (00_scope R8, 10_state R42). -/
theorem test_marks_stay :
    (let s := (machine []).withFetchWord 32 0x00000073;
      let t := s.settle (step s);
      t.refused = true ∧ t.pc = 0x10000100 ∧ t.unmarked = false ∧
        (State.settle { t with agenda := [.timer] } (step { t with agenda := [.timer] })).refused = true) ∧
      let s := machine [] [] fun h => { h with pc := 0x10000102 };
      let t := s.settle (step s);
      t.faults = [.fetchMisaligned] ∧ (State.settle { t with agenda := [.hart 0 false] }
        (step { t with agenda := [.hart 0 false] })).faults = [.fetchMisaligned] := by decide

/-- CSRRW of mstatus with `rd` x0 and another, and CSRRWI of mscratch. -/
theorem witness_CsrSwapWritesTheSource :
    let s := machine [(5, 0x1888)];
    s.Active ∧ s.hart.priv = .machine ∧ csrOfNumber 0x300 = some .mstatus ∧ csrOfNumber 0x340 = some .mscratch ∧
      BitVec.extractLsb' 10 2 0x300#12 ≠ 3 ∧
      s.hart.csrWrite s.cfg .mstatus (s.getReg 5) = .ok { s.hart with mstatus := 0x1888 } ∧
      s.hart.csrWrite s.cfg .mscratch (BitVec.setWidth 64 31#5) = .ok { s.hart with mscratch := 31 } ∧
      s.hart.csrRead s.cfg s.cur .mstatus = .ok 0 := by decide

/-- A set of mstatus, one of mip with the input of SEIP at 1, and a read of mhartid. -/
theorem witness_CsrSetSetsBits :
    let s := machine [(5, 8)] [] fun h => { h with seipIn := true };
    s.Active ∧ s.hart.priv = .machine ∧ csrOfNumber 0x344 = some .mip ∧ csrOfNumber 0xF14 = some .mhartid ∧
      s.hart.csrRead s.cfg s.cur .mip = .ok 0x200 ∧ s.hart.csrRead s.cfg s.cur .mhartid = .ok 0 ∧
      s.hart.csrWrite s.cfg .mip (s.hart.csrRmw s.cfg .mip 0x200 ||| BitVec.setWidth 64 2#5) =
        .ok { s.hart with mipSw := 2 } ∧
      s.hart.csrWrite s.cfg .mstatus (s.hart.csrRmw s.cfg .mstatus 0 ||| s.getReg 5) =
        .ok { s.hart with mstatus := 8 } := by decide

theorem witness_CsrClearClearsBits :
    let s := machine [(5, 8)] [] fun h => { h with mstatus := 0x88 };
    s.Active ∧ s.hart.priv = .machine ∧ csrOfNumber 0x300 = some .mstatus ∧
      s.hart.csrRead s.cfg s.cur .mstatus = .ok 0x88 ∧
      s.hart.csrWrite s.cfg .mstatus (s.hart.csrRmw s.cfg .mstatus 0x88 &&& ~~~s.getReg 5) =
        .ok { s.hart with mstatus := 0x80 } ∧
      s.hart.csrWrite s.cfg .mstatus (s.hart.csrRmw s.cfg .mstatus 0x88 &&& ~~~BitVec.setWidth 64 8#5) =
        .ok { s.hart with mstatus := 0x80 } := by decide

/-- Numbers next to the table's; a machine-mode hart. -/
theorem witness_CsrNumberChecks :
    (∀ n ∈ [0x7C0, 0xF11, 0xF15, 0x343, 0x3A1, 0x3A3, 0x3AF, 0x3C0, 0xC00, 0, 0xFFF],
        csrOfNumber (BitVec.ofNat 12 n) = none) ∧
      (machine []).Active ∧ (machine []).hart.priv = .machine := by decide

/-- A granularity of 0, and each of the two sets of configuration bytes. -/
theorem witness_CsrReadsGiveTheTableValues :
    let s := machine [] [] fun h => { h with pmpcfg := (h.pmpcfg.set 7 0x1F).set 8 0x0B };
    s.cfg.pmpG = 0 ∧ s.hart.csrRead s.cfg 0 .pmpcfg0 = .ok 0x1F00000000000000 ∧
      s.hart.csrRead s.cfg 0 .pmpcfg2 = .ok 0x0B := by decide

/-- Values at the ends of the legal sets. -/
theorem witness_CsrWritesStoreTheTableValues :
    let s := machine [];
    BitVec.extractLsb' 0 2 0xFFFFFFFFFFFFFFFC#64 = 0 ∧
      0x1888#64 &&& ~~~(0x19AA ||| 0x11) = s.cfg.mstatusFixed &&& ~~~(0x19AA ||| 0x11) ∧
      BitVec.extractLsb' 11 2 0x1888#64 ≠ 2 ∧
      (∀ n ∈ [15, 0x800000000000000B], BitVec.ofNat 64 n ∈
        ([0, 1, 3, 4, 5, 7, 8, 9, 11].map (fun n => 1#64 <<< 63 ||| BitVec.ofNat 64 n)) ++
          [0, 1, 2, 3, 4, 5, 6, 7, 8, 9, 11, 12, 13, 15].map (fun n => BitVec.ofNat 64 n)) ∧
      s.cfg.sstatusViewMask &&& 0x1888 = 0 ∧ mstatusMpp s.hart.mstatus ≠ 2 ∧
      0x122#64 &&& s.cfg.sstatusViewMask &&& ~~~(0x19AA ||| 0x11) =
        s.cfg.mstatusFixed &&& s.cfg.sstatusViewMask &&& ~~~(0x19AA ||| 0x11) ∧
      (∀ j, j < 8 → ¬(BitVec.getLsbD 0x1F1F1F1F1F1F1F1F#64 (8 * j) = false ∧
        BitVec.getLsbD 0x1F1F1F1F1F1F1F1F#64 (8 * j + 1) = true)) ∧
      let u := machine [] [] fun h => { h with pmpcfg := (h.pmpcfg.set 3 0x80).set 15 0x88 };
      pmpL (u.hart.pmpByte u.cfg 2) = false ∧ pmpL (u.hart.pmpByte u.cfg 3) = true ∧
        pmpA (u.hart.pmpByte u.cfg 3) ≠ 1 ∧ pmpL (u.hart.pmpByte u.cfg 14) = false ∧
        pmpA (u.hart.pmpByte u.cfg 15) = 1 := by decide

theorem witness_SstatusWriteStaysInItsView :
    let s := machine [] [] fun h => { h with mstatus := 0x1888 };
    s.cfg.sstatusViewMask &&& 0x1888 = 0 ∧ s.hart.mstatus &&& ~~~mstatusMod s.cfg = 0 ∧
      s.hart.csrWrite s.cfg .sstatus 0x122 = .ok { s.hart with mstatus := 0x19AA } ∧
      s.cfg.sstatusViewMask.getLsbD 3 = false := by decide

theorem witness_NoCsrWriteChangesMtip :
    let s := machine [] [] fun h => { h with mtipSeen := true };
    s.hart.csrWrite s.cfg .mip 0x888 = .ok s.hart := by decide

/-- A locked TOR entry above an open one, and an entry that is not implemented. -/
theorem witness_LockedPmpEntriesIgnoreWrites :
    let s := machine [] [] fun h => { h with pmpcfg := h.pmpcfg.set 15 0x8B };
    s.hart.csrWrite s.cfg .pmpcfg2 0 = .ok s.hart ∧ pmpL (s.hart.pmpByte s.cfg 15) = true ∧
      pmpA (s.hart.pmpByte s.cfg 15) = 1 ∧ { s.cfg with npmp := 15 }.npmp ≤ 15 := by decide

theorem witness_IllegalCsrWritesAreRefused :
    let c := (machine []).cfg;
    0x20000#64 &&& ~~~(0x19AA ||| 0x11) ≠ c.mstatusFixed &&& ~~~(0x19AA ||| 0x11) ∧
      0x1000#64 &&& ~~~(0x19AA ||| 0x11) = c.mstatusFixed &&& ~~~(0x19AA ||| 0x11) ∧
      BitVec.extractLsb' 11 2 0x1000#64 = 2 ∧ 2 ≤ (BitVec.extractLsb' 0 2 0x10000102#64).toNat ∧
      0x2000#64 &&& c.sstatusViewMask &&& ~~~(0x19AA ||| 0x11) ≠
        c.mstatusFixed &&& c.sstatusViewMask &&& ~~~(0x19AA ||| 0x11) ∧
      (7 < c.npmp ∧ pmpL ((machine []).hart.pmpByte c 7) = false ∧ BitVec.getLsbD 0x0200000000000000#64 56 = false ∧
        BitVec.getLsbD 0x0200000000000000#64 57 = true) ∧
      (∀ n ∈ [10, 16, 0x800000000000000A],
        BitVec.ofNat 64 n ∉ [0, 1, 3, 4, 5, 7, 8, 9, 11].map (fun n => 1#64 <<< 63 ||| BitVec.ofNat 64 n) ∧
        BitVec.ofNat 64 n ∉ [0, 1, 2, 3, 4, 5, 6, 7, 8, 9, 11, 12, 13, 15].map (fun n => BitVec.ofNat 64 n)) ∧
      0 < { c with pmpG := 1 }.pmpG := by decide

/-- An instruction of each kind whose read, or whose write, is refused. -/
theorem witness_IllegalCsrInstructionsAreRefused :
    let s := { machine [(5, 0x1000)] with cfg := { (machine []).cfg with pmpG := 1 } };
    s.hart.priv = .machine ∧ csrOfNumber 0x3B0 = some (.pmpaddr 0) ∧ BitVec.extractLsb' 10 2 0x3B0#12 ≠ 3 ∧
      s.hart.csrRead s.cfg s.cur (.pmpaddr 0) = .error .pmpGranularity ∧ csrOfNumber 0x300 = some .mstatus ∧
      csrOfNumber 0x305 = some .mtvec ∧ s.hart.csrRead s.cfg s.cur .mstatus = .ok 0 ∧
      s.hart.csrRead s.cfg s.cur .mtvec = .ok 0 ∧
      s.hart.csrWrite s.cfg .mstatus (s.getReg 5) = .error .illegalWarlValue ∧
      s.hart.csrWrite s.cfg .mstatus (s.hart.csrRmw s.cfg .mstatus 0 ||| s.getReg 5) = .error .illegalWarlValue ∧
      s.hart.csrWrite s.cfg .mtvec (BitVec.setWidth 64 2#5) = .error .illegalWarlValue ∧
      s.hart.csrWrite s.cfg .mtvec (s.hart.csrRmw s.cfg .mtvec 0 ||| BitVec.setWidth 64 2#5) =
        .error .illegalWarlValue := by decide

/-- A clear that is refused: of mtvec whose stored value, which no run reaches, has MODE 3. -/
theorem witness_IllegalCsrClearsAreRefused :
    let s := machine [(5, 1)] [] fun h => { h with mtvec := 3 };
    s.hart.csrRead s.cfg s.cur .mtvec = .ok 3 ∧
      s.hart.csrWrite s.cfg .mtvec (s.hart.csrRmw s.cfg .mtvec 3 &&& ~~~s.getReg 5) = .error .illegalWarlValue ∧
      s.hart.csrWrite s.cfg .mtvec (s.hart.csrRmw s.cfg .mtvec 3 &&& ~~~BitVec.setWidth 64 1#5) =
        .error .illegalWarlValue := by decide

theorem machine_hart_inv : (machine []).hart.Inv (machine []).cfg := by constructor <;> decide

/-- The masked section with MIE 0 and with MIE 1 before it, and a later state that kept the saved value. -/
theorem witness_MaskedSectionRestoresMstatus :
    (∀ b ∈ [0x1880, 0x1888], let s := machine [] [] fun h => { h with mstatus := BitVec.ofNat 64 b };
      s.Active ∧
        (match exec (.csrrci 8 8 0x300) s with
          | .next t => decide (t.Active ∧ t.cfg = s.cfg ∧ t.hart.priv = .machine)
          | _ => false) = true) ∧
      (machine [] [] fun h => { h with mstatus := 0x1888 }).hart.Inv (machine []).cfg := by
  refine ⟨by decide, ?_⟩
  constructor <;> decide

/-- The first interrupt in the order, and the last alone. -/
theorem witness_TheHighestPriorityInterruptIsTaken :
    let s := machine [] [] fun h => { h with meipIn := true, mtipSeen := true, mipSw := 0x10, mie := 0x890, mstatus := 8 };
    let waiting := s.hart.mipRead s.cfg &&& s.hart.mieRead s.cfg &&& ~~~s.hart.midelegRead s.cfg;
    let u := machine [] [] fun h => { h with mipSw := 0x10, mie := 0x890, mstatus := 8 };
    let last := u.hart.mipRead u.cfg &&& u.hart.mieRead u.cfg &&& ~~~u.hart.midelegRead u.cfg;
    s.Active ∧ mstatusMie s.hart.mstatus = true ∧ waiting.getLsbD 11 = true ∧ u.Active ∧
      mstatusMie u.hart.mstatus = true ∧ last.getLsbD 4 = true ∧
      ∀ b ∈ [InterruptCause.machineExternal, .machineSoftware, .machineTimer, .supervisorExternal, .supervisorSoftware,
        .supervisorTimer, .userExternal, .userSoftware], last.getLsbD b.code = false := by decide

/-- A pending interrupt with MIE 0, and one that is delegated (V-SYS-13, V-SYS-14). -/
theorem witness_NoInterruptWithoutMie :
    (let s := machine [] [] fun h => { h with mtipSeen := true, mie := 0x80 };
      mstatusMie s.hart.mstatus = false) ∧
      let s := machine [] [] fun h => { h with mtipSeen := true, mie := 0x80, mideleg := 0x80, mstatus := 8 };
      ∀ c ∈ interruptPriority, (s.hart.mipRead s.cfg &&& s.hart.mieRead s.cfg).getLsbD c.code = true →
        (s.hart.midelegRead s.cfg).getLsbD c.code = true := by decide

theorem witness_MretReturnsToMepcOrRefuses :
    (let s := machine [] [] fun h => { h with mstatus := 0x1880, mepc := 0x10000040 };
      s.Active ∧ s.hart.priv = .machine ∧ mstatusMpp s.hart.mstatus = 3 ∧ s.hart.mepc.toNat % 4 = 0) ∧
      mstatusMpp (machine []).hart.mstatus ≠ 3 ∧
      (machine [] [] fun h => { h with mstatus := 0x1880, mepc := 0x10000042 }).hart.mepc.toNat % 4 ≠ 0 := by decide

theorem witness_MretUndoesTrapEntry :
    (let s := machine [];
      s.Active ∧ (s.trapEntry true 7).Active ∧ (s.trapEntry true 7).hart.priv = .machine) ∧
      (machine []).hart.Inv (machine []).cfg := ⟨by decide, machine_hart_inv⟩

/-- Each agent's move, with the input held at 0 and not. -/
theorem witness_OtherAgentsMoves :
    { machine [] with agenda := [.timer] }.nextMove = .timer ∧
      { two [] with agenda := [.propagate 1] }.nextMove = .propagate 1 ∧ (two []).mtimecmp[1]? = some 77 ∧
      (two []).harts[1]? = some (Hart.reset (two []).cfg) ∧
      (∀ line ∈ [ExtLine.msip, .meip, .seip],
        { two [] with agenda := [.environment 1 line true] }.nextMove = .environment 1 line true) ∧
      (two []).cfg.extIrq = .none ∧ { (two []).cfg with extIrq := .any }.extIrq = .any := by decide

/-- An interval of 0, a sum that wraps, and a deadline still to come and just reached. -/
theorem witness_DeadlineIsDueWhenReached :
    (∀ n ∈ [0, 0xFFFFFFFFFFFFFFFF, 500], let s := { machine [] with mtime := 1000, mtimecmp := [1000 + BitVec.ofNat 64 n] };
      s.mtimecmp[0]? = some (1000 + BitVec.ofNat 64 n) ∧ (1000#64).toNat ≤ s.mtime.toNat) ∧
      2 ^ 64 ≤ (1000#64).toNat + (0xFFFFFFFFFFFFFFFF#64).toNat ∧ (1000#64).toNat + (500#64).toNat < 2 ^ 64 := by decide

/-- A launch of two harts, two words of TEXT and an EXIT_PC. -/
def launchOfTwo : Launch :=
  { Launch.empty with
    cfg := { Config.default with exitPc := some 0x10000004 }
    text := [0x00000013, 0x0000006F]
    harts := [HartLaunch.zero, HartLaunch.zero]
    mtimecmp := [0, 0] }

theorem witness_ResetSatisfiesTheInvariant : launchOfTwo.Legal ∧ launchOfTwo.oracle = [] := by
  refine ⟨⟨by decide, by decide, by decide, by decide, by simp [launchOfTwo, Launch.empty], ?_⟩, rfl⟩
  intro p hp
  obtain rfl : 0x10000004 = p := by simpa [launchOfTwo] using hp
  exact ⟨by decide, 1, by decide⟩

theorem witness_LaunchResetsEveryHart : (State.launch launchOfTwo).harts ≠ [] ∧ launchOfTwo.cfg.extIrq = .none :=
  ⟨by simp [State.launch, launchOfTwo], rfl⟩

theorem witness_LaunchPlacesTheText : launchOfTwo.text[0]? = some 0x00000013 ∧ launchOfTwo.text[1]? = some 0x0000006F := by
  decide

/-- An exited hart; one stuck at a load and one at its fetch; and a hart whose step ends at `EXIT_PC`. -/
theorem witness_ExitedAndStuckHartsTakeNoStep :
    (let s := machine [] [] fun h => { h with exited := true };
      s.nextMove = .hart 0 false ∧ s.harts[0]? = some { (machine []).hart with exited := true }) ∧
      (let s := (machine []).withFetchWord 32 0x00053303;
      s.nextMove = .hart 0 false ∧ reason (State.hartStep { s with cur := 0 } false) = some (.inl .stuckData)) ∧
      (let s := machine [] [] fun h => { h with pc := 0x10010000 };
      s.nextMove = .hart 0 false ∧ reason (State.hartStep { s with cur := 0 } false) = some (.inl .stuckFetch)) ∧
      (let s := machine [];
      let t := ({ s with cfg := { s.cfg with exitPc := some 0x10000104 } }).withFetchWord 32 0x13;
      t.nextMove = .hart 0 false ∧ t.hartSteps 0 false = true ∧
        (match step t with
          | .next u => decide (t.cfg.exitPc = some u.pc ∧ u.hart.exited = true)
          | _ => false) = true) := by decide

theorem witness_EveryStepKeepsTheInvariant :
    (machine []).Inv ∧ ∃ t, step { machine [] with agenda := [.timer] } = .next t := by
  refine ⟨⟨by decide, by decide, by decide, by decide, ?_⟩, _, rfl⟩
  intro h mem
  have : h = (machine []).hart := by simpa [machine, State.hart, State.reset] using mem
  exact this ▸ machine_hart_inv

theorem witness_EveryStepKeepsSequentialConsistency :
    (machine []).SequentiallyConsistent ∧ ∃ t, step { machine [] with agenda := [.timer] } = .next t := by
  have lists : Lists ([] : List Event) [] := lists_of_check (by decide)
  have same : stepOrder (eventsOf []) = listOrder [] := by funext i j; simp [stepOrder, listOrder, isMemAt, eventIs, eventsOf]
  refine ⟨⟨rfl, by decide, fun _ => isFinalByte_stepOrder.mpr rfl, ?_⟩, _, rfl⟩
  show Consistent _ (eventsOf []) (stepOrder (eventsOf []))
  rw [same]
  exact lists.consistent_iff.mpr (by decide)

theorem witness_OnlyListedInstructionsWriteRegisters :
    (machine []).Active ∧
      (match exec (.lui 5 1) (machine []) with
        | .next t => decide (t.getReg 5 ≠ (machine []).getReg 5)
        | _ => false) = true := by decide

/-- A hart's step, and bytes at both ends of TEXT. -/
theorem witness_EveryStepKeepsOutOfOthersState :
    (∃ t, step ((machine []).withFetchWord 32 0x13) = .next t) ∧
      (machine []).nextMove ≠ .timer ∧ (∀ take, (machine []).nextMove ≠ .hart 1 take) ∧
      (machine []).touchesText 0x10000000 1 = true ∧ (machine []).touchesText 0x1000000F 1 = true ∧
      reason (step ((machine []).withFetchWord 32 0x73)) = some (.inr .outsideBlock) ∧
      reason (step (machine [] [] fun h => { h with pc := 0x10000102 })) = some (.inl .fetchMisaligned) := by
  refine ⟨?_, by decide, by decide, by decide, by decide, by decide, by decide⟩
  have : (match step ((machine []).withFetchWord 32 0x13) with | .next _ => true | _ => false) = true := by decide
  split at this
  · exact ⟨_, by assumption⟩
  · cases this

/-- Hart 0 writes X and releases F; hart 1 acquires F and reads X. -/
def handOff : List Event :=
  [access 0 .write 0x10002000 5, access 0 .amoRead 0x10002008 0 false true, access 0 .amoWrite 0x10002008 1 false true,
    access 1 .read 0x10002008 1 true, access 1 .read 0x10002000 5]

/-- The same with the release by a FENCE. -/
def handOffFence : List Event :=
  [access 0 .write 0x10002000 5, fenceOf 0 fenceRw fenceW, access 0 .write 0x10002008 1, access 1 .read 0x10002008 1 true,
    access 1 .read 0x10002000 5]

/-- Each form of the release. -/
theorem witness_AcquireSeesWhatPrecededTheRelease :
    (let E := eventsOf handOff;
      let gmo := listOrder [0, 1, 2, 3, 4];
      Consistent [] E gmo ∧ poBefore E 0 2 = true ∧ poBefore E 3 4 = true ∧ isMemAt E 0 = true ∧ isMemAt E 4 = true ∧
        IsSource E gmo 3 0x10002008 (some 2) ∧ eventIs E 2 (fun e => e.rl) = true ∧
        eventIs E 3 (fun e => e.readsRam 0x10002008 && e.aq) = true ∧
        eventsAre E 2 3 (fun e f => e.agent != f.agent) = true) ∧
      let E := eventsOf handOffFence;
      let gmo := listOrder [0, 2, 3, 4];
      Consistent [] E gmo ∧ poBefore E 0 1 = true ∧ poBefore E 1 2 = true ∧ poBefore E 3 4 = true ∧
        IsSource E gmo 3 0x10002008 (some 2) ∧ eventIs E 1 (fun e => e.kind == .fence fenceRw fenceW) = true ∧
        eventIs E 0 (fun e => e.space == .ram) = true := by
  have first : Lists handOff [0, 1, 2, 3, 4] := lists_of_check (by decide)
  have second : Lists handOffFence [0, 2, 3, 4] := lists_of_check (by decide)
  exact ⟨⟨first.consistent_iff.mpr (by decide), by decide, by decide, by decide, by decide,
    first.isSource_iff.mpr (by decide), by decide⟩,
    second.consistent_iff.mpr (by decide), by decide, by decide, by decide, second.isSource_iff.mpr (by decide), by decide⟩

/-- Hart 0 acquires and releases the lock at X, then hart 1 acquires it. -/
def lockTwice : List Event :=
  [access 0 .amoRead 0x10002000 0 true, access 0 .amoWrite 0x10002000 1 true, access 0 .amoRead 0x10002000 1 false true,
    access 0 .amoWrite 0x10002000 0 false true, access 1 .amoRead 0x10002000 0 true, access 1 .amoWrite 0x10002000 1 true]

theorem witness_TwoAmosNeverReadTheSameWrite :
    let E := eventsOf lockTwice;
    let gmo := listOrder [0, 1, 2, 3, 4, 5];
    Consistent [] E gmo ∧ paired E 0 1 = true ∧ paired E 4 5 = true ∧ eventIs E 0 (fun e => e.covers 0x10002007) = true ∧
      eventIs E 4 (fun e => e.covers 0x10002007) = true ∧ eventsAre E 0 4 (fun e f => e.agent != f.agent) = true ∧
      IsSource E gmo 0 0x10002007 none := by
  have lists : Lists lockTwice [0, 1, 2, 3, 4, 5] := lists_of_check (by decide)
  exact ⟨lists.consistent_iff.mpr (by decide), by decide, by decide, by decide, by decide, by decide,
    lists.isSource_iff.mpr (by decide)⟩

theorem lockTwice_releases {w : Nat} (h : releases (eventsOf lockTwice) 0x10002000 w) : w = 3 := by
  have lt : w < 6 := eventIs_lt h
  unfold releases at h
  interval_cases w
  · exact absurd h (by decide)
  · exact absurd h (by decide)
  · exact absurd h (by decide)
  · rfl
  · exact absurd h (by decide)
  · exact absurd h (by decide)

theorem witness_LockGivesMutualExclusion :
    let E := eventsOf lockTwice;
    let gmo := listOrder [0, 1, 2, 3, 4, 5];
    Consistent [] E gmo ∧ LockDiscipline [] E 0x10002000 (fun _ => 1) ∧ acquires E 0x10002000 1 ∧
      acquires E 0x10002000 5 ∧ gmo 1 5 = true := by
  refine ⟨consistent_of_check (by decide), ⟨fun _ _ => rfl, ?_, ?_, ?_, ?_⟩, ⟨0, by decide⟩, ⟨4, by decide⟩, by decide⟩
  · intro i x _ _ h
    have lt : i < 6 := eventIs_lt h
    interval_cases i <;> decide
  · intro w h
    have lt : w < 6 := eventIs_lt h
    interval_cases w
    · exact absurd h (by decide)
    · exact .inl ⟨by decide, 0, by decide⟩
    · exact absurd h (by decide)
    · exact .inr (by unfold releases; decide)
    · exact absurd h (by decide)
    · exact .inl ⟨by decide, 4, by decide⟩
  · intro w h
    obtain rfl := lockTwice_releases h
    exact ⟨⟨0, by decide⟩, by decide⟩
  · intro v w hv hw _
    rw [lockTwice_releases hv, lockTwice_releases hw]

end Sys2Proof.Tests
end

section
/-! PROOFS. What one step may touch (00_scope R8, R10; 10_state R11; 70_reset R206): the frame of a hart's step, built
up operation by operation, the end of a hart's step, and the statements about the step that follow from them. -/

namespace Sys2Proof.Machine

variable {s t u : State}

/-! ### The two frames -/

/-- What no move of any agent touches: the program text, the launch memory, the parameters, the marks and the events
already made (10_state R42; 20_memory R58, R77). -/
structure State.SharedFrame (s t : State) : Prop where
  program : ∀ x, s.touchesText x 1 = true → t.ram.read x = s.ram.read x
  image : t.image = s.image
  cfg : t.cfg = s.cfg
  faults : t.faults = s.faults
  refused : t.refused = s.refused
  history : ∃ made, t.history = s.history ++ made

/-- What the executing hart's instruction or trap entry does not touch besides: the other harts, mtime, and its own
exit (60_exceptions R195; 41_timer_arming R120; 70_reset R206). -/
structure State.OwnFrame (s t : State) : Prop extends State.SharedFrame s t where
  cur : t.cur = s.cur
  mtime : t.mtime = s.mtime
  count : t.harts.length = s.harts.length
  others : ∀ k, k ≠ s.cur → t.harts[k]? = s.harts[k]?
  exited : t.hart.exited = s.hart.exited

theorem State.SharedFrame.trans (first : s.SharedFrame t) (second : t.SharedFrame u) : s.SharedFrame u where
  program x inText := by
    have inText' : t.touchesText x 1 = true := by rwa [State.touchesText, first.cfg]
    rw [second.program x inText', first.program x inText]
  image := second.image.trans first.image
  cfg := second.cfg.trans first.cfg
  faults := second.faults.trans first.faults
  refused := second.refused.trans first.refused
  history := by
    obtain ⟨made, hmade⟩ := first.history
    obtain ⟨more, hmore⟩ := second.history
    exact ⟨made ++ more, by rw [hmore, hmade, List.append_assoc]⟩

theorem State.OwnFrame.trans (first : s.OwnFrame t) (second : t.OwnFrame u) : s.OwnFrame u where
  toSharedFrame := first.toSharedFrame.trans second.toSharedFrame
  cur := second.cur.trans first.cur
  mtime := second.mtime.trans first.mtime
  count := second.count.trans first.count
  others k other := by rw [second.others k (by rwa [first.cur]), first.others k other]
  exited := second.exited.trans first.exited

/-- A change of the harts, of the present one and of the choices to come touches nothing that the agents share. -/
theorem State.SharedFrame.ofHarts (s : State) (harts : List Hart) (cur : Nat) (agenda : List Move) (rota : Move) :
    s.SharedFrame { s with harts := harts, cur := cur, agenda := agenda, rota := rota } :=
  ⟨fun _ _ => rfl, rfl, rfl, rfl, rfl, [], (List.append_nil _).symm⟩

theorem State.SharedFrame.passTurn (s : State) : s.SharedFrame s.passTurn := by
  rw [State.passTurn_eq]
  exact .ofHarts s s.harts s.cur _ _

theorem State.SharedFrame.tick (s : State) : s.SharedFrame s.tick :=
  ⟨fun _ _ => rfl, rfl, rfl, rfl, rfl, _, rfl⟩

theorem State.SharedFrame.propagate (s : State) (k : Nat) : s.SharedFrame (s.propagate k) := .ofHarts s _ _ _ _

theorem State.SharedFrame.environment (s : State) (k : Nat) (line : ExtLine) (level : Bool) :
    s.SharedFrame (s.environment k line level) := by
  unfold State.environment
  split
  · exact .ofHarts s _ _ _ _
  · exact .ofHarts s _ _ _ _

/-! ### The frame of each update of the state -/

/-- The executing hart may be replaced by one that has exited no more and no less. -/
theorem State.OwnFrame.setHart {k : Hart} (same : k.exited = s.hart.exited) : s.OwnFrame (s.setHart k) where
  toSharedFrame := .ofHarts s _ _ _ _
  cur := rfl
  mtime := rfl
  count := by simp
  others := State.setHart_other s k
  exited := by
    by_cases active : s.Active
    · rw [State.setHart_hart s k active, same]
    · have kept : s.harts.set s.cur k = s.harts := List.set_eq_of_length_le (Nat.le_of_not_lt active)
      rw [State.setHart, kept]

/-- Outside the harts, an instruction may change the compare registers, memory outside the program, the history at its
end, and the values the model draws from. -/
theorem State.OwnFrame.outsideHarts {slots : List Word} {ram : Memory} {history : List Event}
    {oracle : List (Option Word)} {draws : Nat}
    (program : ∀ x, s.touchesText x 1 = true → ram.read x = s.ram.read x)
    (grown : ∃ made, history = s.history ++ made) :
    s.OwnFrame { s with mtimecmp := slots, ram := ram, history := history, oracle := oracle, draws := draws } :=
  { program, image := rfl, cfg := rfl, faults := rfl, refused := rfl, history := grown, cur := rfl, mtime := rfl,
    count := rfl, others := fun _ _ => rfl, exited := rfl }

theorem State.OwnFrame.withDraws (s : State) (draws : Nat) : s.OwnFrame { s with draws := draws } :=
  .outsideHarts (fun _ _ => rfl) ⟨[], (List.append_nil _).symm⟩

theorem State.OwnFrame.withSlots (s : State) (slots : List Word) : s.OwnFrame { s with mtimecmp := slots } :=
  .outsideHarts (fun _ _ => rfl) ⟨[], (List.append_nil _).symm⟩

theorem State.OwnFrame.withOracle (s : State) (oracle : List (Option Word)) :
    s.OwnFrame { s with oracle := oracle } :=
  .outsideHarts (fun _ _ => rfl) ⟨[], (List.append_nil _).symm⟩

theorem State.OwnFrame.withRam {ram : Memory}
    (program : ∀ x, s.touchesText x 1 = true → ram.read x = s.ram.read x) : s.OwnFrame { s with ram := ram } :=
  .outsideHarts program ⟨[], (List.append_nil _).symm⟩

theorem State.OwnFrame.withEvents (s : State) (made : List Event) :
    s.OwnFrame { s with history := s.history ++ made } :=
  .outsideHarts (fun _ _ => rfl) ⟨made, rfl⟩

@[simp] theorem Hart.setReg_exited (h : Hart) (r : Reg) (v : Word) : (h.setReg r v).exited = h.exited := by
  rw [Hart.setReg_fields]

theorem State.OwnFrame.setReg (s : State) (r : Reg) (v : Word) : s.OwnFrame (s.setReg r v) :=
  .setHart (Hart.setReg_exited _ r v)

theorem State.OwnFrame.setPc (s : State) (a : Word) : s.OwnFrame (s.setPc a) := .setHart rfl

theorem State.OwnFrame.advance (s : State) : s.OwnFrame s.advance := .setPc s _

theorem State.OwnFrame.trapEntry (s : State) (interrupt : Bool) (code : Nat) :
    s.OwnFrame (s.trapEntry interrupt code) := .setHart rfl

theorem State.OwnFrame.trapReturn (s : State) : s.OwnFrame s.trapReturn := .setHart rfl

theorem State.OwnFrame.record (s : State) (kind : EventKind) (space : Space) (a n : Nat) (v : Word) (aq rl : Bool) :
    s.OwnFrame (s.record kind space a n v aq rl) :=
  (State.OwnFrame.setHart (k := { s.hart with events := s.hart.events + 1 }) rfl).trans (.withEvents _ _)

theorem State.OwnFrame.ramRead (s : State) (kind : EventKind) (a n : Nat) (aq rl : Bool) :
    s.OwnFrame (s.ramRead kind a n aq rl) :=
  (State.OwnFrame.record s kind .ram a n (s.loadValue a n) aq rl).trans (.withOracle _ _)

/-- An access that touches no byte of the program text covers none (20_memory R58). -/
theorem State.outside_of_touchesText {a n x : Nat} (data : s.touchesText a n = false)
    (inText : s.touchesText x 1 = true) : x < a ∨ a + n ≤ x := by
  rw [State.touchesText_iff] at inText
  have apart := mt State.touchesText_iff.mpr (by simpa using data)
  omega

theorem State.OwnFrame.ramWrite {a n : Nat} (data : s.touchesText a n = false) (kind : EventKind) (v : Word)
    (aq rl : Bool) : s.OwnFrame (s.ramWrite kind a n v aq rl) :=
  (State.OwnFrame.record s kind .ram a n (truncateBytes n v) aq rl).trans
    (.withRam fun _ inText => Memory.read_writeBytes_other _ _ (State.outside_of_touchesText data inText))

/-! ### The frame of each shared operation -/

theorem State.OwnFrame.ofStop {e : Stop} (h : s.stop e = .next t) : s.OwnFrame t := by
  rcases State.stop_next h with ⟨c, -, rfl⟩ | ⟨-, rfl⟩
  · exact .trapEntry s _ _
  · exact (State.OwnFrame.withDraws s _).trans (.trapEntry _ _ _)

theorem State.OwnFrame.ofResult {rd : Reg} {v : Word} (h : s.result rd v = .next t) : s.OwnFrame t := by
  cases h
  exact (State.OwnFrame.setReg s rd v).trans (.advance _)

theorem State.OwnFrame.ofLoad {addr v : Word} {n : Nat} (h : s.load addr n = .ok (v, t)) : s.OwnFrame t := by
  rcases State.load_ok h with ⟨-, -, ⟨-, -, -, rfl⟩ | ⟨-, -, -, rfl⟩⟩
  · exact .record s _ _ _ _ _ _ _
  · exact .ramRead s _ _ _ _ _

theorem State.OwnFrame.ofStore {addr v : Word} {n : Nat} (h : s.store addr n v = .ok t) : s.OwnFrame t := by
  rcases State.store_ok h with ⟨-, -, ⟨-, -, u, hu, rfl⟩ | ⟨-, data, -, rfl⟩⟩
  · obtain ⟨k, -, -, rfl⟩ := State.timerWrite_some hu
    exact (State.OwnFrame.withSlots s _).trans (.record _ _ _ _ _ _ _ _)
  · exact .ramWrite data _ _ _ _

theorem State.OwnFrame.ofAmo {rd : Reg} {addr : Word} {n : Nat} {f : Word → Option Word} {aq rl : Bool}
    {result : Word → Word} (h : s.amo rd addr n f aq rl result = .next t) : s.OwnFrame t := by
  rcases State.amo_next h with ⟨-, rfl⟩ | ⟨pass, rfl⟩
  · exact .ofStop (e := .misalignedAmo) rfl
  · have accesses : s.OwnFrame (s.atomicRmw addr.toNat n f aq rl) := by
      obtain ⟨-, -, -, data, -⟩ := State.amoCheck_none.mp pass
      unfold State.atomicRmw
      split
      · exact .ramRead s _ _ _ _ _
      · refine (State.OwnFrame.ramRead s _ _ _ _ _).trans (.ramWrite ?_ _ _ _ _)
        exact data
    exact (accesses.trans (.setReg _ _ _)).trans (.advance _)

theorem State.OwnFrame.ofCsr {rd : Reg} {number : BitVec 12} {reads : Bool} {change : Option (Word → Word)}
    (h : s.csrInstruction rd number reads change = .next t) : s.OwnFrame t := by
  rcases State.csrInstruction_next h with ⟨rfl, -⟩ | ⟨r, old, -, -, ⟨-, rfl⟩ | ⟨f, k, -, -, w, rfl⟩⟩
  · exact .trapEntry s _ _
  · exact (State.OwnFrame.setReg s rd old).trans (.advance _)
  · have same : k.exited = s.hart.exited := by rw [Hart.csrWrite_frame w]
    exact ((State.OwnFrame.setHart same).trans (.setReg _ rd old)).trans (.advance _)

theorem State.OwnFrame.ofBranch {taken : Bool} {offset : BitVec 13} (h : s.branch taken offset = .next t) :
    s.OwnFrame t := by
  rcases State.branch_next h with ⟨-, rfl⟩ | ⟨-, -, rfl⟩ | ⟨-, -, -, rfl⟩
  · exact .advance s
  · exact .setPc s _
  · exact .trapEntry s _ _

/-! ### The frame of an instruction and of a hart's step -/

/-- Every instruction that answers a state ends in one of the shared operations; the rows that the spec refuses answer
none (30_encoding R81, R86, R87). -/
theorem State.OwnFrame.ofExec {i : Instr} (h : exec i s = .next t) : s.OwnFrame t := by
  cases i
  case lui | addi | andi | slli | add => exact .ofResult h
  case csrrw | csrrs | csrrc | csrrwi | csrrsi | csrrci => exact .ofCsr h
  case amoswapW | amoswapD | amocasW | amocasD => exact .ofAmo h
  case beq | bne => exact .ofBranch h
  case lw | ld =>
    simp only [exec, execLw, execLd] at h
    split at h
    · exact .ofStop h
    · next loaded =>
      cases h
      exact ((State.OwnFrame.ofLoad loaded).trans (.setReg _ _ _)).trans (.advance _)
  case sw | sd =>
    simp only [exec, execSw, execSd] at h
    split at h
    · exact .ofStop h
    · next stored =>
      cases h
      exact (State.OwnFrame.ofStore stored).trans (.advance _)
  case fence =>
    cases h
    exact (State.OwnFrame.record s _ _ _ _ _ _ _).trans (.advance _)
  case jal rd offset =>
    simp only [exec, execJal] at h
    split at h
    · exact .ofStop h
    · cases h
      exact (State.OwnFrame.setReg s rd _).trans (.setPc _ _)
  case mret =>
    rcases execMret_next h with ⟨-, rfl⟩ | ⟨-, -, -, rfl⟩
    · exact .trapEntry s _ _
    · exact .trapReturn s
  all_goals cases h

theorem State.OwnFrame.ofHartStep {take : Bool} (h : s.hartStep take = .next t) : s.OwnFrame t := by
  rcases State.hartStep_next h with ⟨c, -, -, rfl⟩ | ⟨bytes, i, -, -, ran⟩
  · exact .trapEntry s _ _
  · exact .ofExec ran

/-! ### The end of a hart's step (70_reset R206) -/

@[simp] theorem State.passTurn_harts (s : State) : s.passTurn.harts = s.harts := by rw [State.passTurn_eq]

@[simp] theorem State.passTurn_mtime (s : State) : s.passTurn.mtime = s.mtime := by rw [State.passTurn_eq]

theorem State.SharedFrame.endHartStep (s : State) : s.SharedFrame s.endHartStep := by
  refine State.SharedFrame.trans ?_ (.passTurn s.noteExit)
  rcases State.noteExit_eq s with same | exits
  · rw [same]; exact .ofHarts s s.harts s.cur s.agenda s.rota
  · rw [exits]; exact .ofHarts s _ _ _ _

@[simp] theorem State.endHartStep_mtime (s : State) : s.endHartStep.mtime = s.mtime := by
  rcases State.noteExit_eq s with same | exits
  · rw [State.endHartStep, same, State.passTurn_mtime]
  · rw [State.endHartStep, exits, State.passTurn_mtime, State.setHart_mtime]

/-- The end of a hart's step leaves the other harts. -/
theorem State.endHartStep_other (s : State) {k : Nat} (other : k ≠ s.cur) : s.endHartStep.harts[k]? = s.harts[k]? := by
  rw [State.endHartStep, State.passTurn_harts]
  rcases State.noteExit_eq s with same | exits
  · rw [same]
  · rw [exits, State.setHart_other s _ k other]

/-- The hart whose step ends has exited if its pc is `EXIT_PC`, and is as it was if not. -/
theorem State.endHartStep_own (active : s.Active) : s.endHartStep.harts[s.cur]? =
    some (if s.cfg.exitPc = some s.pc then { s.hart with exited := true } else s.hart) := by
  rw [State.endHartStep, State.passTurn_harts, State.noteExit]
  split
  · simp [active]
  · exact State.getElem?_cur s active

/-! ### One step, by the move whose turn it is -/

/-- A hart takes steps when it is present and has not exited. -/
theorem State.runs_iff {h : Nat} : s.runs h = true ↔ ∃ x, s.harts[h]? = some x ∧ x.exited = false := by
  unfold State.runs
  split <;> simp_all

/-- Stuck is one of the two outcomes of 20_memory R57. -/
theorem Fault.stuck_iff {f : Fault} : f.stuck = true ↔ f = .stuckData ∨ f = .stuckFetch := by
  cases f <;> simp [Fault.stuck]

/-- The step of a hart that has one is that hart's, with its end done. -/
theorem step_of_hartSteps {h : Nat} {take : Bool} (turn : s.nextMove = .hart h take)
    (enabled : s.hartSteps h take = true) : step s = endHartOutcome ({ s with cur := h }.hartStep take) := by
  simp [step, turn, State.makeMove, enabled]

/-- The move of a hart that has no step only passes the turn (log entries 8 and 12). -/
theorem step_of_not_hartSteps {h : Nat} {take : Bool} (turn : s.nextMove = .hart h take)
    (idle : s.hartSteps h take = false) : step s = .next s.passTurn := by
  simp [step, turn, State.makeMove, idle]

/-- A running hart's move, whether the hart is stuck or not. -/
theorem step_of_runs {h : Nat} {take : Bool} (turn : s.nextMove = .hart h take) (runs : s.runs h = true) :
    step s = if isStuck ({ s with cur := h }.hartStep take) = true then .next s.passTurn
      else endHartOutcome ({ s with cur := h }.hartStep take) := by
  split
  · next stuck => exact step_of_not_hartSteps turn (by simp [State.hartSteps, stuck])
  · next free => exact step_of_hartSteps turn (State.hartSteps_iff.mpr ⟨runs, by simpa using free⟩)

/-- A hart that takes no interrupt, at bytes that decode, executes the instruction there (60_exceptions R183). -/
theorem State.hartStep_eq_exec {take : Bool} {bytes : List Byte} {i : Instr}
    (noInterrupt : take = true → s.hart.nextInterrupt s.cfg = none) (fetched : s.fetch = .ok bytes)
    (decoded : decodeBytes bytes = .ok i) : s.hartStep take = exec i s := by
  have runs : s.runInstruction = exec i s := by simp [State.runInstruction, fetched, decoded]
  cases take with
  | false => simpa [State.hartStep] using runs
  | true => simpa [State.hartStep, noInterrupt rfl] using runs

/-- What every step leaves alone, whatever the move. -/
theorem State.SharedFrame.ofStep (h : step s = .next t) : s.SharedFrame t := by
  rcases State.makeMove_next h with ⟨-, rfl⟩ | ⟨k, -, rfl⟩ | ⟨k, line, level, -, rfl⟩ |
    ⟨k, take, -, ⟨-, rfl⟩ | ⟨-, u, ran, rfl⟩⟩
  · exact (State.SharedFrame.tick s).trans (.passTurn _)
  · exact (State.SharedFrame.propagate s k).trans (.passTurn _)
  · exact (State.SharedFrame.environment s k line level).trans (.passTurn _)
  · exact .passTurn s
  · have present : s.SharedFrame { s with cur := k } := .ofHarts s s.harts k s.agenda s.rota
    exact (present.trans (State.OwnFrame.ofHartStep ran).toSharedFrame).trans (.endHartStep u)

/-- A change of one hart leaves the others. -/
theorem State.onHart_other (s : State) {j k : Nat} (f : Hart → Hart) (other : j ≠ k) :
    (s.onHart k f).harts[j]? = s.harts[j]? := by
  rw [State.onHart_harts, List.getElem?_modify_ne f _ (Ne.symm other)]

/-- Only the timer's move changes mtime (41_timer_arming R120). -/
theorem step_next_mtime (h : step s = .next t) (notTimer : s.nextMove ≠ .timer) : t.mtime = s.mtime := by
  rcases State.makeMove_next h with ⟨timer, -⟩ | ⟨k, -, rfl⟩ | ⟨k, line, level, -, rfl⟩ |
    ⟨k, take, -, ⟨-, rfl⟩ | ⟨-, u, ran, rfl⟩⟩
  · exact absurd timer notTimer
  · simp
  · rw [State.passTurn_mtime, State.environment]
    split <;> rfl
  · simp
  · rw [State.endHartStep_mtime, (State.OwnFrame.ofHartStep ran).mtime]

/-- No step changes a hart that its move does not name (60_exceptions R195). -/
theorem step_next_others {j : Nat} (h : step s = .next t) (notHart : ∀ take, s.nextMove ≠ .hart j take)
    (notPropagate : s.nextMove ≠ .propagate j) (notInput : ∀ line level, s.nextMove ≠ .environment j line level) :
    t.harts[j]? = s.harts[j]? := by
  rcases State.makeMove_next h with ⟨-, rfl⟩ | ⟨k, move, rfl⟩ | ⟨k, line, level, move, rfl⟩ |
    ⟨k, take, move, ⟨-, rfl⟩ | ⟨-, u, ran, rfl⟩⟩
  · simp
  · have other : j ≠ k := fun e => notPropagate (e ▸ move)
    rw [State.passTurn_harts, State.propagate, State.onHart_other s _ other]
  · have other : j ≠ k := fun e => notInput line level (e ▸ move)
    rw [State.passTurn_harts, State.environment]
    split
    · rfl
    · rw [State.onHart_other s _ other]
  · simp
  · have own := State.OwnFrame.ofHartStep ran
    have other : j ≠ k := fun e => notHart take (e ▸ move)
    rw [State.endHartStep_other u (by rw [own.cur]; exact other), own.others j other]

/-- After the step of a hart that has one, the hart has exited exactly if its pc is `EXIT_PC` (70_reset R206). -/
theorem step_exits_iff {h : Nat} {take : Bool} {x : Hart} (turn : s.nextMove = .hart h take)
    (enabled : s.hartSteps h take = true) (stepped : step s = .next t) (after : t.harts[h]? = some x) :
    x.exited = true ↔ s.cfg.exitPc = some x.pc := by
  obtain ⟨runs, -⟩ := State.hartSteps_iff.mp enabled
  obtain ⟨y, before, running⟩ := State.runs_iff.mp runs
  rw [step_of_hartSteps turn enabled] at stepped
  obtain ⟨u, ran, rfl⟩ := endHartOutcome_next stepped
  have own := State.OwnFrame.ofHartStep ran
  have cur : u.cur = h := own.cur
  have active : u.Active := by
    rw [State.Active, own.count, cur]
    exact State.runs_lt runs
  have notYet : u.hart.exited = false := by
    rw [own.exited, State.hart_of_getElem? _ before, running]
  have final := State.endHartStep_own active
  rw [cur, after, own.cfg] at final
  split at final
  · next exits =>
    cases final
    exact ⟨fun _ => exits, fun _ => rfl⟩
  · next stays =>
    cases final
    exact ⟨fun exited => by simp [notYet] at exited, fun exits => absurd exits stays⟩

/-! ### The statements -/

/-- Settles O5: a running hart's move is the hart's step (`step_of_runs`), which is exec of the decoded instruction
(`State.hartStep_eq_exec`); then by exec's outcome. -/
theorem stepRunsTheDecodedInstruction : Obligations.StepRunsTheDecodedInstruction := by
  intro s h take bytes i turn runs noInterrupt fetched decoded _
  have stepped := step_of_runs turn runs
  rw [State.hartStep_eq_exec noInterrupt fetched decoded] at stepped
  refine ⟨fun t ran => ?_, fun f ran => ?_, fun r ran => ?_⟩ <;> rw [stepped, ran]
  · rfl
  · simp only [isStuck, Fault.stuck_iff, endHartOutcome]
  · rfl

/-- Settles O53: an exited or stuck hart has no step, so its move is the idle one; the exit is `step_exits_iff`; the end
of the run is `State.ended_iff`. -/
theorem exitedAndStuckHartsTakeNoStep : Obligations.ExitedAndStuckHartsTakeNoStep := by
  refine ⟨fun s h take x turn place halted => ?_, fun s t h take x turn enabled stepped after => ?_,
    fun s => State.ended_iff⟩
  · have idle : s.hartSteps h take = false := by
      rcases halted with exited | stuck | stuck
      · simp [State.hartSteps, State.runs, place, exited]
      · simp [State.hartSteps, stuck, isStuck, Fault.stuck]
      · simp [State.hartSteps, stuck, isStuck, Fault.stuck]
    exact ⟨s.passTurn, step_of_not_hartSteps turn idle, State.passTurn_eq s⟩
  · have exits := step_exits_iff turn enabled stepped after
    exact ⟨exits.mpr, fun stays => by simpa using mt exits.mp stays⟩

/-- Settles O57: the frame of a step that answers a state, by its move; and what the mark of a fault or of a refusal
leaves, by the step's outcome (`State.settle_cases`). -/
theorem everyStepKeepsOutOfOthersState : Obligations.EveryStepKeepsOutOfOthersState := by
  refine ⟨fun s t stepped => ?_, fun s u settled => ?_⟩
  · have shared := State.SharedFrame.ofStep stepped
    exact ⟨fun j => step_next_others stepped, step_next_mtime stepped, shared.program, shared.image, shared.cfg,
      shared.faults, shared.refused, shared.history⟩
  · subst settled
    rcases State.settle_cases s (step s) with ⟨t, out, left⟩ | ⟨f, out, left⟩ | ⟨r, out, left⟩ <;> rw [left, out]
    · exact ⟨fun _ e => by cases e; rfl, nofun, nofun⟩
    · refine ⟨nofun, fun _ e => ?_, nofun⟩
      cases e
      exact ⟨fun g => List.mem_insert_iff, rfl⟩
    · exact ⟨nofun, nofun, fun _ _ => ⟨rfl, rfl⟩⟩

end Sys2Proof.Machine
end

section
/-! PROOFS. Every step keeps the machine's invariant (10_state R16-R39): from the operations of Laws/Invariant to the
instructions, the hart's step with its end, and the other agents' moves; and the statement. -/

namespace Sys2Proof.Machine

variable {s t : State}

/-! ### The instructions and the hart's step -/

theorem State.Inv.result (inv : s.Inv) {rd : Reg} {v : Word} (h : s.result rd v = .next t) : t.Inv := by
  cases h
  exact (inv.setReg rd v).advance

/-- Every instruction that answers a state is one of the shared operations, or an access and the end of one. -/
theorem State.Inv.exec (inv : s.Inv) {i : Instr} (h : exec i s = .next t) : t.Inv := by
  cases i
  case lui | addi | andi | slli | add => exact inv.result h
  case csrrw | csrrs | csrrc | csrrwi | csrrsi | csrrci => exact inv.csr h
  case amoswapW | amoswapD | amocasW | amocasD => exact inv.amo h
  case beq | bne => exact inv.branch h
  case lw | ld =>
    simp only [Machine.exec, execLw, execLd] at h
    split at h
    · exact inv.stop h
    · next loaded =>
      cases h
      exact ((inv.load loaded).setReg _ _).advance
  case sw | sd =>
    simp only [Machine.exec, execSw, execSd] at h
    split at h
    · exact inv.stop h
    · next stored =>
      cases h
      exact (inv.store stored).advance
  case fence =>
    cases h
    exact (inv.record _ _ _ _ _ _ _).advance
  case jal rd offset =>
    simp only [Machine.exec, execJal] at h
    split at h
    · exact inv.stop h
    · next goes =>
      cases h
      exact (inv.setReg rd _).setPc (State.targetStop_none.mp goes)
  case mret =>
    rcases execMret_next h with ⟨-, rfl⟩ | ⟨-, -, aligned, rfl⟩
    · exact inv.raise _
    · exact inv.setHart (inv.hart.trapReturn aligned)
  all_goals cases h

theorem State.Inv.takeInterrupt (inv : s.Inv) (c : InterruptCause) : (s.takeInterrupt c).Inv :=
  inv.trap (interruptCause_legal c)

theorem State.Inv.hartStep (inv : s.Inv) {take : Bool} (h : s.hartStep take = .next t) : t.Inv := by
  rcases State.hartStep_next h with ⟨c, -, -, rfl⟩ | ⟨bytes, i, -, -, ran⟩
  · exact inv.takeInterrupt c
  · exact inv.exec ran

/-! ### The turn, the end of a hart's step, and the other agents -/

theorem State.Inv.passTurn (inv : s.Inv) : s.passTurn.Inv := by
  rw [State.passTurn_eq]
  exact inv.withTurn _ _

theorem State.Inv.withCur (inv : s.Inv) {k : Nat} (exists' : k < s.harts.length) : State.Inv { s with cur := k } :=
  { ramWf := inv.ramWf, ramInside := inv.ramInside, slots := inv.slots, active := exists', harts := inv.harts }

/-- The end of a hart's step sets no more than `exited` (70_reset R206). -/
theorem State.Inv.endHartStep (inv : s.Inv) : s.endHartStep.Inv := by
  refine State.Inv.passTurn ?_
  rcases State.noteExit_eq s with same | exits
  · rw [same]; exact inv
  · rw [exits]; exact inv.setHart inv.hart.withExited

/-- A change of one hart that keeps the hart's invariant. -/
theorem State.Inv.onHart (inv : s.Inv) {k : Nat} {f : Hart → Hart} (keeps : ∀ h : Hart, h.Inv s.cfg → (f h).Inv s.cfg) :
    (s.onHart k f).Inv where
  ramWf := inv.ramWf
  ramInside := inv.ramInside
  slots := by simpa using inv.slots
  active := by simpa [State.Active] using inv.active
  harts := by
    intro h mem
    obtain ⟨j, get⟩ := List.mem_iff_getElem?.mp mem
    rw [State.onHart_harts, List.getElem?_modify] at get
    obtain ⟨x, at_j, rfl⟩ := Option.map_eq_some_iff.mp get
    have invx := inv.harts x (List.mem_of_getElem? at_j)
    split
    · exact keeps x invx
    · exact invx

theorem State.Inv.tick (inv : s.Inv) : s.tick.Inv :=
  { ramWf := inv.ramWf, ramInside := inv.ramInside, slots := inv.slots, active := inv.active, harts := inv.harts }

theorem State.Inv.propagate (inv : s.Inv) (k : Nat) : (s.propagate k).Inv :=
  inv.onHart fun _ hart => hart.withMtipSeen _

theorem State.Inv.environment (inv : s.Inv) (k : Nat) (line : ExtLine) (level : Bool) :
    (s.environment k line level).Inv := by
  unfold State.environment
  split
  · exact inv
  · exact inv.onHart fun _ hart => hart.drive line level

/-! ### The statement -/

/-- Settles O54: by the move whose turn it is (`State.makeMove_next`). -/
theorem everyStepKeepsTheInvariant : Obligations.EveryStepKeepsTheInvariant := by
  intro s t inv stepped
  rcases State.makeMove_next stepped with ⟨-, rfl⟩ | ⟨k, -, rfl⟩ | ⟨k, line, level, -, rfl⟩ |
    ⟨k, take, -, ⟨-, rfl⟩ | ⟨enabled, u, ran, rfl⟩⟩
  · exact inv.tick.passTurn
  · exact (inv.propagate k).passTurn
  · exact (inv.environment k line level).passTurn
  · exact inv.passTurn
  · have runs := (State.hartSteps_iff.mp enabled).1
    exact ((inv.withCur (State.runs_lt runs)).hartStep ran).endHartStep

end Sys2Proof.Machine
end

section
/-! PROOFS. Which general registers an instruction changes (10_state R15): the register frame of each operation, then of
each instruction, and the statement. -/

namespace Sys2Proof.Machine

variable {s t u : State} {rd : Reg}

/-! ### The register frame of the operations -/

/-- Of the executing hart's general registers only `rd` changes; with x0 for `rd`, none does (10_state R13). -/
def State.OnlyReg (s : State) (rd : Reg) (t : State) : Prop := ∀ r, r ≠ rd → t.getReg r = s.getReg r

theorem State.OnlyReg.trans (first : s.OnlyReg rd t) (second : t.OnlyReg rd u) : s.OnlyReg rd u :=
  fun r other => (second r other).trans (first r other)

/-- A change of none but x0 is a change of no register. -/
theorem State.OnlyReg.ofNone (none' : s.OnlyReg 0 t) : s.OnlyReg rd t := by
  intro r _
  by_cases zero : r = 0
  · subst zero; rfl
  · exact none' r zero

/-- The executing hart may be replaced by one with the same registers but `rd`. -/
theorem State.OnlyReg.setHart {k : Hart} (same : ∀ r, r ≠ rd → k.reg r = s.hart.reg r) :
    s.OnlyReg rd (s.setHart k) := by
  intro r other
  by_cases active : s.Active
  · rw [State.getReg_eq, State.setHart_hart s k active, same r other, State.getReg_eq]
  · have kept : s.harts.set s.cur k = s.harts := List.set_eq_of_length_le (Nat.le_of_not_lt active)
    rw [State.setHart, kept]

/-- A hart that takes other values outside its registers keeps them all. -/
theorem State.OnlyReg.setHart_of_regs {k : Hart} (same : k.regs = s.hart.regs) : s.OnlyReg 0 (s.setHart k) :=
  .setHart fun r _ => by rw [Hart.reg, Hart.reg, same]

theorem State.OnlyReg.setReg (s : State) (rd : Reg) (v : Word) : s.OnlyReg rd (s.setReg rd v) :=
  .setHart fun r other => by rw [Hart.setReg_reg, if_neg fun e => other e.1]

theorem State.OnlyReg.setPc (s : State) (a : Word) : s.OnlyReg 0 (s.setPc a) := .setHart_of_regs rfl

theorem State.OnlyReg.advance (s : State) : s.OnlyReg 0 s.advance := .setPc s _

/-- The end of an instruction that writes `rd` and goes on. -/
theorem State.OnlyReg.setReg_advance (s : State) (rd : Reg) (v : Word) : s.OnlyReg rd (s.setReg rd v).advance :=
  (State.OnlyReg.setReg s rd v).trans (State.OnlyReg.advance _).ofNone

theorem State.OnlyReg.trapEntry (s : State) (interrupt : Bool) (code : Nat) :
    s.OnlyReg 0 (s.trapEntry interrupt code) := .setHart_of_regs rfl

theorem State.OnlyReg.trapReturn (s : State) : s.OnlyReg 0 s.trapReturn := .setHart_of_regs rfl

/-- An event changes no register but the count of the hart's events. -/
theorem State.OnlyReg.record (s : State) (kind : EventKind) (space : Space) (a n : Nat) (v : Word) (aq rl : Bool) :
    s.OnlyReg 0 (s.record kind space a n v aq rl) :=
  State.OnlyReg.setHart_of_regs (k := { s.hart with events := s.hart.events + 1 }) rfl

theorem State.OnlyReg.ramRead (s : State) (kind : EventKind) (a n : Nat) (aq rl : Bool) :
    s.OnlyReg 0 (s.ramRead kind a n aq rl) := .record s kind .ram a n (s.loadValue a n) aq rl

theorem State.OnlyReg.ramWrite (s : State) (kind : EventKind) (a n : Nat) (v : Word) (aq rl : Bool) :
    s.OnlyReg 0 (s.ramWrite kind a n v aq rl) := .record s kind .ram a n (truncateBytes n v) aq rl

theorem State.OnlyReg.ofStop {e : Stop} (h : s.stop e = .next t) : s.OnlyReg 0 t := by
  rcases State.stop_next h with ⟨c, -, rfl⟩ | ⟨-, rfl⟩
  · exact .trapEntry s _ _
  · exact State.OnlyReg.trapEntry { s with draws := s.draws + 1 } _ _

theorem State.OnlyReg.ofResult {v : Word} (h : s.result rd v = .next t) : s.OnlyReg rd t := by
  cases h
  exact .setReg_advance s rd v

theorem State.OnlyReg.ofLoad {addr v : Word} {n : Nat} (h : s.load addr n = .ok (v, t)) : s.OnlyReg 0 t := by
  rcases State.load_ok h with ⟨-, -, ⟨-, -, -, rfl⟩ | ⟨-, -, -, rfl⟩⟩
  · exact .record s _ _ _ _ _ _ _
  · exact .ramRead s _ _ _ _ _

theorem State.OnlyReg.ofStore {addr v : Word} {n : Nat} (h : s.store addr n v = .ok t) : s.OnlyReg 0 t := by
  rcases State.store_ok h with ⟨-, -, ⟨-, -, u, hu, rfl⟩ | ⟨-, -, -, rfl⟩⟩
  · obtain ⟨k, -, -, rfl⟩ := State.timerWrite_some hu
    exact State.OnlyReg.record { s with mtimecmp := s.mtimecmp.set k v } _ _ _ _ _ _ _
  · exact .ramWrite s _ _ _ _ _ _

theorem State.OnlyReg.atomicRmw (s : State) (a n : Nat) (f : Word → Option Word) (aq rl : Bool) :
    s.OnlyReg 0 (s.atomicRmw a n f aq rl) := by
  unfold State.atomicRmw
  split
  · exact .ramRead s _ _ _ _ _
  · exact (State.OnlyReg.ramRead s _ _ _ _ _).trans (.ramWrite _ _ _ _ _ _ _)

theorem State.OnlyReg.ofAmo {addr : Word} {n : Nat} {f : Word → Option Word} {aq rl : Bool} {result : Word → Word}
    (h : s.amo rd addr n f aq rl result = .next t) : s.OnlyReg rd t := by
  rcases State.amo_next h with ⟨-, rfl⟩ | ⟨-, rfl⟩
  · exact (State.OnlyReg.ofStop (e := .misalignedAmo) rfl).ofNone
  · exact (State.OnlyReg.atomicRmw s _ _ _ _ _).ofNone.trans (.setReg_advance _ _ _)

theorem State.OnlyReg.ofCsr {number : BitVec 12} {reads : Bool} {change : Option (Word → Word)}
    (h : s.csrInstruction rd number reads change = .next t) : s.OnlyReg rd t := by
  rcases State.csrInstruction_next h with ⟨rfl, -⟩ | ⟨r, old, -, -, ⟨-, rfl⟩ | ⟨f, k, -, -, w, rfl⟩⟩
  · exact (State.OnlyReg.trapEntry s _ _).ofNone
  · exact .setReg_advance s rd old
  · have same : k.regs = s.hart.regs := by rw [Hart.csrWrite_frame w]
    exact (State.OnlyReg.setHart_of_regs same).ofNone.trans (.setReg_advance _ rd old)

theorem State.OnlyReg.ofBranch {taken : Bool} {offset : BitVec 13} (h : s.branch taken offset = .next t) :
    s.OnlyReg 0 t := by
  rcases State.branch_next h with ⟨-, rfl⟩ | ⟨-, -, rfl⟩ | ⟨-, -, -, rfl⟩
  · exact .advance s
  · exact .setPc s _
  · exact .trapEntry s _ _

/-! ### The register an instruction writes -/

end Sys2Proof.Machine

namespace Sys2Proof

/-- The `rd` of the instructions that R15 lists; x0 for the others, which write no register. -/
def Instr.dest : Instr → Reg
  | .lui rd _ | .addi rd _ _ | .andi rd _ _ | .slli rd _ _ | .add rd _ _ | .jal rd _ | .lw rd _ _ | .ld rd _ _ => rd
  | .amoswapW rd _ _ _ _ | .amoswapD rd _ _ _ _ | .amocasW rd _ _ _ _ | .amocasD rd _ _ _ _ => rd
  | .csrrw rd _ _ | .csrrs rd _ _ | .csrrc rd _ _ | .csrrwi rd _ _ | .csrrsi rd _ _ | .csrrci rd _ _ => rd
  | _ => 0

end Sys2Proof

namespace Sys2Proof.Machine

variable {s t : State}

/-- An instruction that answers a state changes no general register but its `rd`. -/
theorem exec_onlyReg {i : Instr} (h : exec i s = .next t) : s.OnlyReg i.dest t := by
  cases i
  case lui | addi | andi | slli | add => exact .ofResult h
  case csrrw | csrrs | csrrc | csrrwi | csrrsi | csrrci => exact .ofCsr h
  case amoswapW | amoswapD | amocasW | amocasD => exact .ofAmo h
  case beq | bne => exact .ofBranch h
  case lw | ld =>
    simp only [exec, execLw, execLd] at h
    split at h
    · exact (State.OnlyReg.ofStop h).ofNone
    · next loaded =>
      cases h
      exact (State.OnlyReg.ofLoad loaded).ofNone.trans (.setReg_advance _ _ _)
  case sw | sd =>
    simp only [exec, execSw, execSd] at h
    split at h
    · exact .ofStop h
    · next stored =>
      cases h
      exact (State.OnlyReg.ofStore stored).trans (.advance _)
  case fence =>
    cases h
    exact (State.OnlyReg.record s _ _ _ _ _ _ _).trans (.advance _)
  case jal rd offset =>
    simp only [exec, execJal] at h
    split at h
    · exact (State.OnlyReg.ofStop h).ofNone
    · cases h
      exact (State.OnlyReg.setReg s rd _).trans (State.OnlyReg.setPc _ _).ofNone
  case mret =>
    rcases execMret_next h with ⟨-, rfl⟩ | ⟨-, -, -, rfl⟩
    · exact .trapEntry s _ _
    · exact .trapReturn s
  all_goals cases h

/-- The register that changed is the instruction's `rd`, and not x0. -/
theorem dest_of_changed {i : Instr} {r : Reg} (h : exec i s = .next t) (changed : t.getReg r ≠ s.getReg r) :
    i.dest = r ∧ i.dest ≠ 0 := by
  have isDest : r = i.dest := by
    by_contra other
    exact changed (exec_onlyReg h r other)
  refine ⟨isDest.symm, fun zero => changed ?_⟩
  rw [isDest, zero]
  rfl

/-- Settles O56: the changed register is `rd` (`dest_of_changed`); an instruction that is not listed has x0 there. -/
theorem onlyListedInstructionsWriteRegisters : Obligations.OnlyListedInstructionsWriteRegisters := by
  intro s t i r _ ran changed
  obtain ⟨isDest, notZero⟩ := dest_of_changed ran changed
  subst isDest
  cases i
  case lui | addi | andi | slli | add | jal | lw | ld | amoswapW | amoswapD | amocasW | amocasD | csrrw | csrrs | csrrc
      | csrrwi | csrrsi | csrrci => simp [Instr.dest]
  all_goals exact absurd rfl notZero

end Sys2Proof.Machine
end

section
/-! PROOFS. The moves of the timer, the propagation and the environment (10_state R11, R37, R38; 41_timer_arming R120,
R126), the values reset gives each hart (70_reset R199-R202), and their statements. -/

namespace Sys2Proof.Machine

variable {s : State}

/-! ### The other agents' moves, each of which always answers a state -/

theorem step_timer (turn : s.nextMove = .timer) : step s = .next s.tick.passTurn := by
  rw [step, turn]; rfl

theorem step_propagate {k : Nat} (turn : s.nextMove = .propagate k) : step s = .next (s.propagate k).passTurn := by
  rw [step, turn]; rfl

theorem step_environment {k : Nat} {line : ExtLine} {level : Bool} (turn : s.nextMove = .environment k line level) :
    step s = .next (s.environment k line level).passTurn := by
  rw [step, turn]; rfl

/-- A change of a hart that exists puts the changed one in its place. -/
theorem State.onHart_of_getElem? {k : Nat} {x : Hart} (place : s.harts[k]? = some x) (f : Hart → Hart) :
    s.onHart k f = { s with harts := s.harts.set k (f x) } := by
  rw [State.onHart, List.modify_eq_set_getElem?, place]
  rfl

theorem State.mtipDev_of_getElem? {k : Nat} {d : Word} (slot : s.mtimecmp[k]? = some d) :
    s.mtipDev k = decide (d.toNat ≤ s.mtime.toNat) := by
  simp [State.mtipDev, slot]

theorem State.environment_none {k : Nat} {line : ExtLine} {level : Bool} (off : s.cfg.extIrq = .none) :
    s.environment k line level = s := by
  simp [State.environment, off]

theorem State.environment_any {k : Nat} {line : ExtLine} {level : Bool} (on : s.cfg.extIrq = .any) :
    s.environment k line level = s.onHart k fun x => x.drive line level := by
  simp [State.environment, on]

/-- Settles O48: each move's step is its agent's operation and the turn passed, which changes the choices to come alone
(`State.passTurn_eq`). -/
theorem otherAgentsMoves : Obligations.OtherAgentsMoves := by
  intro s
  refine ⟨fun turn => ?_, fun k x d turn place slot => ?_, fun k x line level turn place on => ?_,
    fun k line level turn off => ?_⟩
  · refine ⟨_, step_timer turn, ?_, ?_⟩ <;> rw [State.passTurn_eq] <;> rfl
  · refine ⟨_, step_propagate turn, ?_⟩
    rw [State.propagate, State.onHart_of_getElem? place, State.mtipDev_of_getElem? slot]
    exact State.passTurn_eq _
  · refine ⟨_, x.drive line level, step_environment turn, ?_, ?_⟩
    · rw [State.environment_any on, State.onHart_of_getElem? place]
      exact State.passTurn_eq _
    · refine ⟨?_, ?_, ?_⟩ <;> rintro rfl <;> rfl
  · refine ⟨_, step_environment turn, ?_⟩
    rw [State.environment_none off]
    exact State.passTurn_eq _

/-! ### The reset of a launch -/

/-- MIE is 0 at reset (70_reset R199). -/
theorem mstatusMie_resetMstatus (c : Config) (drawn : Word) : mstatusMie (resetMstatus c drawn) = false := by
  have cleared : mstatusMie (withMie (drawn &&& mstatusMod c) false) = false := by
    rw [mstatusMie, withMie, getLsbD_withBit _ _ _ _ (by decide), if_pos rfl]
  unfold resetMstatus
  dsimp only
  split
  · rw [mstatusMie_withMpp, cleared]
  · exact cleared

/-- MPP is a mode that exists at reset (70_reset R199). -/
theorem mstatusMpp_resetMstatus (c : Config) (drawn : Word) : mstatusMpp (resetMstatus c drawn) ≠ 2 := by
  unfold resetMstatus
  dsimp only
  split
  · rw [mstatusMpp_withMpp]
    decide
  · next legal => exact legal

/-- A configuration byte of which reset keeps bits 2:0 has A and L 0. -/
theorem pmp_off_of_reset (b : Byte) : pmpA (b &&& 0x07) = 0 ∧ pmpL (b &&& 0x07) = false := by
  revert b
  decide

/-- Settles O50: every hart of the launch is the reset of its own launch values, whose fields are stated by R199. -/
theorem launchResetsEveryHart : Obligations.LaunchResetsEveryHart := by
  intro l h mem
  obtain ⟨given, -, rfl⟩ := List.mem_map.mp mem
  refine ⟨rfl, rfl, mstatusMie_resetMstatus _ _, mstatusMpp_resetMstatus _ _, fun i => ?_, rfl, rfl, rfl, rfl, rfl, rfl,
    fun off => ?_⟩
  · have byte : (HartLaunch.reset { l.cfg with textWords := l.text.length } given).pmpcfg[i] =
        given.pmpcfg[i] &&& 0x07 := Vector.getElem_map _ _
    rw [byte]
    exact pmp_off_of_reset _
  · simp [HartLaunch.reset, off]

end Sys2Proof.Machine
end

section
/-! PROOFS. Which CSR a number names (10_state R21). -/

namespace Sys2Proof.Machine

/-- A number of which the upper eight bits are 0x3B is 0x3B0 plus its lower four, the index of a pmpaddr register. -/
theorem number_of_pmpaddr {number : BitVec 12} (high : number.extractLsb' 4 8 = 0x3B) :
    0x3B0#12 + BitVec.ofNat 12 (number.extractLsb' 0 4).toFin.val = number := by
  have toNat := congrArg BitVec.toNat high
  apply BitVec.eq_of_toNat_eq
  simp [BitVec.extractLsb'_toNat, Nat.shiftRight_eq_div_pow] at toNat ⊢
  omega

/-- One test of the chain that names a CSR: it names its own, or the chain goes on. -/
theorem ite_some_elim {p : Prop} [Decidable p] {a r : Csr} {rest : Option Csr} {goal : Prop}
    (here : p → a = r → goal) (further : rest = some r → goal) : (if p then some a else rest) = some r → goal := by
  split
  · next holds => exact fun same => here holds (Option.some.inj same)
  · exact further

/-- The table of R21: the numbers and their CSRs, pmpaddr0 to pmpaddr15 last. -/
def csrTable : List (BitVec 12 × Csr) :=
  [(0x300, .mstatus), (0x100, .sstatus), (0x304, .mie), (0x104, .sie), (0x344, .mip), (0x144, .sip), (0x180, .satp),
    (0x302, .medeleg), (0x303, .mideleg), (0x3A0, .pmpcfg0), (0x3A2, .pmpcfg2), (0x340, .mscratch), (0x305, .mtvec),
    (0x341, .mepc), (0x342, .mcause), (0xF14, .mhartid)] ++
    (List.finRange 16).map fun i => (0x3B0#12 + BitVec.ofNat 12 i.val, .pmpaddr i)

theorem csrOfNumber_of_mem_csrTable : ∀ row ∈ csrTable, csrOfNumber row.1 = some row.2 := by decide

/-- A number that names a CSR stands in the table with it: the tests are gone through in turn. -/
theorem mem_csrTable_of_csrOfNumber {number : BitVec 12} {r : Csr} :
    csrOfNumber number = some r → (number, r) ∈ csrTable := by
  unfold csrOfNumber
  iterate 11 refine ite_some_elim (by rintro rfl rfl; decide) ?_
  refine ite_some_elim ?_ ?_
  · rintro high rfl
    exact List.mem_append_right _ (List.mem_map.mpr ⟨_, List.mem_finRange _, congrArg (·, _) (number_of_pmpaddr high)⟩)
  iterate 5 refine ite_some_elim (by rintro rfl rfl; decide) ?_
  exact nofun

/-- Settles O35: the statement's list is `csrTable`. -/
theorem csrNumbersAreTheTable : Obligations.CsrNumbersAreTheTable := fun number r =>
  ⟨mem_csrTable_of_csrOfNumber, csrOfNumber_of_mem_csrTable (number, r)⟩

end Sys2Proof.Machine
end

section
/-! PROOFS. The CSR access unit bit by bit (10_state R22-R34; 40_register_interface R102-R105): the bits of its masks,
of what each read gives, and of what each write stores. -/

namespace Sys2Proof.Machine

variable {c : Config} {h k : Hart} {v : Word}

/-! ### The bits of the masks -/

/-- The bits of a constant, as the list of its set bits. -/
theorem getLsbD_of_list {m : Word} {set : List Nat} (inside : ∀ k : Fin 64, m.getLsbD k = decide (k.val ∈ set))
    (small : ∀ k ∈ set, k < 64) (i : Nat) : m.getLsbD i = decide (i ∈ set) := by
  by_cases lt : i < 64
  · exact inside ⟨i, lt⟩
  · rw [BitVec.getLsbD_of_ge _ _ (by omega), eq_comm, decide_eq_false_iff_not]
    exact fun mem => lt (small i mem)

theorem getLsbD_0x19AA (i : Nat) : (0x19AA#64).getLsbD i = decide (i ∈ [1, 3, 5, 7, 8, 11, 12]) :=
  getLsbD_of_list (by decide) (by decide) i

theorem getLsbD_0x11 (i : Nat) : (0x11#64).getLsbD i = decide (i ∈ [0, 4]) :=
  getLsbD_of_list (by decide) (by decide) i

theorem getLsbD_0x222 (i : Nat) : (0x222#64).getLsbD i = decide (i ∈ [1, 5, 9]) :=
  getLsbD_of_list (by decide) (by decide) i

theorem getLsbD_0x111 (i : Nat) : (0x111#64).getLsbD i = decide (i ∈ [0, 4, 8]) :=
  getLsbD_of_list (by decide) (by decide) i

theorem getLsbD_0x1888 (i : Nat) : (0x1888 : Word).getLsbD i = decide (i ∈ [3, 7, 11, 12]) :=
  getLsbD_of_list (by decide) (by decide) i

theorem getLsbD_0x2 (i : Nat) : (0x2 : Word).getLsbD i = decide (i = 1) := by
  simpa using getLsbD_of_list (m := 0x2) (set := [1]) (by decide) (by decide) i

/-- A mask that gains bits with `UBITS` (00_scope R6). -/
theorem getLsbD_or_ubits (m u : Word) (ubits : Bool) (i : Nat) :
    (m ||| if ubits then u else 0).getLsbD i = (m.getLsbD i || (ubits && u.getLsbD i)) := by
  cases ubits <;> simp

@[simp] theorem getLsbD_mstatusMod (c : Config) (i : Nat) :
    (mstatusMod c).getLsbD i = (decide (i ∈ [1, 3, 5, 7, 8, 11, 12]) || (c.ubits && decide (i ∈ [0, 4]))) := by
  rw [← getLsbD_0x19AA, ← getLsbD_0x11]
  exact getLsbD_or_ubits _ _ _ _

@[simp] theorem getLsbD_mstatusUnmod (i : Nat) (lt : i < 64) :
    mstatusUnmod.getLsbD i = !(decide (i ∈ [1, 3, 5, 7, 8, 11, 12]) || decide (i ∈ [0, 4])) := by
  rw [← getLsbD_0x19AA, ← getLsbD_0x11, ← BitVec.getLsbD_or, mstatusUnmod, BitVec.getLsbD_not,
    decide_eq_true lt, Bool.true_and]
  rfl

@[simp] theorem getLsbD_mipSwMask (c : Config) (i : Nat) :
    (mipSwMask c).getLsbD i = (decide (i ∈ [1, 5, 9]) || (c.ubits && decide (i ∈ [0, 4, 8]))) := by
  rw [← getLsbD_0x222, ← getLsbD_0x111]
  exact getLsbD_or_ubits _ _ _ _

/-- The bits that sie and sip show are the delegated ones below M (R26). -/
@[simp] theorem getLsbD_delegated (c : Config) (h : Hart) (i : Nat) : (h.delegated c).getLsbD i =
    (h.mideleg.getLsbD i && c.midelegWmask.getLsbD i &&
      (decide (i ∈ [1, 5, 9]) || (c.ubits && decide (i ∈ [0, 4, 8])))) := by
  rw [← getLsbD_mipSwMask, Hart.delegated, Hart.midelegRead, BitVec.getLsbD_and, BitVec.getLsbD_and]
  rfl

/-- A write of sip changes SSIP and USIP alone (R26). -/
@[simp] theorem getLsbD_sipWritable (c : Config) (h : Hart) (i : Nat) : (h.sipWritable c).getLsbD i =
    (h.mideleg.getLsbD i && c.midelegWmask.getLsbD i && (i == 1 || (c.ubits && i == 0))) := by
  rw [Hart.sipWritable, BitVec.getLsbD_and, getLsbD_delegated, getLsbD_or_ubits, getLsbD_0x2]
  by_cases one : i = 1
  · subst one; simp
  · by_cases zero : i = 0
    · subst zero; simp
    · simp [one, zero]

@[simp] theorem getLsbD_bitAt (b : Bool) (j i : Nat) (lt : i < 64) : (bitAt b j).getLsbD i = (decide (i = j) && b) := by
  cases b
  · simp [bitAt]
  · simp only [bitAt, if_true, BitVec.getLsbD_shiftLeft, BitVec.getLsbD_one, lt, decide_true, Bool.true_and,
      Bool.and_true]
    grind

/-! ### The bits of the reads (R22, R25, R28, R30) -/

theorem getLsbD_mstatusRead (c : Config) (h : Hart) (i : Nat) (lt : i < 64) : (h.mstatusRead c).getLsbD i =
    if i ∈ [1, 3, 5, 7, 8, 11, 12] then h.mstatus.getLsbD i
    else if i ∈ [0, 4] then c.ubits && h.mstatus.getLsbD i else c.mstatusFixed.getLsbD i := by
  rw [Hart.mstatusRead, BitVec.getLsbD_or, BitVec.getLsbD_and, BitVec.getLsbD_and, getLsbD_mstatusMod,
    getLsbD_mstatusUnmod i lt]
  by_cases always : i ∈ [1, 3, 5, 7, 8, 11, 12]
  · simp only [always]; simp
  · by_cases user : i ∈ [0, 4]
    · simp only [always, user]; simp [Bool.and_comm]
    · simp only [always, user]; simp

/-- mip: the inputs, the seen timer bit and the software bits; SEIP is the or of both (R25). -/
theorem getLsbD_mipRead (c : Config) (h : Hart) (i : Nat) (lt : i < 64) : (h.mipRead c).getLsbD i =
    if i = 3 then h.msipIn else if i = 7 then h.mtipSeen else if i = 11 then h.meipIn
    else if i = 9 then h.mipSw.getLsbD 9 || h.seipIn else if i ∈ [1, 5] then h.mipSw.getLsbD i
    else if i ∈ [0, 4, 8] then c.ubits && h.mipSw.getLsbD i else false := by
  simp only [Hart.mipRead, BitVec.getLsbD_or, BitVec.getLsbD_and, getLsbD_mipSwMask, getLsbD_bitAt _ _ _ lt]
  grind

theorem getLsbD_mipRmw (c : Config) (h : Hart) (i : Nat) (lt : i < 64) :
    (h.mipRmw c).getLsbD i = if i = 9 then h.mipSw.getLsbD 9 else (h.mipRead c).getLsbD i :=
  getLsbD_withBit _ _ _ _ lt

theorem getLsbD_satpRead (c : Config) (h : Hart) (i : Nat) (lt : i < 64) : (h.satpRead c).getLsbD i =
    (h.satp.getLsbD i && !(decide (44 + c.asidLen ≤ i) && decide (i < 60))) := by
  rw [Hart.satpRead, satpReadMask, BitVec.getLsbD_and, BitVec.getLsbD_not, BitVec.getLsbD_shiftLeft,
    BitVec.getLsbD_setWidth, BitVec.getLsbD_shiftLeft]
  simp only [lt, BitVec.getLsbD_allOnes]
  grind

/-- The fold that joins bytes into a word: bit `i` is bit `i % 8` of byte `i / 8`. -/
theorem getLsbD_byte_fold (byte : Nat → Byte) (n i : Nat) (lt : i < 64) :
    ((List.range n).foldl (fun acc k => acc ||| ((byte k).setWidth 64 <<< (8 * k))) (0 : Word)).getLsbD i =
      (decide (i / 8 < n) && (byte (i / 8)).getLsbD (i % 8)) := by
  induction n with
  | zero => simp
  | succ n ih =>
    rw [List.range_succ, List.foldl_append, List.foldl_cons, List.foldl_nil, BitVec.getLsbD_or, ih,
      BitVec.getLsbD_shiftLeft, BitVec.getLsbD_setWidth]
    rcases Nat.lt_trichotomy (i / 8) n with below | at' | above
    · simp [below, lt, show i < 8 * n by omega, show i / 8 < n + 1 by omega]
    · subst at'
      simp [lt, show ¬ i < 8 * (i / 8) by omega, show i - 8 * (i / 8) = i % 8 by omega, show i % 8 < 64 by omega]
    · rw [BitVec.getLsbD_of_ge (byte n) (i - 8 * n) (by omega)]
      simp [show ¬ i / 8 < n by omega, show ¬ i / 8 < n + 1 by omega]

theorem getLsbD_pmpcfgRead (c : Config) (h : Hart) (first i : Nat) (lt : i < 64) : (h.pmpcfgRead c first).getLsbD i =
    (decide (first + i / 8 < c.npmp) && (h.pmpcfg.getD (first + i / 8) 0).getLsbD (i % 8)) := by
  rw [Hart.pmpcfgRead, getLsbD_byte_fold (fun k => h.pmpByte c (first + k)) 8 i lt, Hart.pmpByte]
  have row : i / 8 < 8 := by omega
  by_cases implemented : first + i / 8 < c.npmp
  · simp [row, implemented]
  · simp [implemented]

/-- Both configuration registers are read alike (R30). -/
theorem Hart.csrRead_pmpcfg {id first : Nat} {r : Csr}
    (row : first = 0 ∧ r = Csr.pmpcfg0 ∨ first = 8 ∧ r = Csr.pmpcfg2) :
    h.csrRead c id r = .ok (h.pmpcfgRead c first) := by
  rcases row with ⟨rfl, rfl⟩ | ⟨rfl, rfl⟩ <;> rfl

theorem Hart.csrRead_pmpaddr {id : Nat} (i : Fin 16) (fine : c.pmpG = 0) : h.csrRead c id (.pmpaddr i) =
    .ok (if i.val < c.npmp then h.pmpaddr[i] &&& pmpaddrMask else 0) := by
  simp [Hart.csrRead, Hart.pmpaddrRead, fine]

/-- A set or clear computes from the value read, but for mip (R105; log entry 19). -/
theorem Hart.csrRmw_of_ne_mip {r : Csr} (old : Word) (other : r ≠ .mip) : h.csrRmw c r old = old := by
  unfold Hart.csrRmw
  split
  · exact absurd rfl other
  · rfl

/-- Settles O36: each CSR's read by its own bits. -/
theorem csrReadsGiveTheTableValues : Obligations.CsrReadsGiveTheTableValues := by
  intro c id h
  refine ⟨⟨_, rfl, rfl, getLsbD_mstatusRead c h⟩, ⟨_, _, rfl, rfl, fun i lt => ⟨getLsbD_mipRead c h i lt, ?_, fun _ =>
    getLsbD_mipRmw c h i lt⟩⟩, fun r old => Hart.csrRmw_of_ne_mip old, ⟨_, rfl, rfl, fun i _ => ?_⟩,
    ⟨_, rfl, getLsbD_satpRead c h⟩, fun first r row => ⟨_, Hart.csrRead_pmpcfg row, getLsbD_pmpcfgRead c h first⟩,
    fun i => Hart.csrRead_pmpaddr i, rfl, rfl, rfl, rfl, rfl, rfl, rfl⟩
  · rw [BitVec.getLsbD_and, getLsbD_delegated]
    simp only [Bool.and_assoc]
  · rw [BitVec.getLsbD_and, getLsbD_delegated, Hart.mieRead, BitVec.getLsbD_and]
    simp only [Bool.and_assoc]

end Sys2Proof.Machine
end

section
/-! PROOFS. The writes of the CSRs (10_state R22-R34; 40_register_interface R103-R105): which are accepted, which are
refused and by what name, what an accepted one stores, and what it leaves. -/

namespace Sys2Proof.Machine

variable {c : Config} {h k : Hart} {v : Word}

/-! ### Bits of a word taken from two -/

/-- A word of which the bits of a mask are replaced. -/
theorem getLsbD_replace (w v m : Word) (i : Nat) :
    ((w &&& ~~~m) ||| (v &&& m)).getLsbD i = if m.getLsbD i then v.getLsbD i else w.getLsbD i := by
  by_cases lt : i < 64
  · rw [BitVec.getLsbD_or, BitVec.getLsbD_and, BitVec.getLsbD_and, BitVec.getLsbD_not]
    cases m.getLsbD i <;> simp only [lt] <;> simp
  · simp [BitVec.getLsbD_of_ge _ _ (Nat.le_of_not_lt lt)]

/-- Two words agree within a mask when they agree at each of its bits. -/
theorem and_eq_and_iff {a b m : Word} :
    a &&& m = b &&& m ↔ ∀ i, i < 64 → m.getLsbD i = true → a.getLsbD i = b.getLsbD i := by
  constructor
  · intro same i _ set
    have bit := congrArg (·.getLsbD i) same
    simpa [set] using bit
  · intro bits
    apply BitVec.eq_of_getLsbD_eq
    intro i lt
    rw [BitVec.getLsbD_and, BitVec.getLsbD_and]
    cases set : m.getLsbD i
    · rw [Bool.and_false, Bool.and_false]
    · rw [bits i lt set]

/-- A word within a mask has no bit outside it. -/
theorem getLsbD_and_of_masked {w m : Word} (within : w &&& ~~~m = 0) (i : Nat) :
    (w.getLsbD i && m.getLsbD i) = w.getLsbD i := by
  by_cases lt : i < 64
  · have bit := masked_iff.mp within i lt
    rw [BitVec.getLsbD_eq_getElem lt, BitVec.getLsbD_eq_getElem lt]
    cases set : w[i]
    · rfl
    · rw [bit set]; rfl
  · simp [BitVec.getLsbD_of_ge w _ (Nat.le_of_not_lt lt)]

theorem mstatusMpp_congr {a b : Word} (low : a.getLsbD 11 = b.getLsbD 11) (high : a.getLsbD 12 = b.getLsbD 12) :
    mstatusMpp a = mstatusMpp b := by
  unfold mstatusMpp
  apply BitVec.eq_of_getLsbD_eq
  intro i lt
  obtain rfl | rfl : i = 0 ∨ i = 1 := by omega
  · simpa using low
  · simpa using high

/-! ### mstatus, and sstatus through its view (R22, R23, R104) -/

/-- A write of mstatus is accepted if it keeps the unmodelled bits and names no reserved mode, and stores the modelled
bits. -/
theorem Hart.mstatusWrite_ok_iff : h.mstatusWrite c v = .ok k ↔
    v &&& mstatusUnmod = c.mstatusFixed &&& mstatusUnmod ∧ mstatusMpp v ≠ 2 ∧
      k = { h with mstatus := v &&& mstatusMod c } := by
  unfold Hart.mstatusWrite
  split
  · next changed => simp [changed]
  · next kept =>
    split
    · next reserved => simp [reserved]
    · next legal => exact ⟨fun e => ⟨not_not.mp kept, legal, by cases e; rfl⟩, fun ⟨_, _, e⟩ => by rw [e]⟩

theorem Hart.mstatusWrite_unmodelled (changed : v &&& mstatusUnmod ≠ c.mstatusFixed &&& mstatusUnmod) :
    h.mstatusWrite c v = .error .unmodelledCsrBits := if_pos changed

theorem Hart.mstatusWrite_reserved (kept : v &&& mstatusUnmod = c.mstatusFixed &&& mstatusUnmod)
    (reserved : mstatusMpp v = 2) : h.mstatusWrite c v = .error .illegalWarlValue := by
  rw [Hart.mstatusWrite, if_neg (not_not.mpr kept), if_pos reserved]

/-- What a write of sstatus writes to mstatus: the value in the view, what mstatus reads outside (R103). -/
def Hart.throughView (c : Config) (h : Hart) (v : Word) : Word :=
  (h.mstatusRead c &&& ~~~c.sstatusViewMask) ||| (v &&& c.sstatusViewMask)

theorem Hart.csrWrite_sstatus : h.csrWrite c .sstatus v = h.mstatusWrite c (h.throughView c v) := rfl

theorem Hart.getLsbD_throughView (c : Config) (h : Hart) (v : Word) (i : Nat) : (h.throughView c v).getLsbD i =
    if c.sstatusViewMask.getLsbD i then v.getLsbD i else (h.mstatusRead c).getLsbD i :=
  getLsbD_replace _ _ _ _

/-- What is outside the modelled bits reads as fixed. -/
theorem getLsbD_mstatusRead_of_unmod (c : Config) (h : Hart) {i : Nat} (lt : i < 64)
    (unmodelled : mstatusUnmod.getLsbD i = true) : (h.mstatusRead c).getLsbD i = c.mstatusFixed.getLsbD i := by
  rw [getLsbD_mstatusUnmod i lt, Bool.not_eq_true', Bool.or_eq_false_iff, decide_eq_false_iff_not,
    decide_eq_false_iff_not] at unmodelled
  rw [getLsbD_mstatusRead c h i lt, if_neg unmodelled.1, if_neg unmodelled.2]

/-- A modelled bit reads as it is stored. -/
theorem getLsbD_mstatusRead_of_mod (c : Config) (h : Hart) (i : Nat) :
    ((h.mstatusRead c).getLsbD i && (mstatusMod c).getLsbD i) = (h.mstatus.getLsbD i && (mstatusMod c).getLsbD i) := by
  by_cases lt : i < 64
  · rw [getLsbD_mstatusRead c h i lt, getLsbD_mstatusMod]
    split
    · rfl
    · next other =>
      split
      · next user => rw [decide_eq_false other, decide_eq_true user]; cases c.ubits <;> simp
      · next neither => rw [decide_eq_false other, decide_eq_false neither]; simp
  · simp [BitVec.getLsbD_of_ge _ _ (Nat.le_of_not_lt lt)]

/-- A write of sstatus keeps the unmodelled bits of mstatus if it keeps those of its view. -/
theorem Hart.throughView_unmod_iff :
    h.throughView c v &&& mstatusUnmod = c.mstatusFixed &&& mstatusUnmod ↔
      v &&& c.sstatusViewMask &&& mstatusUnmod = c.mstatusFixed &&& c.sstatusViewMask &&& mstatusUnmod := by
  rw [and_eq_and_iff, and_eq_and_iff]
  refine forall_congr' fun i => forall_congr' fun lt => forall_congr' fun unmodelled => ?_
  rw [Hart.getLsbD_throughView, getLsbD_mstatusRead_of_unmod c h lt unmodelled, BitVec.getLsbD_and, BitVec.getLsbD_and]
  cases c.sstatusViewMask.getLsbD i <;> simp

/-- MIE, MPIE and MPP are outside a view that meets none of their bits. -/
theorem view_excludes (apart : c.sstatusViewMask &&& 0x1888 = 0) {i : Nat} (machine : i ∈ [3, 7, 11, 12]) :
    c.sstatusViewMask.getLsbD i = false := by
  have bit : (c.sstatusViewMask &&& 0x1888).getLsbD i = false := by rw [apart]; simp
  rw [BitVec.getLsbD_and] at bit
  exact (Bool.and_eq_false_iff.mp bit).resolve_right (by rw [getLsbD_0x1888, decide_eq_true machine]; decide)

theorem Hart.mstatusMpp_throughView (apart : c.sstatusViewMask &&& 0x1888 = 0) :
    mstatusMpp (h.throughView c v) = mstatusMpp h.mstatus := by
  apply mstatusMpp_congr
  · rw [Hart.getLsbD_throughView, view_excludes apart (by decide), getLsbD_mstatusRead c h 11 (by decide)]; rfl
  · rw [Hart.getLsbD_throughView, view_excludes apart (by decide), getLsbD_mstatusRead c h 12 (by decide)]; rfl

/-- A write of sstatus that is accepted stores the value in the modelled bits of the view, and keeps the others. -/
theorem Hart.getLsbD_throughView_mod (c : Config) (h : Hart) (v : Word) (i : Nat) :
    (h.throughView c v &&& mstatusMod c).getLsbD i =
      ((if c.sstatusViewMask.getLsbD i then v.getLsbD i else h.mstatus.getLsbD i) && (mstatusMod c).getLsbD i) := by
  rw [BitVec.getLsbD_and, Hart.getLsbD_throughView]
  split
  · rfl
  · exact getLsbD_mstatusRead_of_mod c h i

/-- Settles O38: the accepted write stores `throughView`, of which the bits outside the view are those stored before. -/
theorem sstatusWriteStaysInItsView : Obligations.SstatusWriteStaysInItsView := by
  intro c h k v i apart within written
  obtain ⟨-, -, rfl⟩ := Hart.mstatusWrite_ok_iff.mp (Hart.csrWrite_sstatus.symm.trans written)
  have kept : ∀ j, c.sstatusViewMask.getLsbD j = false →
      (h.throughView c v &&& mstatusMod c).getLsbD j = h.mstatus.getLsbD j := by
    intro j outside
    rw [Hart.getLsbD_throughView_mod, outside]
    exact getLsbD_and_of_masked within j
  have machine : ∀ j ∈ [3, 7, 11, 12], (h.throughView c v &&& mstatusMod c).getLsbD j = h.mstatus.getLsbD j :=
    fun j mem => kept j (view_excludes apart mem)
  exact ⟨kept i, machine 3 (by decide), machine 7 (by decide),
    mstatusMpp_congr (machine 11 (by decide)) (machine 12 (by decide))⟩

/-! ### mtvec and mcause (R32, R34) -/

theorem mtvecLegal_direct (direct : v.extractLsb' 0 2 = 0) : mtvecLegal v = true := by
  simp [mtvecLegal, direct]

theorem mtvecLegal_reserved (reserved : 2 ≤ (v.extractLsb' 0 2).toNat) : mtvecLegal v = false := by
  have zero : v.extractLsb' 0 2 ≠ 0 := fun e => by simp [e] at reserved
  have one : v.extractLsb' 0 2 ≠ 1 := fun e => by simp [e] at reserved
  rw [mtvecLegal, if_neg zero, if_neg one]

/-- The legal values of mcause, the interrupts and the exceptions (R34). -/
def mcauseTable : List Word :=
  ([0, 1, 3, 4, 5, 7, 8, 9, 11].map fun n => 1#64 <<< 63 ||| BitVec.ofNat 64 n) ++
    [0, 1, 2, 3, 4, 5, 6, 7, 8, 9, 11, 12, 13, 15].map fun n => BitVec.ofNat 64 n

/-- A value of mcause is the trap cause of its top bit and the code below it. -/
theorem trapCause_of_bits (v : Word) : trapCause (v.getLsbD 63) (v.extractLsb' 0 63).toNat = v := by
  apply BitVec.eq_of_getLsbD_eq
  intro i lt
  unfold trapCause
  have code : (BitVec.ofNat 64 (v.extractLsb' 0 63).toNat).getLsbD i = (decide (i < 63) && v.getLsbD i) := by
    rw [BitVec.getLsbD_ofNat, ← BitVec.getLsbD, BitVec.getLsbD_extractLsb']
    simp [lt]
  have interrupt : (1#64 <<< 63).getLsbD i = decide (i = 63) := by
    rw [getLsbD_of_list (set := [63]) (by decide) (by decide)]
    simp
  rw [BitVec.getLsbD_or, code]
  by_cases top : i = 63
  · subst top
    cases v.getLsbD 63 <;> simp
  · have below : i < 63 := by omega
    cases v.getLsbD 63
    · simp [below]
    · rw [if_pos rfl, interrupt]
      simp [below, top]

theorem mcauseLegal_iff : mcauseLegal v = true ↔ v ∈ mcauseTable := by
  constructor
  · intro legal
    unfold mcauseLegal at legal
    have shape := trapCause_of_bits v
    unfold trapCause at shape
    rw [mcauseTable, List.mem_append, List.mem_map, List.mem_map]
    split at legal
    · next top =>
      rw [if_pos top] at shape
      exact .inl ⟨_, List.contains_iff_mem.mp legal, shape⟩
    · next top =>
      rw [if_neg top] at shape
      simp only [BitVec.ofNat_eq_ofNat, BitVec.zero_or] at shape
      exact .inr ⟨_, List.contains_iff_mem.mp legal, shape⟩
  · intro mem
    rcases List.mem_append.mp mem with interrupt | exception
    · obtain ⟨n, code, rfl⟩ := List.mem_map.mp interrupt
      revert n
      decide
    · obtain ⟨n, code, rfl⟩ := List.mem_map.mp exception
      revert n
      decide

/-! ### The PMP registers (R30) -/

/-- Both configuration registers are written alike. -/
theorem Hart.csrWrite_pmpcfg {first : Nat} {r : Csr} (row : first = 0 ∧ r = Csr.pmpcfg0 ∨ first = 8 ∧ r = Csr.pmpcfg2) :
    h.csrWrite c r v = h.pmpcfgWrite c first v := by
  rcases row with ⟨rfl, rfl⟩ | ⟨rfl, rfl⟩ <;> rfl

theorem Hart.pmpcfgOpen_iff {i : Nat} : h.pmpcfgOpen c i = true ↔ i < c.npmp ∧ pmpL (h.pmpByte c i) = false := by
  simp [Hart.pmpcfgOpen]

theorem Hart.pmpaddrOpen_iff {i : Nat} : h.pmpaddrOpen c i = true ↔ i < c.npmp ∧ pmpL (h.pmpByte c i) = false ∧
    ¬(pmpL (h.pmpByte c (i + 1)) = true ∧ pmpA (h.pmpByte c (i + 1)) = 1) := by
  have above (b : Byte) : (!(pmpL b && pmpA b == 1)) = true ↔ ¬(pmpL b = true ∧ pmpA b = 1) := by
    rw [Bool.not_eq_true', ← Bool.not_eq_true, Bool.and_eq_true, beq_iff_eq]
  rw [Hart.pmpaddrOpen, Bool.and_eq_true, Hart.pmpcfgOpen_iff, above, and_assoc]

theorem pmpReserved_byteOf (v : Word) (j : Nat) :
    pmpReserved (byteOf v j) = true ↔ v.getLsbD (8 * j) = false ∧ v.getLsbD (8 * j + 1) = true := by
  simp [pmpReserved, byteOf]

/-- The writes of eight configuration bytes that are refused (log entry 15). -/
theorem Hart.pmpcfgWrite_reserved {first j : Nat} (lt : j < 8) (open' : h.pmpcfgOpen c (first + j) = true)
    (reserved : pmpReserved (byteOf v j) = true) : h.pmpcfgWrite c first v = .error .illegalWarlValue :=
  if_pos (List.any_eq_true.mpr ⟨j, List.mem_range.mpr lt, by rw [open', reserved]; rfl⟩)

/-- The writes that are accepted. -/
theorem Hart.pmpcfgWrite_accepted {first : Nat}
    (legal : ∀ j, j < 8 → h.pmpcfgOpen c (first + j) = true → ¬pmpReserved (byteOf v j) = true) :
    ∃ k, h.pmpcfgWrite c first v = .ok k := by
  refine ⟨_, if_neg fun found => ?_⟩
  obtain ⟨j, mem, both⟩ := List.any_eq_true.mp found
  obtain ⟨open', reserved⟩ := Bool.and_eq_true_iff.mp both
  exact legal j (List.mem_range.mp mem) open' reserved

/-- What a write of pmpaddr stores in its own register. -/
theorem Hart.pmpaddrWrite_own (c : Config) (h : Hart) (i : Fin 16) (v : Word) :
    (h.pmpaddrWrite c i v).pmpaddr[i] = if h.pmpaddrOpen c i.val = true then v &&& pmpaddrMask else h.pmpaddr[i] := by
  unfold Hart.pmpaddrWrite
  split
  · exact Vector.getElem_set_self _
  · rfl

/-- No CSR write changes the configuration byte of an entry that takes no write of it. -/
theorem Hart.csrWrite_pmpcfg_kept {r : Csr} (w : h.csrWrite c r v = .ok k) {i : Fin 16}
    (closed : ¬h.pmpcfgOpen c i.val = true) : k.pmpcfg[i] = h.pmpcfg[i] := by
  cases r
  case pmpcfg0 | pmpcfg2 => rw [(Hart.pmpcfgWrite_ok w).2 i, if_neg fun takes => closed takes.2.2]
  case pmpaddr j => rw [(Hart.csrWrite_only w).1]
  all_goals
    have only := Hart.csrWrite_only w
    simp only [Hart.OnlyCsr] at only
    rw [only]

/-- No CSR write changes the address of an entry that takes no write of it. -/
theorem Hart.csrWrite_pmpaddr_kept {r : Csr} (w : h.csrWrite c r v = .ok k) {i : Fin 16}
    (closed : ¬h.pmpaddrOpen c i.val = true) : k.pmpaddr[i] = h.pmpaddr[i] := by
  cases r
  case pmpcfg0 | pmpcfg2 => rw [(Hart.csrWrite_only w).1]
  case pmpaddr j =>
    by_cases own : i = j
    · subst own
      cases w
      rw [Hart.pmpaddrWrite_own, if_neg closed]
    · exact (Hart.csrWrite_only w).2 i own
  all_goals
    have only := Hart.csrWrite_only w
    simp only [Hart.OnlyCsr] at only
    rw [only]

/-- The configuration of an entry is its byte if it is implemented, and else 0. -/
theorem Hart.pmpByte_fin (c : Config) (h : Hart) (i : Fin 16) :
    h.pmpByte c i = if i.val < c.npmp then h.pmpcfg[i] else 0 := by
  unfold Hart.pmpByte
  split
  · simp [Vector.getD]
  · rfl

/-- Settles O40: a locked entry takes no write of its byte or address, nor does the entry below a locked TOR entry take
one of its address. -/
theorem lockedPmpEntriesIgnoreWrites : Obligations.LockedPmpEntriesIgnoreWrites := by
  intro c h k r v i w
  refine ⟨fun locked => ⟨?_, Hart.csrWrite_pmpaddr_kept w fun open' => ?_⟩, fun j above locked tor =>
    Hart.csrWrite_pmpaddr_kept w fun open' => ?_, fun beyond => ?_⟩
  · have closed : ¬h.pmpcfgOpen c i.val = true := by simp [Hart.pmpcfgOpen_iff, locked]
    rw [Hart.pmpByte_fin, Hart.pmpByte_fin, Hart.csrWrite_pmpcfg_kept w closed]
  · have unlocked := (Hart.pmpaddrOpen_iff.mp open').2.1
    rw [locked] at unlocked
    cases unlocked
  · rw [above] at locked tor
    exact (Hart.pmpaddrOpen_iff.mp open').2.2 ⟨locked, tor⟩
  · rw [Hart.pmpByte_fin, if_neg (Nat.not_lt.mpr beyond)]

/-! ### Every write that is accepted (R103) -/

/-- Settles O37: each CSR's write by its own lemma. -/
theorem csrWritesStoreTheTableValues : Obligations.CsrWritesStoreTheTableValues := by
  intro c h v
  refine ⟨⟨_, rfl, rfl⟩, ⟨_, rfl, ?sie⟩, ⟨_, rfl, ?mip⟩, ⟨_, rfl, ?sip⟩, ⟨_, rfl, ?satp⟩, ⟨_, rfl, rfl⟩, ⟨_, rfl, rfl⟩,
    ⟨_, rfl, rfl⟩, ?mtvecDirect, ?mtvec, ⟨_, rfl, rfl⟩, ?mcause, ?mstatus, ?sstatus, ?pmpcfg,
    fun i => ⟨_, rfl, ?pmpaddr⟩⟩
  case sie =>
    intro i
    rw [getLsbD_replace, BitVec.getLsbD_and, getLsbD_delegated]
    simp only [Bool.and_assoc, Bool.and_comm (c.mieWmask.getLsbD i)]
  case mip =>
    intro i
    rw [BitVec.getLsbD_and, getLsbD_mipSwMask]
  case sip =>
    intro i
    rw [getLsbD_replace, getLsbD_sipWritable]
  case satp =>
    simp only [satpModeLegal, List.contains_iff_mem]
    split <;> rfl
  case mtvecDirect => exact fun direct => ⟨_, if_pos (mtvecLegal_direct direct), rfl⟩
  case mtvec =>
    intro k w
    simp only [Hart.csrWrite] at w
    split at w <;> cases w
    rfl
  case mcause => exact fun legal => ⟨_, if_pos (mcauseLegal_iff.mpr legal), rfl⟩
  case mstatus =>
    intro kept legal
    refine ⟨_, Hart.mstatusWrite_ok_iff.mpr ⟨kept, legal, rfl⟩, fun i => ?_⟩
    rw [BitVec.getLsbD_and, getLsbD_mstatusMod]
  case sstatus =>
    intro apart legal kept
    rw [← Hart.mstatusMpp_throughView (v := v) apart] at legal
    refine ⟨{ h with mstatus := h.throughView c v &&& mstatusMod c },
      Hart.mstatusWrite_ok_iff.mpr ⟨Hart.throughView_unmod_iff.mpr kept, legal, rfl⟩, fun i => ?_⟩
    rw [Hart.getLsbD_throughView_mod, getLsbD_mstatusMod]
  case pmpcfg =>
    intro first r row legal
    have accepted : ∀ j, j < 8 → h.pmpcfgOpen c (first + j) = true → ¬pmpReserved (byteOf v j) = true := by
      intro j lt open'
      obtain ⟨implemented, unlocked⟩ := Hart.pmpcfgOpen_iff.mp open'
      rw [pmpReserved_byteOf]
      exact legal j lt implemented unlocked
    obtain ⟨k, w⟩ := Hart.pmpcfgWrite_accepted accepted
    refine ⟨k, (Hart.csrWrite_pmpcfg row).trans w, fun i => ?_⟩
    simp only [(Hart.pmpcfgWrite_ok w).2 i, Hart.pmpcfgOpen_iff, pmpStored, byteOf]
  case pmpaddr =>
    simp only [Hart.pmpaddrWrite_own, Hart.pmpaddrOpen_iff]
    rfl

/-! ### The refusals, and the instructions that end in them (R96-R101) -/

/-- M-mode may access every CSR (R98). -/
theorem csrAllowed_machine {p : Priv} (machine : p = .machine) (number : BitVec 12) : csrAllowed p number = true := by
  rw [machine, csrAllowed, decide_eq_true_eq]
  exact Nat.le_of_lt_succ (number.extractLsb' 8 2).isLt

theorem csrReadOnly_of_ne {number : BitVec 12} (writable : number.extractLsb' 10 2 ≠ 3) :
    csrReadOnly number = false := by
  simpa [csrReadOnly] using writable

section
variable {s : State} {rd : Reg} {number : BitVec 12} {r : Csr} {e : Refusal} {reads : Bool}
  (machine : s.hart.priv = .machine) (named : csrOfNumber number = some r) (writable : number.extractLsb' 10 2 ≠ 3)
include machine named writable

/-- The read decides, if it refuses. -/
theorem State.csrInstruction_read_refused {change : Option (Word → Word)}
    (read : s.hart.csrRead s.cfg s.cur r = .error e) : s.csrInstruction rd number true change = .refused e := by
  simp [State.csrInstruction, named, csrAllowed_machine machine, csrReadOnly_of_ne writable, read]

/-- The write decides, if the read does not refuse or is not made. -/
theorem State.csrInstruction_write_refused {f : Word → Word} {old : Word}
    (read : (if reads then s.hart.csrRead s.cfg s.cur r else .ok 0) = .ok old)
    (write : s.hart.csrWrite s.cfg r (f (s.hart.csrRmw s.cfg r old)) = .error e) :
    s.csrInstruction rd number reads (some f) = .refused e := by
  simp only [State.csrInstruction, named, csrAllowed_machine machine, csrReadOnly_of_ne writable, read, write,
    Bool.not_true, Bool.and_false, Bool.false_eq_true, if_false]

/-- CSRRW and CSRRWI: only with a destination is there a read that may refuse (R100). -/
theorem State.csrSwap_write_refused {src old : Word} (read : rd ≠ 0 → s.hart.csrRead s.cfg s.cur r = .ok old)
    (write : s.hart.csrWrite s.cfg r src = .error e) : s.csrSwap rd number src = .refused e := by
  by_cases zero : rd = 0
  · exact State.csrInstruction_write_refused machine named writable (old := 0) (if_neg (by simp [zero])) write
  · have reads : (rd != 0) = true := by simpa using zero
    exact State.csrInstruction_write_refused machine named writable ((if_pos reads).trans (read zero)) write

theorem State.csrSwap_read_refused {src : Word} (dest : rd ≠ 0) (read : s.hart.csrRead s.cfg s.cur r = .error e) :
    s.csrSwap rd number src = .refused e := by
  have reads : (rd != 0) = true := by simpa using dest
  rw [State.csrSwap, reads]
  exact State.csrInstruction_read_refused machine named writable read

/-- CSRRS and CSRRSI that name a write. -/
theorem State.csrSet_write_refused {mask old : Word} {writes : Bool} (made : writes = true)
    (read : s.hart.csrRead s.cfg s.cur r = .ok old)
    (write : s.hart.csrWrite s.cfg r (s.hart.csrRmw s.cfg r old ||| mask) = .error e) :
    s.csrSet rd number writes mask = .refused e := by
  rw [State.csrSet, if_pos made]
  exact State.csrInstruction_write_refused machine named writable read write

/-- CSRRC and CSRRCI that name a write. -/
theorem State.csrClear_write_refused {mask old : Word} {writes : Bool} (made : writes = true)
    (read : s.hart.csrRead s.cfg s.cur r = .ok old)
    (write : s.hart.csrWrite s.cfg r (s.hart.csrRmw s.cfg r old &&& ~~~mask) = .error e) :
    s.csrClear rd number writes mask = .refused e := by
  rw [State.csrClear, if_pos made]
  exact State.csrInstruction_write_refused machine named writable read write

end

/-- Settles O41: the refusals of the writes and reads, and then the instructions by which of the two refuses. -/
theorem illegalCsrWritesAreRefused : Obligations.IllegalCsrWritesAreRefused := by
  constructor
  · intro c h v
    refine ⟨Hart.mstatusWrite_unmodelled, Hart.mstatusWrite_reserved, fun changed => ?sstatus,
      fun first r j row lt implemented unlocked low high => ?pmpcfg, fun reserved => ?mtvec,
      fun interrupt exception => ?mcause,
      fun coarse i id => if_pos (Nat.pos_iff_ne_zero.mp coarse)⟩
    case sstatus => exact Hart.mstatusWrite_unmodelled (mt Hart.throughView_unmod_iff.mp changed)
    case pmpcfg =>
      rw [Hart.csrWrite_pmpcfg row]
      exact Hart.pmpcfgWrite_reserved lt (Hart.pmpcfgOpen_iff.mpr ⟨implemented, unlocked⟩)
        ((pmpReserved_byteOf v j).mpr ⟨low, high⟩)
    case mtvec => simp [Hart.csrWrite, mtvecLegal_reserved reserved]
    case mcause =>
      refine if_neg (mt mcauseLegal_iff.mp fun legal => ?_)
      exact (List.mem_append.mp legal).elim interrupt exception
  · intro s rd rs1 uimm number r e machine named writable
    refine ⟨fun read => ⟨fun i mem => ?_, fun dest i mem => ?_⟩, fun i src old form read write => ?_,
      fun i old new read form write => ?_⟩
    · simp only [List.mem_cons, List.not_mem_nil, or_false] at mem
      rcases mem with rfl | rfl | rfl | rfl <;> exact State.csrInstruction_read_refused machine named writable read
    · simp only [List.mem_cons, List.not_mem_nil, or_false] at mem
      rcases mem with rfl | rfl <;> exact State.csrSwap_read_refused machine named writable dest read
    · rcases form with ⟨rfl, rfl⟩ | ⟨rfl, rfl⟩ <;> exact State.csrSwap_write_refused machine named writable read write
    · rcases form with ⟨made, rfl, rfl⟩ | ⟨made, rfl, rfl⟩ | ⟨made, rfl, rfl⟩ | ⟨made, rfl, rfl⟩
      · exact State.csrSet_write_refused machine named writable (by simpa using made) read write
      · exact State.csrClear_write_refused machine named writable (by simpa using made) read write
      · exact State.csrSet_write_refused machine named writable (by simpa using made) read write
      · exact State.csrClear_write_refused machine named writable (by simpa using made) read write

end Sys2Proof.Machine
end

section
/-! PROOFS. The simulator (20_memory R79): under the step order every clause of `Consistent` but the values holds of any
events, so a step keeps consistency when each read it makes returns the byte of RAM and each write it makes stores its
own bytes; then operation by operation to the statements. -/

namespace Sys2Proof.Machine

variable {s t : State}

/-! ### The two events of an AMO (20_memory R62) -/

/-- The paired events of an AMO, with what they have in common. -/
theorem paired_events {E : Events} {i j : Nat} (pair : paired E i j = true) :
    j = i + 1 ∧ ∃ e f, E i = some e ∧ E j = some f ∧ e.kind = .amoRead ∧ f.kind = .amoWrite ∧ e.ofHart = true ∧
      e.agent = f.agent ∧ e.space = .ram ∧ f.space = .ram ∧ e.addr = f.addr ∧ e.size = f.size := by
  simp only [paired, Bool.and_eq_true, decide_eq_true_eq, eventsAre_some, beq_iff_eq, and_assoc] at pair
  exact pair

/-- An AMO reads what it covers. -/
theorem readsRam_of_paired {E : Events} {i j x : Nat} (pair : paired E i j = true)
    (cover : eventIs E i (fun e => e.covers x) = true) : eventIs E i (fun e => e.readsRam x) = true := by
  obtain ⟨-, e, -, he, -, kind, -, -, -, space, -⟩ := paired_events pair
  simp_all [eventIs, Event.readsRam, EventKind.isRead]

/-- An AMO writes what its read covers. -/
theorem writesRam_of_paired {E : Events} {i j x : Nat} (pair : paired E i j = true)
    (cover : eventIs E i (fun e => e.covers x) = true) : eventIs E j (fun e => e.writesRam x) = true := by
  obtain ⟨-, e, f, he, hf, -, kind, -, -, -, space, addr, size⟩ := paired_events pair
  simp_all [eventIs, Event.writesRam, EventKind.isWrite, Event.covers]

/-! ### The axioms under the step order -/

/-- In step order nothing stands between the two events of an AMO, so no write can (20_memory R66). -/
theorem amosAtomic_stepOrder (E : Events) : AmosAtomic E (stepOrder E) := by
  intro i j x src pair cover source
  have read := readsRam_of_paired pair cover
  have write := writesRam_of_paired pair cover
  obtain rfl := paired_next pair
  have returned {k : Nat} (foreign : foreignWrite E (i + 1) x k = true) (before : stepOrder E k (i + 1) = true) :
      candidate E (stepOrder E) i x k = true ∧ k < i := by
    obtain ⟨e, f, he, -, made⟩ := eventsAre_some.mp foreign
    have writes : eventIs E k (fun e => e.writesRam x) = true :=
      eventIs_some.mpr ⟨e, he, (Bool.and_eq_true_iff.mp made).1⟩
    have ne : k ≠ i := by
      rintro rfl
      simp [not_reads_and_writes read] at writes
    have lt : k < i := by
      have := (stepOrder_iff.mp before).1
      omega
    have order : stepOrder E k i = true :=
      stepOrder_iff.mpr ⟨lt, isMemAt_of_writesRam writes, isMemAt_of_readsRam read⟩
    exact ⟨by simp [candidate, writes, order], lt⟩
  cases src with
  | none =>
    intro k foreign
    by_contra before
    have := (returned foreign (by simpa using before)).1
    simp [source k] at this
  | some w =>
    obtain ⟨chosen, latest⟩ := source
    simp only [candidate, Bool.and_eq_true, Bool.or_eq_true] at chosen
    have lt : w < i := chosen.2.elim (fun order => (stepOrder_iff.mp order).1) poBefore_lt
    refine ⟨stepOrder_iff.mpr ⟨by omega, isMemAt_of_writesRam chosen.1, isMemAt_of_writesRam write⟩, ?_⟩
    rintro k foreign ⟨after, before⟩
    have later := (stepOrder_iff.mp after).1
    have earlier := (stepOrder_iff.mp (latest k (returned foreign before).1 (by omega))).1
    omega

/-- Under the step order an execution is consistent when each read returns the last write before it (20_memory R79). -/
theorem consistent_stepOrder_iff {image : Memory} {E : Events} : Consistent image E (stepOrder E) ↔
    ∀ i e x, E i = some e → e.readsRam x = true → e.byteAt x = sourceByte image E (lastWriteBefore E i x) x := by
  have source {i : Nat} {e : Event} {x : Nat} (he : E i = some e) (read : e.readsRam x = true) :=
    isSource_stepOrder (eventIs_some.mpr ⟨e, he, read⟩)
  constructor
  · intro consistent i e x he read
    obtain ⟨src, returned, value⟩ := consistent.loadValues i e x he read
    rwa [IsLatest.unique consistent.order returned (source he read)] at value
  · intro values
    refine ⟨stepOrder_isTotalOrder E, stepOrder_progress E, ?ppo,
      fun i e x he read => ⟨_, source he read, values i e x he read⟩, amosAtomic_stepOrder E, ?device⟩
    case ppo =>
      rintro i j ⟨po, mem, -⟩
      obtain ⟨e, f, he, hf, kinds⟩ := eventsAre_some.mp mem
      simp only [Bool.and_eq_true] at kinds
      exact stepOrder_iff.mpr ⟨poBefore_lt po, eventIs_some.mpr ⟨e, he, kinds.1⟩, eventIs_some.mpr ⟨f, hf, kinds.2⟩⟩
    case device =>
      intro i j lt mem
      obtain ⟨e, f, he, hf, kinds⟩ := eventsAre_some.mp mem
      simp only [Bool.and_eq_true, and_assoc] at kinds
      exact stepOrder_iff.mpr ⟨lt, eventIs_some.mpr ⟨e, he, kinds.1⟩, eventIs_some.mpr ⟨f, hf, kinds.2.1⟩⟩

/-! ### A change of the machine that makes no event, and one that makes one -/

namespace State.SequentiallyConsistent

/-- A byte of RAM is that of the last write to it. -/
theorem ram_read (sc : s.SequentiallyConsistent) (x : Nat) :
    s.ram.read x = sourceByte s.image (eventsOf s.history) (lastWrite s.history x) x :=
  isFinalByte_stepOrder.mp (sc.ramAgrees x)

/-- What makes no event and leaves the memory keeps the simulator's states. -/
theorem congr (sc : s.SequentiallyConsistent) (oracle : t.oracle = s.oracle) (ram : t.ram = s.ram)
    (image : t.image = s.image) (history : t.history = s.history) : t.SequentiallyConsistent := by
  obtain ⟨noOracle, ramWf, ramAgrees, consistent⟩ := sc
  constructor <;> simpa only [oracle, ram, image, history]

/-- One event more: a read of it returns the bytes of RAM, and RAM changes as its write says. -/
theorem append {e : Event} (sc : s.SequentiallyConsistent) (oracle : t.oracle = []) (wf : t.ram.wf)
    (image : t.image = s.image) (history : t.history = s.history ++ [e])
    (reads : ∀ x, e.readsRam x = true → e.byteAt x = s.ram.read x)
    (writes : ∀ x, t.ram.read x = if e.writesRam x then e.byteAt x else s.ram.read x) : t.SequentiallyConsistent where
  noOracle := oracle
  ramWf := wf
  ramAgrees x := by
    rw [isFinalByte_stepOrder, image, history, sourceByte_lastWrite_append, writes x, sc.ram_read x]
  consistent := by
    rw [image, history]
    refine consistent_stepOrder_iff.mpr fun i f x hf read => ?_
    have le : i ≤ s.history.length := by
      have := eventsOf_lt hf
      simp only [List.length_append, List.length_singleton] at this
      omega
    rw [lastWriteBefore_append le, sourceByte_append fun j hj => (lastWriteBefore_some hj).1.trans_le le]
    rcases le.lt_or_eq with old | rfl
    · rw [eventsOf_append old] at hf
      exact consistent_stepOrder_iff.mp sc.consistent i f x hf read
    · obtain rfl : e = f := by simpa [eventsOf_last] using hf
      exact (reads x read).trans (sc.ram_read x)

/-- An event that touches no byte of RAM: a fence, or a device access. -/
theorem appendOutside {e : Event} (sc : s.SequentiallyConsistent) (oracle : t.oracle = s.oracle) (ram : t.ram = s.ram)
    (image : t.image = s.image) (history : t.history = s.history ++ [e])
    (outside : e.kind.isMem = false ∨ e.space = .device) : t.SequentiallyConsistent := by
  have untouched (x : Nat) : e.readsRam x = false ∧ e.writesRam x = false := by
    rcases outside with fence | device
    · simp_all [Event.readsRam, Event.writesRam, EventKind.isMem]
    · simp [Event.readsRam, Event.writesRam, device]
  refine sc.append (oracle.trans sc.noOracle) (ram ▸ sc.ramWf) image history (fun x read => ?_) fun x => ?_
  · simp [(untouched x).1] at read
  · simp [ram, (untouched x).2]

end State.SequentiallyConsistent

/-! ### The accesses -/

/-- The simulator reads the bytes in step order (20_memory R79). -/
theorem State.loadValue_of_noOracle (noOracle : s.oracle = []) (a n : Nat) :
    s.loadValue a n = s.ram.readBytes a n := by
  simp [State.loadValue, noOracle]

namespace State.SequentiallyConsistent

variable {a n : Nat}

theorem ramRead (sc : s.SequentiallyConsistent) (width : n = 4 ∨ n = 8) {kind : EventKind}
    (read : kind.isWrite = false) (aq rl : Bool) : (s.ramRead kind a n aq rl).SequentiallyConsistent := by
  refine sc.append (e := s.event 0 kind .ram a n (s.loadValue a n) aq rl) (by simp [sc.noOracle]) sc.ramWf rfl rfl
    (fun x reads => ?_) fun x => ?_
  · obtain ⟨lo, hi⟩ : a ≤ x ∧ x < a + n := by simpa [Event.covers, State.event] using covers_of_readsRam reads
    rw [State.loadValue_of_noOracle sc.noOracle]
    exact readBytes_byte s.ram (by omega) lo hi
  · simp [Event.writesRam, State.event, read]

theorem ramWrite (sc : s.SequentiallyConsistent) (width : n = 4 ∨ n = 8) {kind : EventKind}
    (write : kind.isWrite = true) (v : Word) (aq rl : Bool) :
    (s.ramWrite kind a n v aq rl).SequentiallyConsistent := by
  have notRead : kind.isRead = false := by cases kind <;> simp_all [EventKind.isRead, EventKind.isWrite]
  refine sc.append (e := s.event 0 kind .ram a n (truncateBytes n v) aq rl) sc.noOracle
    (Memory.writeBytes_wf sc.ramWf a n v) rfl rfl (fun x reads => ?_) fun x => ?_
  · simp [Event.readsRam, State.event, notRead] at reads
  · rw [State.ramWrite_ram]
    by_cases inside : a ≤ x ∧ x < a + n
    · have stored := Memory.read_writeBytes sc.ramWf a (n := n) (k := x - a) v (by omega)
      rw [Nat.add_sub_cancel' inside.1] at stored
      rw [stored, if_pos (by simp [Event.writesRam, State.event, write, Event.covers, inside])]
      exact (truncateBytes_byte v width (by omega)).symm
    · rw [Memory.read_writeBytes_other _ _ (by omega), if_neg]
      simp [Event.writesRam, State.event, Event.covers]
      omega

/-- A device access. -/
theorem recordDevice (sc : s.SequentiallyConsistent) (kind : EventKind) (v : Word) (aq rl : Bool) :
    (s.record kind .device a n v aq rl).SequentiallyConsistent :=
  sc.appendOutside rfl rfl rfl rfl (.inr rfl)

theorem load (sc : s.SequentiallyConsistent) (width : n = 4 ∨ n = 8) {addr v : Word}
    (h : s.load addr n = .ok (v, t)) : t.SequentiallyConsistent := by
  rcases State.load_ok h with ⟨-, -, ⟨-, -, -, rfl⟩ | ⟨-, -, -, rfl⟩⟩
  · exact sc.recordDevice _ _ _ _
  · exact sc.ramRead width rfl _ _

theorem store (sc : s.SequentiallyConsistent) (width : n = 4 ∨ n = 8) {addr v : Word}
    (h : s.store addr n v = .ok t) : t.SequentiallyConsistent := by
  rcases State.store_ok h with ⟨-, -, ⟨-, -, u, hu, rfl⟩ | ⟨-, -, -, rfl⟩⟩
  · obtain ⟨k, -, -, rfl⟩ := State.timerWrite_some hu
    exact sc.appendOutside rfl rfl rfl rfl (.inr rfl)
  · exact sc.ramWrite width rfl _ _ _

theorem atomicRmw (sc : s.SequentiallyConsistent) (width : n = 4 ∨ n = 8) (f : Word → Option Word) (aq rl : Bool) :
    (s.atomicRmw a n f aq rl).SequentiallyConsistent := by
  unfold State.atomicRmw
  split
  · exact sc.ramRead width rfl _ _
  · exact (sc.ramRead width rfl _ _).ramWrite width rfl _ _ _

/-! ### The instructions -/

theorem stop (sc : s.SequentiallyConsistent) {e : Stop} (h : s.stop e = .next t) : t.SequentiallyConsistent := by
  rcases State.stop_next h with ⟨c, -, rfl⟩ | ⟨-, rfl⟩ <;> exact sc.congr rfl rfl rfl rfl

theorem amo (sc : s.SequentiallyConsistent) (width : n = 4 ∨ n = 8) {rd : Reg} {addr : Word}
    {f : Word → Option Word} {aq rl : Bool} {result : Word → Word} (h : s.amo rd addr n f aq rl result = .next t) :
    t.SequentiallyConsistent := by
  rcases State.amo_next h with ⟨-, rfl⟩ | ⟨-, rfl⟩
  · exact sc.congr rfl rfl rfl rfl
  · exact (sc.atomicRmw width f aq rl).congr rfl rfl rfl rfl

theorem csr (sc : s.SequentiallyConsistent) {rd : Reg} {number : BitVec 12} {reads : Bool}
    {change : Option (Word → Word)} (h : s.csrInstruction rd number reads change = .next t) :
    t.SequentiallyConsistent := by
  rcases State.csrInstruction_next h with ⟨rfl, -⟩ | ⟨r, old, -, -, ⟨-, rfl⟩ | ⟨f, k, -, -, -, rfl⟩⟩ <;>
    exact sc.congr rfl rfl rfl rfl

theorem branch (sc : s.SequentiallyConsistent) {taken : Bool} {offset : BitVec 13}
    (h : s.branch taken offset = .next t) : t.SequentiallyConsistent := by
  rcases State.branch_next h with ⟨-, rfl⟩ | ⟨-, -, rfl⟩ | ⟨-, -, -, rfl⟩ <;> exact sc.congr rfl rfl rfl rfl

theorem exec (sc : s.SequentiallyConsistent) {i : Instr} (h : exec i s = .next t) : t.SequentiallyConsistent := by
  cases i
  case lui | addi | andi | slli | add =>
    cases h
    exact sc.congr rfl rfl rfl rfl
  case csrrw | csrrs | csrrc | csrrwi | csrrsi | csrrci => exact sc.csr h
  case amoswapW | amocasW => exact sc.amo (.inl rfl) h
  case amoswapD | amocasD => exact sc.amo (.inr rfl) h
  case beq | bne => exact sc.branch h
  case lw | ld =>
    simp only [Machine.exec, execLw, execLd] at h
    split at h
    · exact sc.stop h
    · next loaded =>
      cases h
      exact (sc.load (by simp) loaded).congr rfl rfl rfl rfl
  case sw | sd =>
    simp only [Machine.exec, execSw, execSd] at h
    split at h
    · exact sc.stop h
    · next stored =>
      cases h
      exact (sc.store (by simp) stored).congr rfl rfl rfl rfl
  case fence =>
    cases h
    exact sc.appendOutside rfl rfl rfl rfl (.inl rfl)
  case jal =>
    simp only [Machine.exec, execJal] at h
    split at h
    · exact sc.stop h
    · cases h
      exact sc.congr rfl rfl rfl rfl
  case mret =>
    rcases execMret_next h with ⟨-, rfl⟩ | ⟨-, -, -, rfl⟩ <;> exact sc.congr rfl rfl rfl rfl
  all_goals cases h

/-! ### The moves -/

theorem hartStep (sc : s.SequentiallyConsistent) {take : Bool} (h : s.hartStep take = .next t) :
    t.SequentiallyConsistent := by
  rcases State.hartStep_next h with ⟨c, -, -, rfl⟩ | ⟨bytes, i, -, -, ran⟩
  · exact sc.congr rfl rfl rfl rfl
  · exact sc.exec ran

theorem passTurn (sc : s.SequentiallyConsistent) : s.passTurn.SequentiallyConsistent := by
  rw [State.passTurn_eq]
  exact sc.congr rfl rfl rfl rfl

theorem endHartStep (sc : s.SequentiallyConsistent) : s.endHartStep.SequentiallyConsistent := by
  refine passTurn ?_
  rcases State.noteExit_eq s with same | exits
  · rw [same]; exact sc
  · rw [exits]; exact sc.congr rfl rfl rfl rfl

theorem environment (sc : s.SequentiallyConsistent) (k : Nat) (line : ExtLine) (level : Bool) :
    (s.environment k line level).SequentiallyConsistent := by
  unfold State.environment
  split
  · exact sc
  · exact sc.congr rfl rfl rfl rfl

end State.SequentiallyConsistent

/-! ### The statements -/

/-- Settles O55: by the move whose turn it is (`State.makeMove_next`); only the timer's tick and the accesses of an
instruction make events. -/
theorem everyStepKeepsSequentialConsistency : Obligations.EveryStepKeepsSequentialConsistency := by
  intro s t sc stepped
  rcases State.makeMove_next stepped with ⟨-, rfl⟩ | ⟨k, -, rfl⟩ | ⟨k, line, level, -, rfl⟩ |
    ⟨k, take, -, ⟨-, rfl⟩ | ⟨-, u, ran, rfl⟩⟩
  · have ticked : s.tick.SequentiallyConsistent := sc.appendOutside rfl rfl rfl (State.tick_history s) (.inr rfl)
    exact ticked.passTurn
  · have copied : (s.propagate k).SequentiallyConsistent := sc.congr rfl rfl rfl rfl
    exact copied.passTurn
  · exact (sc.environment k line level).passTurn
  · exact sc.passTurn
  · have present : State.SequentiallyConsistent { s with cur := k } := sc.congr rfl rfl rfl rfl
    exact (present.hartStep ran).endHartStep

/-- Settles O18: each byte by `readBytes_byte`; above them every bit is 0 (`Memory.getLsbD_readBytes`). -/
theorem simulatorLoadIsTheBytes : Obligations.SimulatorLoadIsTheBytes := by
  intro s a n noOracle width
  rw [State.loadValue_of_noOracle noOracle]
  constructor
  · intro k lt
    simpa using readBytes_byte s.ram (a := a) (n := n) (x := a + k) (by omega) (by omega) (by omega)
  · refine Nat.lt_pow_two_of_testBit _ fun i high => ?_
    rw [← BitVec.getLsbD, Memory.getLsbD_readBytes _ _ _ _ (by omega)]
    simp [show ¬ i < 8 * n by omega]

end Sys2Proof.Machine
end

section
/-! PROOFS. Consistent executions, finite or not (20_memory R63-R67): what a release and an acquire order, that two AMOs
never read the same write, and from these the mutual exclusion of the lock (42_atomic_lock R155). -/

namespace Sys2Proof.Machine

variable {image : Memory} {E : Events} {gmo : Order}

/-! ### Agents -/

/-- The events at two places are those of two agents. -/
def agentsDiffer (E : Events) (i j : Nat) : Bool := eventsAre E i j fun e f => e.agent != f.agent

/-- Program order is within one hart. -/
theorem not_poBefore_of_agentsDiffer {i j : Nat} (differ : agentsDiffer E i j = true) : poBefore E i j = false := by
  obtain ⟨e, f, he, hf, ne⟩ := eventsAre_some.mp differ
  simp_all [poBefore, eventsAre]

theorem foreignWrite_iff {j x k : Nat} : foreignWrite E j x k = true ↔
    eventIs E k (fun e => e.writesRam x) = true ∧ agentsDiffer E k j = true := by
  simp only [foreignWrite, agentsDiffer, eventIs, eventsAre]
  cases E k <;> cases E j <;> simp

theorem Event.ofHart_congr {e f : Event} (agent : e.agent = f.agent) : e.ofHart = f.ofHart := by
  simp [Event.ofHart, agent]

/-! ### Sources and program order in `gmo` -/

/-- A source writes the byte. -/
theorem writesRam_of_isSource {i x j : Nat} (source : IsSource E gmo i x (some j)) :
    eventIs E j (fun e => e.writesRam x) = true := (Bool.and_eq_true_iff.mp source.1).1

/-- The source of another hart's read precedes it (20_memory R65). -/
theorem gmo_of_isSource {i x j : Nat} (source : IsSource E gmo i x (some j)) (differ : agentsDiffer E j i = true) :
    gmo j i = true := by
  have chosen := (Bool.and_eq_true_iff.mp source.1).2
  simpa [not_poBefore_of_agentsDiffer differ] using chosen

theorem bothMem_of_isMemAt {i j : Nat} (left : isMemAt E i = true) (right : isMemAt E j = true) :
    eventsAre E i j (fun e f => e.kind.isMem && f.kind.isMem) = true := by
  obtain ⟨e, he, ke⟩ := eventIs_some.mp left
  obtain ⟨f, hf, kf⟩ := eventIs_some.mp right
  exact eventsAre_some.mpr ⟨e, f, he, hf, by simp [ke, kf]⟩

namespace Consistent

/-- An acquire precedes what follows it (R64 clause 5). -/
theorem gmo_of_acquire (h : Consistent image E gmo) {i j : Nat} (po : poBefore E i j = true)
    (acquire : eventIs E i (fun e => e.aq) = true) (left : isMemAt E i = true) (right : isMemAt E j = true) :
    gmo i j = true :=
  h.keepsPpo i j ⟨po, bothMem_of_isMemAt left right, .inr (.inr (.inr (.inr (.inl acquire))))⟩

/-- A release follows what precedes it (R64 clause 6). -/
theorem gmo_of_release (h : Consistent image E gmo) {i j : Nat} (po : poBefore E i j = true)
    (release : eventIs E j (fun e => e.rl) = true) (left : isMemAt E i = true) (right : isMemAt E j = true) :
    gmo i j = true :=
  h.keepsPpo i j ⟨po, bothMem_of_isMemAt left right, .inr (.inr (.inr (.inr (.inr (.inl release)))))⟩

/-- FENCE RW,W between a RAM access and a write of RAM orders them (R64 clause 4, R71). -/
theorem gmo_of_fence (h : Consistent image E gmo) {i k j x : Nat} (before : poBefore E i k = true)
    (after : poBefore E k j = true) (po : poBefore E i j = true)
    (fence : eventIs E k (fun e => e.kind == .fence fenceRw fenceW) = true)
    (ram : eventIs E i (fun e => e.space == .ram) = true) (mem : isMemAt E i = true)
    (write : eventIs E j (fun e => e.writesRam x) = true) : gmo i j = true := by
  refine h.keepsPpo i j ⟨po, bothMem_of_isMemAt mem (isMemAt_of_writesRam write),
    .inr (.inr (.inr (.inl ⟨k, before, after, ?_⟩)))⟩
  obtain ⟨g, hg, kind⟩ := eventIs_some.mp fence
  obtain ⟨e, he, space⟩ := eventIs_some.mp ram
  obtain ⟨f, hf, writes⟩ := eventIs_some.mp write
  simp_all [eventIs, eventsAre, isMemAt, fenceOrders, Event.inSet, fenceRw, fenceW, Event.writesRam, EventKind.isMem]

/-- A write follows the writes of its hart to the same byte (R64 clause 1). -/
theorem gmo_of_writes (h : Consistent image E gmo) {i j x : Nat} (po : poBefore E i j = true)
    (first : eventIs E i (fun e => e.writesRam x) = true) (second : eventIs E j (fun e => e.writesRam x) = true) :
    gmo i j = true := by
  refine h.keepsPpo i j ⟨po, bothMem_of_isMemAt (isMemAt_of_writesRam first) (isMemAt_of_writesRam second), .inl ?_⟩
  obtain ⟨e, he, we⟩ := eventIs_some.mp first
  obtain ⟨f, hf, wf⟩ := eventIs_some.mp second
  simp only [Event.writesRam, Event.covers, Bool.and_eq_true, decide_eq_true_eq] at we wf
  refine eventsAre_some.mpr ⟨e, f, he, hf, ?_⟩
  simp only [Event.overlaps, wf.1.1, Bool.true_and, Bool.and_eq_true, decide_eq_true_eq]
  omega

/-- A write of an AMO's own hart that precedes the AMO's write is before its read in program order. -/
theorem poBefore_amoRead (h : Consistent image E gmo) {r w v x : Nat} (pair : paired E r w = true)
    (cover : eventIs E r (fun e => e.covers x) = true) (write : eventIs E v (fun e => e.writesRam x) = true)
    (order : gmo v w = true) (same : agentsDiffer E v w = false) : poBefore E v r = true := by
  have read := readsRam_of_paired pair cover
  have amoWrite := writesRam_of_paired pair cover
  obtain ⟨rfl, e, f, he, hf, -, -, ofHart, agents, -⟩ := paired_events pair
  obtain ⟨g, hg, -⟩ := eventIs_some.mp write
  have agent : g.agent = f.agent := by simpa [agentsDiffer, eventsAre, hg, hf] using same
  have ne_read : v ≠ r := by
    rintro rfl
    simp [not_reads_and_writes read] at write
  have ne_write : v ≠ r + 1 := by
    rintro rfl
    simp [h.order.irrefl] at order
  rcases Nat.lt_or_ge v r with lt | ge
  · simp [poBefore, eventsAre, lt, hg, he, agent, agents, Event.ofHart_congr (agent.trans agents.symm), ofHart]
  · have po : poBefore E (r + 1) v = true := by
      simp [poBefore, eventsAre, show r + 1 < v by omega, hg, hf, agent, Event.ofHart_congr agents.symm, ofHart]
    simp [h.order.asymm (h.gmo_of_writes po amoWrite write)] at order

/-- The writes that precede one in `gmo` are finitely many (R67), so induction along `gmo` is sound. -/
theorem gmo_wellFounded (h : Consistent image E gmo) : WellFounded fun i j => gmo i j = true := by
  choose bound below using h.progress
  refine Subrelation.wf (r := InvImage (· < ·) fun i => ((Finset.range (bound i)).filter fun j => gmo j i = true).card)
    (fun {i j} ij => ?_) (InvImage.wf _ Nat.lt_wfRel.wf)
  have earlier (k : Nat) (ki : gmo k i = true) : k < bound j ∧ gmo k j = true :=
    have kj := h.order.trans k i j ki ij
    ⟨below j k kj, kj⟩
  refine Finset.card_lt_card (Finset.ssubset_iff_of_subset (fun k mem => ?_) |>.mpr ⟨i, ?_, ?_⟩)
  · simpa using earlier k (Finset.mem_filter.mp mem).2
  · simpa using ⟨below j i ij, ij⟩
  · simp [h.order.irrefl i]

/-- A write that precedes an AMO's write is what the AMO's read returns, or precedes that: another hart's by R66, and
the AMO's own hart's since the read may return it (R65). -/
theorem source_of_amo (h : Consistent image E gmo) {r w v x : Nat} {src : Option Nat} (pair : paired E r w = true)
    (cover : eventIs E r (fun e => e.covers x) = true) (write : eventIs E v (fun e => e.writesRam x) = true)
    (order : gmo v w = true) (source : IsSource E gmo r x src) : ∃ u, src = some u ∧ (u = v ∨ gmo v u = true) := by
  by_cases differ : agentsDiffer E v w = true
  · have foreign : foreignWrite E w x v = true := foreignWrite_iff.mpr ⟨write, differ⟩
    have atomic := h.atomic r w x src pair cover source
    cases src with
    | none => simp [atomic v foreign] at order
    | some u =>
      refine ⟨u, rfl, or_iff_not_imp_left.mpr fun ne => ?_⟩
      have total := h.order.total u v (isMemAt_of_writesRam (writesRam_of_isSource source)) (isMemAt_of_writesRam write)
      exact (total ne).resolve_left fun uv => atomic.2 v foreign ⟨uv, order⟩
  · have po : poBefore E v r = true := h.poBefore_amoRead pair cover write order (by simpa using differ)
    have candidate_v : candidate E gmo r x v = true := by simp [candidate, write, po]
    cases src with
    | none => simp [source v] at candidate_v
    | some u => exact ⟨u, rfl, (eq_or_ne u v).imp_right fun ne => source.2 v candidate_v ne.symm⟩

/-- Of two AMOs' writes of a byte, the second's read returns no write that the first's returns: it returns the first's
write or a later one. -/
theorem source_ne_of_gmo (h : Consistent image E gmo) {i i' j j' x : Nat} {src : Option Nat}
    (pair : paired E i i' = true) (pair' : paired E j j' = true) (cover : eventIs E i (fun e => e.covers x) = true)
    (cover' : eventIs E j (fun e => e.covers x) = true) (order : gmo i' j' = true) (source : IsSource E gmo i x src) :
    ¬IsSource E gmo j x src := by
  intro source'
  obtain ⟨u, rfl, later⟩ := h.source_of_amo pair' cover' (writesRam_of_paired pair cover) order source'
  have earlier : gmo u i' = true := (h.atomic i i' x _ pair cover source).1
  rcases later with rfl | later
  · simp [h.order.irrefl] at earlier
  · simp [h.order.asymm later] at earlier

end Consistent

/-- Settles O58: the release follows `a`, by its annotation or by the FENCE; the acquire, which reads it, follows it; and
`y` follows the acquire. -/
theorem acquireSeesWhatPrecededTheRelease : Obligations.AcquireSeesWhatPrecededTheRelease := by
  intro image E gmo a r b y x h ar byo aMem yMem acquire source differ release
  have write := writesRam_of_isSource source
  have reads := eventIs_mono acquire fun e both => (Bool.and_eq_true_iff.mp both).1
  have annotated := eventIs_mono acquire fun e both => (Bool.and_eq_true_iff.mp both).2
  have gmo_ar : gmo a r = true := by
    rcases release with rl | ⟨k, ak, kr, fence, ram⟩
    · exact h.gmo_of_release ar rl aMem (isMemAt_of_writesRam write)
    · exact h.gmo_of_fence ak kr ar fence ram aMem write
  have gmo_rb : gmo r b = true := gmo_of_isSource source differ
  have gmo_by : gmo b y = true := h.gmo_of_acquire byo annotated (isMemAt_of_readsRam reads) yMem
  exact h.order.trans a b y (h.order.trans a r b gmo_ar gmo_rb) gmo_by

/-- Settles O59: `gmo` puts one of the two AMOs' writes first, and then `Consistent.source_ne_of_gmo`. -/
theorem twoAmosNeverReadTheSameWrite : Obligations.TwoAmosNeverReadTheSameWrite := by
  intro image E gmo i j x src h pair pair' cover cover' differ source source'
  have ne : i ≠ j := by
    rintro rfl
    obtain ⟨e, f, he, hf, ne⟩ := eventsAre_some.mp differ
    simp_all
  have total := h.order.total (i + 1) (j + 1) (isMemAt_of_writesRam (writesRam_of_paired pair cover))
    (isMemAt_of_writesRam (writesRam_of_paired pair' cover'))
  rcases total (by omega) with order | order
  · exact h.source_ne_of_gmo pair pair' cover cover' order source source'
  · exact h.source_ne_of_gmo pair' pair cover' cover order source' source

/-! ### The lock (42_atomic_lock R155, R158) -/

variable {l : Nat} {acquireOf : Nat → Nat}

/-- A release writes the first byte of the lock word. -/
theorem writesRam_of_releases {u : Nat} (release : releases E l u) : eventIs E u (fun e => e.writesRam l) = true := by
  refine eventIs_mono release fun e he => ?_
  simp only [Bool.and_eq_true, beq_iff_eq] at he
  simp [Event.writesRam, Event.covers, he]

/-- An acquire is an AMO that covers the lock word. -/
theorem paired_of_acquires {v : Nat} (acquire : acquires E l v) :
    ∃ r, paired E r v = true ∧ eventIs E r (fun e => e.covers l) = true := by
  obtain ⟨r, pair, read, -⟩ := acquire
  refine ⟨r, pair, eventIs_mono read fun e he => ?_⟩
  simp only [Bool.and_eq_true, beq_iff_eq] at he
  simp [Event.covers, he]

theorem writesRam_of_acquires {v : Nat} (acquire : acquires E l v) : eventIs E v (fun e => e.writesRam l) = true := by
  obtain ⟨r, pair, cover⟩ := paired_of_acquires acquire
  exact writesRam_of_paired pair cover

/-- An acquire's read returns 0. -/
theorem byteAt_of_acquires {v r : Nat} {e : Event} (acquire : acquires E l v) (pair : paired E r v = true)
    (he : E r = some e) : e.byteAt l = 0 := by
  obtain ⟨q, pair', read, -⟩ := acquire
  obtain rfl : q = r := by
    have := paired_next pair
    have := paired_next pair'
    omega
  simp_all [eventIs, Event.byteAt]

/-- No acquire is a release: it writes 1. -/
theorem not_releases_of_acquires {v : Nat} (acquire : acquires E l v) : ¬releases E l v := by
  intro release
  obtain ⟨r, -, -, one⟩ := acquire
  obtain ⟨e, he, value⟩ := eventIs_some.mp one
  obtain ⟨f, hf, zero⟩ := eventIs_some.mp release
  simp_all

/-- A write of the lock word whose first byte is 0 is a release: every other write writes 1 (R158). -/
theorem LockDiscipline.releases_of_zero (d : LockDiscipline image E l acquireOf) {u : Nat}
    (write : eventIs E u (fun e => e.writesRam l) = true) (zero : sourceByte image E (some u) l = 0) :
    releases E l u := by
  refine (d.writes u write).resolve_left ?_
  rintro ⟨one, -⟩
  have whole := d.whole u l le_rfl (by omega) (eventIs_mono write fun e he => by simp [he])
  obtain ⟨f, hf, value⟩ := eventIs_some.mp one
  simp_all [eventIs, sourceByte, Event.byteAt]

/-- Between two acquires stands a release: what the second returns, which is neither the first nor a write before it
(R65, R66). -/
theorem Consistent.release_between (h : Consistent image E gmo) (d : LockDiscipline image E l acquireOf) {v w : Nat}
    (first : acquires E l v) (second : acquires E l w) (order : gmo v w = true) :
    ∃ u, releases E l u ∧ gmo v u = true ∧ gmo u w = true := by
  obtain ⟨r, pair, cover⟩ := paired_of_acquires second
  obtain ⟨e, he, reads⟩ := eventIs_some.mp (readsRam_of_paired pair cover)
  obtain ⟨src, source, value⟩ := h.loadValues r e l he reads
  obtain ⟨u, rfl, later⟩ := h.source_of_amo pair cover (writesRam_of_acquires first) order source
  have release : releases E l u :=
    d.releases_of_zero (writesRam_of_isSource source) (value ▸ byteAt_of_acquires second pair he)
  have ne : u ≠ v := fun same => not_releases_of_acquires first (same ▸ release)
  exact ⟨u, release, later.resolve_left ne, (h.atomic r w l _ pair cover source).1⟩

/-- A release ends an acquire that precedes it. -/
theorem Consistent.gmo_of_release_holder (h : Consistent image E gmo) (d : LockDiscipline image E l acquireOf) {u : Nat}
    (release : releases E l u) : acquires E l (acquireOf u) ∧ gmo (acquireOf u) u = true := by
  obtain ⟨acquire, po⟩ := d.holder u release
  exact ⟨acquire, h.gmo_of_writes po (writesRam_of_acquires acquire) (writesRam_of_releases release)⟩

/-- Settles O60, by induction along `gmo` on the later acquire `w`. Some release `u` stands between `v` and `w`; it ends
an acquire `v'`. If `v'` is `v`, that is all; if `v` precedes `v'`, the release of `v` stands between these two already;
and if `v'` precedes `v`, so does its only release, which is `u`. -/
theorem lockGivesMutualExclusion : Obligations.LockGivesMutualExclusion := by
  intro image E gmo l acquireOf v w h d
  induction w using h.gmo_wellFounded.induction generalizing v with
  | _ w ih =>
  intro first second order
  obtain ⟨u, release, vu, uw⟩ := h.release_between d first second order
  obtain ⟨holder, hu⟩ := h.gmo_of_release_holder d release
  rcases eq_or_ne (acquireOf u) v with same | ne
  · exact ⟨u, release, same, vu, uw⟩
  have total := h.order.total (acquireOf u) v (h.order.onMem _ _ hu).1 (h.order.onMem _ _ vu).1
  rcases total ne with before | after
  · obtain ⟨u', release', ends, -, u'v⟩ := ih v order (acquireOf u) holder first before
    obtain rfl := d.once u' u release' release ends
    simp [h.order.asymm vu] at u'v
  · obtain ⟨u', release', ends, vu', u'h⟩ := ih (acquireOf u) (h.order.trans _ _ _ hu uw) v first holder after
    have : gmo u' w = true := h.order.trans _ _ _ (h.order.trans _ _ _ u'h hu) uw
    exact ⟨u', release', ends, vu', this⟩

end Sys2Proof.Machine
end

section
/-! PROOFS. The accesses of one hart, its fetch and its transfers (20_memory R43-R60; 40_register_interface R115-R118;
42_atomic_lock R138, R149; 43_integer_support R169): where each stops and by which name, and what it does where it
completes. -/

namespace Sys2Proof.Machine

variable {s t : State}

/-! ### Where a load and a store stop (20_memory R48, R56-R60) -/

section
variable {addr v : Word} {n : Nat}

theorem State.load_misaligned (misaligned : addr.toNat % n ≠ 0) :
    s.load addr n = .error (.refuse .misalignedAccess) := by
  simp [State.load, misaligned]

theorem State.store_misaligned (misaligned : addr.toNat % n ≠ 0) :
    s.store addr n v = .error (.refuse .misalignedAccess) := by
  simp [State.store, misaligned]

variable (aligned : addr.toNat % n = 0)
include aligned

theorem State.load_undecoded (inside : s.touchesTimer addr.toNat n = true)
    (undecoded : n ≠ 8 ∨ s.timerRead addr.toNat = none) :
    s.load addr n = .error (.refuse .unmodelledDeviceAccess) := by
  by_cases width : n = 8
  · subst width
    simp [State.load, aligned, inside, undecoded.resolve_left (by simp)]
  · simp [State.load, aligned, inside, width]

theorem State.store_undecoded (inside : s.touchesTimer addr.toNat n = true)
    (undecoded : n ≠ 8 ∨ s.timerSlot addr.toNat = none) :
    s.store addr n v = .error (.refuse .unmodelledDeviceAccess) := by
  by_cases width : n = 8
  · subst width
    simp [State.store, State.timerWrite, aligned, inside, undecoded.resolve_left (by simp)]
  · simp [State.store, aligned, inside, width]

theorem State.load_timer_locked (inside : s.touchesTimer addr.toNat n = true) (width : n = 8)
    (locked : s.pmpLocked = true) (decoded : s.timerRead addr.toNat ≠ none) :
    s.load addr n = .error (.refuse .pmpLocked) := by
  obtain ⟨w, read⟩ := Option.ne_none_iff_exists'.mp decoded
  subst width
  simp [State.load, aligned, inside, read, locked]

theorem State.store_timer_locked (inside : s.touchesTimer addr.toNat n = true) (width : n = 8)
    (locked : s.pmpLocked = true) (decoded : s.timerSlot addr.toNat ≠ none) :
    s.store addr n v = .error (.refuse .pmpLocked) := by
  obtain ⟨h, slot⟩ := Option.ne_none_iff_exists'.mp decoded
  subst width
  simp [State.store, State.timerWrite, aligned, inside, slot, locked]

variable (outside : s.touchesTimer addr.toNat n = false)
include outside

theorem State.store_text (text : s.touchesText addr.toNat n = true) :
    s.store addr n v = .error (.refuse .writeToText) := by
  simp [State.store, aligned, outside, text]

theorem State.load_locked (locked : s.pmpLocked = true) : s.load addr n = .error (.refuse .pmpLocked) := by
  simp [State.load, aligned, outside, locked]

theorem State.store_locked (data : s.touchesText addr.toNat n = false) (locked : s.pmpLocked = true) :
    s.store addr n v = .error (.refuse .pmpLocked) := by
  simp [State.store, aligned, outside, data, locked]

theorem State.load_stuck (open' : s.pmpLocked = false) (unmapped : s.inRam addr.toNat n = false) :
    s.load addr n = .error (.fault .stuckData) := by
  simp [State.load, aligned, outside, open', unmapped]

theorem State.store_stuck (data : s.touchesText addr.toNat n = false) (open' : s.pmpLocked = false)
    (unmapped : s.inRam addr.toNat n = false) : s.store addr n v = .error (.fault .stuckData) := by
  simp [State.store, aligned, outside, data, open', unmapped]

end

/-! ### The load and store instructions -/

/-- A load instruction of `n` bytes at `addr`, and the store instruction there of `v`, end as their accesses stop. -/
structure State.StopAs (s : State) (addr : Word) (n : Nat) (v : Word) (load store : Instr) : Prop where
  load : ∀ {e : Stop}, s.load addr n = .error e → exec load s = s.stop e
  store : ∀ {e : Stop}, s.store addr n v = .error e → exec store s = s.stop e

theorem State.stopAs_word (s : State) (rs1 reg : Reg) (imm : BitVec 12) :
    s.StopAs (effectiveAddress (s.getReg rs1) imm) 4 (s.getReg reg) (.lw reg rs1 imm) (.sw rs1 reg imm) where
  load error := by simp [exec, execLw, error]
  store error := by simp [exec, execSw, error]

theorem State.stopAs_doubleword (s : State) (rs1 reg : Reg) (imm : BitVec 12) :
    s.StopAs (effectiveAddress (s.getReg rs1) imm) 8 (s.getReg reg) (.ld reg rs1 imm) (.sd rs1 reg imm) where
  load error := by simp [exec, execLd, error]
  store error := by simp [exec, execSd, error]

/-- Settles O23: each instruction ends as its access stops, and the accesses' stops are the lemmas above. -/
theorem loadsAndStoresStop : Obligations.LoadsAndStoresStop := by
  intro s rs1 reg imm a n load store address form
  obtain ⟨width, ends⟩ : (n = 4 ∨ n = 8) ∧
      s.StopAs (effectiveAddress (s.getReg rs1) imm) n (s.getReg reg) load store := by
    rcases form with ⟨rfl, rfl, rfl⟩ | ⟨rfl, rfl, rfl⟩
    · exact ⟨.inl rfl, s.stopAs_word rs1 reg imm⟩
    · exact ⟨.inr rfl, s.stopAs_doubleword rs1 reg imm⟩
  replace address : a = (effectiveAddress (s.getReg rs1) imm).toNat := address
  subst address
  refine ⟨fun misaligned => ?misaligned, fun aligned inside => ?undecoded, fun aligned inside eight locked => ?timer,
    fun aligned outside text => ?text, fun aligned outside locked => ?locked,
    fun aligned outside open' unmapped => ?stuck⟩
  case misaligned =>
    exact ⟨ends.load (State.load_misaligned misaligned), ends.store (State.store_misaligned misaligned)⟩
  case undecoded =>
    have word : n = 4 → n ≠ 8 := by omega
    exact ⟨fun none' => ends.load (State.load_undecoded aligned inside (none'.imp_left word)),
      fun none' => ends.store (State.store_undecoded aligned inside (none'.imp_left word))⟩
  case timer =>
    exact ⟨fun decoded => ends.load (State.load_timer_locked aligned inside eight locked decoded),
      fun decoded => ends.store (State.store_timer_locked aligned inside eight locked decoded)⟩
  case text => exact ends.store (State.store_text aligned outside text)
  case locked =>
    exact ⟨ends.load (State.load_locked aligned outside locked),
      fun data => ends.store (State.store_locked aligned outside data locked)⟩
  case stuck =>
    exact ⟨ends.load (State.load_stuck aligned outside open' unmapped),
      fun data => ends.store (State.store_stuck aligned outside data open' unmapped)⟩

/-- The end of an instruction that has made one event and writes no register. -/
theorem State.accesses_of_event {u : State} {e : Event} (active : s.Active)
    (harts : u.harts = s.harts.set s.cur { s.hart with events := s.hart.events + 1 })
    (rest : u = { s with harts := u.harts, ram := u.ram, history := s.history ++ [e] }) :
    s.Accesses u.advance 0 0 [e] false := by
  have active' : u.Active := by
    have cur : u.cur = s.cur := by rw [rest]
    simpa [State.Active, harts, cur] using active
  have ends := State.accesses_end (made := [e]) (used := false) active harts rest 0 0
  rwa [State.setReg_zero active'] at ends

/-- What a store to RAM that nothing stops does (20_memory R43, R58). -/
theorem State.store_completes {addr : Word} {n : Nat} (active : s.Active) (wf : s.ram.wf)
    (open' : s.Writable addr.toNat n) (v : Word) :
    ∃ t, s.store addr n v = .ok t ∧ s.Stores t.advance addr.toNat n v ∧
      s.Accesses t.advance 0 0 [s.event 0 .write .ram addr.toNat n (truncateBytes n v) false false] false := by
  obtain ⟨⟨aligned, outside, inside, unlocked⟩, data⟩ := open'
  exact ⟨_, State.store_ram aligned outside data unlocked inside, State.stores_of_ram wf _ _ _ rfl,
    State.accesses_of_event active rfl rfl⟩

/-- Settles O20: the store is `State.store_completes`. -/
theorem swStoresTheLowWord : Obligations.SwStoresTheLowWord := by
  rintro s rs1 rs2 imm _ active wf rfl open'
  obtain ⟨t, stored, stores, accesses⟩ :=
    State.store_completes (addr := effectiveAddress (s.getReg rs1) imm) active wf open' (s.getReg rs2)
  exact ⟨t.advance, by simp [exec, execSw, stored], stores, accesses⟩

/-- Settles O21: the store is `State.store_completes`. -/
theorem sdStoresTheDoubleword : Obligations.SdStoresTheDoubleword := by
  rintro s rs1 rs2 imm _ active wf rfl open'
  obtain ⟨t, stored, stores, accesses⟩ :=
    State.store_completes (addr := effectiveAddress (s.getReg rs1) imm) active wf open' (s.getReg rs2)
  exact ⟨t.advance, by simp [exec, execSd, stored], stores, accesses⟩

/-- Settles O30: the end of an instruction that has made one event. -/
theorem fenceMakesOneEvent : Obligations.FenceMakesOneEvent := fun _ _ _ _ _ active =>
  ⟨_, rfl, fun _ => rfl, State.accesses_of_event active rfl rfl⟩

/-! ### AMOs (42_atomic_lock R138) -/

/-- The four AMO instructions, by the width of their access. -/
theorem exec_amo {rd rs1 rs2 : Reg} {aq rl : Bool} {i : Instr} {n : Nat}
    (form : n = 4 ∧ (i = .amoswapW rd rs1 rs2 aq rl ∨ i = .amocasW rd rs1 rs2 aq rl) ∨
      n = 8 ∧ (i = .amoswapD rd rs1 rs2 aq rl ∨ i = .amocasD rd rs1 rs2 aq rl)) (s : State) :
    ∃ f result, exec i s = s.amo rd (s.getReg rs1) n f aq rl result := by
  rcases form with ⟨rfl, rfl | rfl⟩ | ⟨rfl, rfl | rfl⟩ <;> exact ⟨_, _, rfl⟩

/-- An AMO whose checks stop it ends so, whatever it would write. -/
theorem State.amo_stop {rd : Reg} {addr : Word} {n : Nat} {f : Word → Option Word} {aq rl : Bool}
    {result : Word → Word} {e : Stop} (check : s.amoCheck addr.toNat n = some e) :
    s.amo rd addr n f aq rl result = s.stop e := by
  simp [State.amo, check]

/-- A trap that has drawn its code is one of the state before the draw (20_memory R49; log entry 10). -/
theorem State.Trapped.ofDraw {draws code : Nat} {interrupt : Bool}
    (trapped : State.Trapped { s with draws := draws } t interrupt code) : s.Trapped t interrupt code where
  mepc := trapped.mepc
  mcause := trapped.mcause
  mpie := trapped.mpie
  mie := trapped.mie
  mpp := trapped.mpp
  otherStatus := trapped.otherStatus
  priv := trapped.priv
  pc := trapped.pc
  hart := trapped.hart
  others := trapped.others
  count := trapped.count
  memory := trapped.memory
  rest := trapped.rest

/-- Settles O28: alignment is the first of an AMO's checks, and the code is a draw between the two
(`State.misalignedAmoCause_cases`). -/
theorem misalignedAmoTraps : Obligations.MisalignedAmoTraps := by
  intro s rd rs1 rs2 aq rl i active form
  obtain ⟨n, amo, misaligned⟩ : ∃ n, (∃ f result, exec i s = s.amo rd (s.getReg rs1) n f aq rl result) ∧
      (s.getReg rs1).toNat % n ≠ 0 := by
    rcases form with ⟨word, misaligned⟩ | ⟨doubleword, misaligned⟩
    · exact ⟨4, exec_amo (.inl ⟨rfl, word⟩) s, misaligned⟩
    · exact ⟨8, exec_amo (.inr ⟨rfl, doubleword⟩) s, misaligned⟩
  obtain ⟨f, result, run⟩ := amo
  have check : s.amoCheck (s.getReg rs1).toNat n = some .misalignedAmo := if_pos misaligned
  refine ⟨_, by rw [run, State.amo_stop check]; rfl, ?_⟩
  have trapped := (State.takeException_trapped (s := { s with draws := s.draws + 1 }) active
    s.misalignedAmoCause).ofDraw
  rcases s.misalignedAmoCause_cases with cause | cause <;> rw [cause] at trapped ⊢
  · exact .inr trapped
  · exact .inl trapped

/-- Settles O29: the checks of an aligned AMO, in the order of `State.amoCheck`. -/
theorem alignedAmoStops : Obligations.AlignedAmoStops := by
  rintro s rd rs1 rs2 aq rl i _ n rfl aligned form
  obtain ⟨f, result, run⟩ := exec_amo form s
  have ends {e : Stop} (check : s.amoCheck (s.getReg rs1).toNat n = some e) : exec i s = s.stop e :=
    run.trans (State.amo_stop check)
  refine ⟨fun timer => ends (e := .refuse .unmodelledDeviceAccess) ?_,
    fun timer text => ends (e := .refuse .writeToText) ?_,
    fun timer text locked => ends (e := .refuse .pmpLocked) ?_,
    fun timer text open' unmapped => ends (e := .fault .stuckData) ?_⟩
  · simp [State.amoCheck, aligned, timer]
  · simp [State.amoCheck, aligned, timer, text]
  · simp [State.amoCheck, aligned, timer, text, locked]
  · simp [State.amoCheck, aligned, timer, text, open', unmapped]

/-! ### The fetch (20_memory R44, R57, R60) -/

/-- Settles O6: the checks in the order of `State.fetch`, and then the four bytes as the decoder takes them. -/
theorem fetchReadsFourBytesOrStops : Obligations.FetchReadsFourBytesOrStops := by
  intro s aligned
  refine ⟨fun timer => ?_, fun timer locked => ?_, fun timer open' unmapped => ?_, fun timer open' inside => ?_⟩
  · simp [State.fetch, aligned, timer]
  · simp [State.fetch, aligned, timer, locked]
  · simp [State.fetch, aligned, timer, open', unmapped]
  · exact ⟨s.ram.bytes s.pc.toNat 4, by simp [State.fetch, aligned, timer, open', inside], rfl⟩

/-! ### Control transfer (43_integer_support R169) -/

/-- Settles O15: each of the three transfers ends as its target stops it (`State.targetStop`). -/
theorem misalignedTargetsTrapOrRefuse : Obligations.MisalignedTargetsTrapOrRefuse := by
  intro s i target active misaligned form
  have ends {e : Stop} (stop : s.targetStop target = some e) : exec i s = s.stop e := by
    rcases form with ⟨rs1, rs2, offset, rfl, taken, rfl⟩ | ⟨rs1, rs2, offset, rfl, taken, rfl⟩ | ⟨rd, offset, rfl, rfl⟩
    · simp [exec, execBeq, State.branch, branchTarget, taken, stop]
    · simp [exec, execBne, State.branch, branchTarget, taken, stop]
    · simp [exec, execJal, jumpTarget, stop]
  constructor
  · intro compressed
    exact ends (e := .refuse .unmodelledLength) (by simp [State.targetStop, misaligned, compressed])
  · intro plain
    exact ⟨_, ends (e := .raise .instructionAddressMisaligned) (by simp [State.targetStop, misaligned, plain]),
      State.takeException_trapped active _, rfl⟩

end Sys2Proof.Machine
end

section
/-! PROOFS. The program text after the reset of a launch (70_reset R200; 20_memory R44, R55). -/

namespace Sys2Proof.Machine

/-- Loading words leaves the bytes below them. -/
theorem Memory.read_writeWords_below (m : Memory) {a x : Nat} (ws : List (BitVec 32)) (below : x < a) :
    (m.writeWords a ws).read x = m.read x := by
  induction ws generalizing m a with
  | nil => rfl
  | cons w ws ih =>
    rw [Memory.writeWords, ih _ (by omega), Memory.read_writeBytes_other _ _ (.inl below)]

/-- Byte `j` of word `k` of a loaded text, little-endian (R44). -/
theorem Memory.read_writeWords {m : Memory} (wf : m.wf) (a : Nat) {ws : List (BitVec 32)} {k j : Nat} {w : BitVec 32}
    (word : ws[k]? = some w) (lt : j < 4) :
    (m.writeWords a ws).read (a + 4 * k + j) = w.extractLsb' (8 * j) 8 := by
  induction ws generalizing m a k with
  | nil => simp at word
  | cons first ws ih =>
    rw [Memory.writeWords]
    cases k with
    | zero =>
      obtain rfl : first = w := by simpa using word
      rw [Memory.read_writeWords_below _ _ (by omega), Nat.mul_zero, Nat.add_zero, Memory.read_writeBytes wf a _ lt]
      ext i hi
      simp [show 8 * j + i < 32 by omega, show 8 * j + i < 64 by omega]
    | succ k =>
      have rest := ih (Memory.writeBytes_wf wf a 4 (first.setWidth 64)) (a + 4) (k := k) (by simpa using word)
      rwa [show a + 4 * (k + 1) + j = a + 4 + 4 * k + j by omega]

/-- Settles O51: the image of a launch is its text, loaded over its data. -/
theorem launchPlacesTheText : Obligations.LaunchPlacesTheText := fun _ _ _ word _ lt =>
  Memory.read_writeWords (Memory.writeCells_wf ⟨List.Pairwise.nil, by simp⟩ _) _ word lt

end Sys2Proof.Machine
end

section
/-! PROOFS. The opcode table and the decoder (30_encoding R89, R90): no two rows share a word, so the decoder answers
what the matching row builds, and decoding undoes encoding. -/

namespace Sys2Proof

variable {w : BitVec 32} {i : Instr} {r : Row}

/-! ### One row at most -/

/-- Two sets of fixed bits that one word has agree where both fix a bit. -/
theorem fixed_agree {m p n q : BitVec 32} (one : w &&& m = p) (other : w &&& n = q) : p &&& n = q &&& m := by
  rw [← one, ← other, BitVec.and_assoc, BitVec.and_assoc, BitVec.and_comm m n]

theorem Row.hits_iff : r.hits w = true ↔ w &&& r.mask = r.pattern := beq_iff_eq

/-- Every two rows of the table fix some bit differently. -/
theorem rows_clash :
    (admittedRows ++ refusedRows).Pairwise fun r q => r.pattern &&& q.mask ≠ q.pattern &&& r.mask := by
  decide

/-- Settles O3: a word of two rows would agree with both where both fix a bit, and no two rows do (`rows_clash`). -/
theorem atMostOneRowMatchesAWord : Obligations.AtMostOneRowMatchesAWord :=
  rows_clash.imp fun clash _ ⟨one, other⟩ => clash (fixed_agree (Row.hits_iff.mp one) (Row.hits_iff.mp other))

/-! ### The decoder by the table -/

/-- The search for a word's row finds any row that the word matches: the rows before it do not match. -/
theorem find_row (row : r ∈ admittedRows ++ refusedRows) (hit : r.hits w = true) :
    (admittedRows ++ refusedRows).find? (fun q => q.hits w) = some r := by
  obtain ⟨before, after, table⟩ := List.append_of_mem row
  have disjoint := atMostOneRowMatchesAWord
  rw [Obligations.AtMostOneRowMatchesAWord, table, List.pairwise_append] at disjoint
  obtain ⟨-, -, apart⟩ := disjoint
  refine List.find?_eq_some_iff_append.mpr ⟨hit, before, after, table, fun q earlier => ?_⟩
  have miss : q.hits w ≠ true := fun hit' => apart q earlier r List.mem_cons_self w ⟨hit', hit⟩
  simpa using miss

/-- The decoder answers what a matching row builds, and nothing else. -/
theorem decode_eq_ok_iff :
    decode w = .ok i ↔ ∃ r ∈ admittedRows ++ refusedRows, r.hits w = true ∧ r.build w = i := by
  constructor
  · intro decoded
    unfold decode at decoded
    split at decoded
    · next r found =>
      exact ⟨r, List.mem_of_find?_eq_some found, List.find?_some (p := (Row.hits · w)) found, Except.ok.inj decoded⟩
    · cases decoded
  · rintro ⟨r, row, hit, rfl⟩
    rw [decode, find_row row hit]

/-- The decoder rejects by the word's reason only. -/
theorem rejectReason_of_decode {e : Reject} (rejected : decode w = .error e) : e = rejectReason w := by
  unfold decode at rejected
  split at rejected <;> cases rejected
  rfl

/-! ### Decoding undoes encoding -/

/-- Each instruction's word matches a row that builds the instruction from it (the family `Laws.RowMatch`). -/
theorem rowMatch : ∀ i : Instr, Laws.RowMatch.Statement i
  | .csrrw _ _ _ => Laws.RowMatch.csrrw _ _ _
  | .csrrs _ _ _ => Laws.RowMatch.csrrs _ _ _
  | .csrrc _ _ _ => Laws.RowMatch.csrrc _ _ _
  | .csrrwi _ _ _ => Laws.RowMatch.csrrwi _ _ _
  | .csrrsi _ _ _ => Laws.RowMatch.csrrsi _ _ _
  | .csrrci _ _ _ => Laws.RowMatch.csrrci _ _ _
  | .lw _ _ _ => Laws.RowMatch.lw _ _ _
  | .ld _ _ _ => Laws.RowMatch.ld _ _ _
  | .sw _ _ _ => Laws.RowMatch.sw _ _ _
  | .sd _ _ _ => Laws.RowMatch.sd _ _ _
  | .amoswapW _ _ _ _ _ => Laws.RowMatch.amoswapW _ _ _ _ _
  | .amoswapD _ _ _ _ _ => Laws.RowMatch.amoswapD _ _ _ _ _
  | .amocasW _ _ _ _ _ => Laws.RowMatch.amocasW _ _ _ _ _
  | .amocasD _ _ _ _ _ => Laws.RowMatch.amocasD _ _ _ _ _
  | .fence _ _ _ _ => Laws.RowMatch.fence _ _ _ _
  | .lui _ _ => Laws.RowMatch.lui _ _
  | .addi _ _ _ => Laws.RowMatch.addi _ _ _
  | .andi _ _ _ => Laws.RowMatch.andi _ _ _
  | .slli _ _ _ => Laws.RowMatch.slli _ _ _
  | .add _ _ _ => Laws.RowMatch.add _ _ _
  | .beq _ _ _ => Laws.RowMatch.beq _ _ _
  | .bne _ _ _ => Laws.RowMatch.bne _ _ _
  | .jal _ _ => Laws.RowMatch.jal _ _
  | .mret => Laws.RowMatch.mret
  | .ecall => Laws.RowMatch.ecall
  | .ebreak => Laws.RowMatch.ebreak
  | .wfi => Laws.RowMatch.wfi
  | .sret => Laws.RowMatch.sret
  | .uret => Laws.RowMatch.uret
  | .sfenceVma _ => Laws.RowMatch.sfenceVma _
  | .fenceI _ => Laws.RowMatch.fenceI _
  | .auipc _ => Laws.RowMatch.auipc _
  | .jalr _ => Laws.RowMatch.jalr _
  | .sub _ => Laws.RowMatch.sub _
  | .lb _ => Laws.RowMatch.lb _
  | .lh _ => Laws.RowMatch.lh _
  | .lbu _ => Laws.RowMatch.lbu _
  | .lhu _ => Laws.RowMatch.lhu _
  | .lwu _ => Laws.RowMatch.lwu _
  | .sb _ => Laws.RowMatch.sb _
  | .sh _ => Laws.RowMatch.sh _
  | .blt _ => Laws.RowMatch.blt _
  | .bge _ => Laws.RowMatch.bge _
  | .bltu _ => Laws.RowMatch.bltu _
  | .bgeu _ => Laws.RowMatch.bgeu _
  | .lrW _ => Laws.RowMatch.lrW _
  | .lrD _ => Laws.RowMatch.lrD _
  | .scW _ => Laws.RowMatch.scW _
  | .scD _ => Laws.RowMatch.scD _
  | .amoaddW _ => Laws.RowMatch.amoaddW _
  | .amoaddD _ => Laws.RowMatch.amoaddD _
  | .systemFunct3_100 _ => Laws.RowMatch.systemFunct3_100 _
  | .fenceTso => Laws.RowMatch.fenceTso
  | .short00 _ => Laws.RowMatch.short00 _
  | .short01 _ => Laws.RowMatch.short01 _
  | .short10 _ => Laws.RowMatch.short10 _
  | .long _ => Laws.RowMatch.long _

/-- Settles O1: the instruction's word matches the instruction's own row (`rowMatch`), and the decoder answers what a
matching row builds. -/
theorem decodeOfEncodeIsTheInstruction : Obligations.DecodeOfEncodeIsTheInstruction := fun i wf =>
  decode_eq_ok_iff.mpr (rowMatch i wf)

/-- A word that a well-formed instruction encodes to decodes to the instruction. -/
theorem decode_of_encode (wf : i.wellFormed = true) (word : encode i = w) : decode w = .ok i :=
  word ▸ decodeOfEncodeIsTheInstruction i wf

/-- Settles O4: each word is the encoding of the instruction that its example names. -/
theorem specExampleWordsDecode : Obligations.SpecExampleWordsDecode := by
  unfold Obligations.SpecExampleWordsDecode
  and_intros <;> exact decode_of_encode rfl rfl

end Sys2Proof
end

section
/-! PROOFS. Encoding undoes decoding (30_encoding R81-R90): each format's word is put together from its own fields, a
matching row's fixed bits are the rest of the word, and so each row of the table reads back the word it was built
from. -/

namespace Sys2Proof

variable {w : BitVec 32}

/-! ### The operands' bits are the word's -/

theorem boolBit_getLsbD (w : BitVec 32) (k : Nat) : boolBit (w.getLsbD k) = w.extractLsb' k 1 := by
  ext i hi
  obtain rfl : i = 0 := by omega
  simp [boolBit]

theorem fenceSetBits_fenceSetAt (w : BitVec 32) (k : Nat) : fenceSetBits (fenceSetAt w k) = w.extractLsb' k 4 := by
  simp (disch := omega) only [fenceSetBits, fenceSetAt, boolBit_getLsbD,
    BitVec.extractLsb'_append_extractLsb'_eq_extractLsb']

theorem immS_parts (w : BitVec 32) :
    (immS w).extractLsb' 5 7 = w.extractLsb' 25 7 ∧ (immS w).extractLsb' 0 5 = w.extractLsb' 7 5 := by
  unfold immS
  refine ⟨?_, ?_⟩ <;> simp (disch := omega) only [BitVec.extractLsb'_append_eq_of_le,
    BitVec.extractLsb'_append_eq_of_add_le, Nat.reduceSub, BitVec.extractLsb'_eq_self]

theorem immB_parts (w : BitVec 32) :
    (immB w).extractLsb' 12 1 = w.extractLsb' 31 1 ∧ (immB w).extractLsb' 5 6 = w.extractLsb' 25 6 ∧
      (immB w).extractLsb' 1 4 = w.extractLsb' 8 4 ∧ (immB w).extractLsb' 11 1 = w.extractLsb' 7 1 := by
  unfold immB
  refine ⟨?_, ?_, ?_, ?_⟩ <;> simp (disch := omega) only [BitVec.extractLsb'_append_eq_of_le,
    BitVec.extractLsb'_append_eq_of_add_le, Nat.reduceSub, BitVec.extractLsb'_eq_self]

theorem immJ_parts (w : BitVec 32) :
    (immJ w).extractLsb' 20 1 = w.extractLsb' 31 1 ∧ (immJ w).extractLsb' 1 10 = w.extractLsb' 21 10 ∧
      (immJ w).extractLsb' 11 1 = w.extractLsb' 20 1 ∧ (immJ w).extractLsb' 12 8 = w.extractLsb' 12 8 := by
  unfold immJ
  refine ⟨?_, ?_, ?_, ?_⟩ <;> simp (disch := omega) only [BitVec.extractLsb'_append_eq_of_le,
    BitVec.extractLsb'_append_eq_of_add_le, Nat.reduceSub, BitVec.extractLsb'_eq_self]

/-- An immediate that ends in a zero bit is even. -/
theorem even_append_zero {n : Nat} (x : BitVec n) : (!(x ++ 0#1).getLsbD 0) = true := by
  rw [BitVec.getLsbD_append]
  rfl

/-! ### Each format's word from its own fields (R82, R87, R88) -/

theorem encodeI_of_word (w : BitVec 32) :
    encodeI (w.extractLsb' 20 12) (w.extractLsb' 15 5) (w.extractLsb' 12 3) (fieldRd w) (w.extractLsb' 0 7) = w := by
  have join : w.extractLsb' 20 12 ++ w.extractLsb' 15 5 ++ w.extractLsb' 12 3 ++ w.extractLsb' 7 5 ++
      w.extractLsb' 0 7 = w := by
    simp (disch := rfl) only [BitVec.extractLsb'_append_extractLsb'_eq_extractLsb', BitVec.extractLsb'_eq_self]
  exact join

theorem encodeR_of_word (w : BitVec 32) :
    encodeR (w.extractLsb' 25 7) (fieldRs2 w) (fieldRs1 w) (w.extractLsb' 12 3) (fieldRd w) (w.extractLsb' 0 7) =
      w := by
  have join : w.extractLsb' 25 7 ++ w.extractLsb' 20 5 ++ w.extractLsb' 15 5 ++ w.extractLsb' 12 3 ++
      w.extractLsb' 7 5 ++ w.extractLsb' 0 7 = w := by
    simp (disch := rfl) only [BitVec.extractLsb'_append_extractLsb'_eq_extractLsb', BitVec.extractLsb'_eq_self]
  exact join

theorem encodeS_of_word (w : BitVec 32) (opcode : w.extractLsb' 0 7 = 0b0100011#7) :
    encodeS (immS w) (fieldRs2 w) (fieldRs1 w) (w.extractLsb' 12 3) = w := by
  obtain ⟨hi, lo⟩ := immS_parts w
  rw [encodeS, hi, lo, ← opcode]
  exact encodeR_of_word w

theorem encodeB_of_word (w : BitVec 32) (opcode : w.extractLsb' 0 7 = 0b1100011#7) :
    encodeB (immB w) (fieldRs2 w) (fieldRs1 w) (w.extractLsb' 12 3) = w := by
  obtain ⟨b12, b5, b1, b11⟩ := immB_parts w
  have join : w.extractLsb' 31 1 ++ w.extractLsb' 25 6 ++ w.extractLsb' 20 5 ++ w.extractLsb' 15 5 ++
      w.extractLsb' 12 3 ++ w.extractLsb' 8 4 ++ w.extractLsb' 7 1 ++ w.extractLsb' 0 7 = w := by
    simp (disch := rfl) only [BitVec.extractLsb'_append_extractLsb'_eq_extractLsb', BitVec.extractLsb'_eq_self]
  rw [encodeB, b12, b5, b1, b11, ← opcode]
  exact join

theorem encodeAmo_of_word (w : BitVec 32) (opcode : w.extractLsb' 0 7 = 0b0101111#7) :
    encodeAmo (w.extractLsb' 27 5) (fieldAq w) (fieldRl w) (fieldRs2 w) (fieldRs1 w) (w.extractLsb' 12 3)
      (fieldRd w) = w := by
  have join : w.extractLsb' 27 5 ++ w.extractLsb' 26 1 ++ w.extractLsb' 25 1 ++ w.extractLsb' 20 5 ++
      w.extractLsb' 15 5 ++ w.extractLsb' 12 3 ++ w.extractLsb' 7 5 ++ w.extractLsb' 0 7 = w := by
    simp (disch := rfl) only [BitVec.extractLsb'_append_extractLsb'_eq_extractLsb', BitVec.extractLsb'_eq_self]
  rw [encodeAmo, fieldAq, fieldRl, boolBit_getLsbD, boolBit_getLsbD, ← opcode]
  exact join

theorem encodeFence_of_word (w : BitVec 32) (fm : w.extractLsb' 28 4 = 0b0000#4)
    (funct3 : w.extractLsb' 12 3 = 0b000#3) (opcode : w.extractLsb' 0 7 = 0b0001111#7) :
    encode (.fence (fieldPred w) (fieldSucc w) (fieldRs1 w) (fieldRd w)) = w := by
  have join : w.extractLsb' 28 4 ++ w.extractLsb' 24 4 ++ w.extractLsb' 20 4 ++ w.extractLsb' 15 5 ++
      w.extractLsb' 12 3 ++ w.extractLsb' 7 5 ++ w.extractLsb' 0 7 = w := by
    simp (disch := rfl) only [BitVec.extractLsb'_append_extractLsb'_eq_extractLsb', BitVec.extractLsb'_eq_self]
  rw [encode, fieldPred, fieldSucc, fenceSetBits_fenceSetAt, fenceSetBits_fenceSetAt, ← fm, ← funct3, ← opcode]
  exact join

theorem encodeU_of_word (w : BitVec 32) (opcode : w.extractLsb' 0 7 = 0b0110111#7) :
    encode (.lui (fieldRd w) (immU w)) = w := by
  have join : w.extractLsb' 12 20 ++ w.extractLsb' 7 5 ++ w.extractLsb' 0 7 = w := by
    simp (disch := rfl) only [BitVec.extractLsb'_append_extractLsb'_eq_extractLsb', BitVec.extractLsb'_eq_self]
  rw [encode, ← opcode]
  exact join

theorem encodeShift_of_word (w : BitVec 32) :
    encodeI (w.extractLsb' 26 6 ++ fieldShamt w) (w.extractLsb' 15 5) (w.extractLsb' 12 3) (fieldRd w)
      (w.extractLsb' 0 7) = w := by
  have join : w.extractLsb' 26 6 ++ w.extractLsb' 20 6 = w.extractLsb' 20 12 :=
    BitVec.extractLsb'_append_extractLsb'_eq_extractLsb' rfl
  rw [fieldShamt, join]
  exact encodeI_of_word w

theorem encodeJ_of_word (w : BitVec 32) (opcode : w.extractLsb' 0 7 = 0b1101111#7) :
    encode (.jal (fieldRd w) (immJ w)) = w := by
  obtain ⟨b20, b1, b11, b12⟩ := immJ_parts w
  have join : w.extractLsb' 31 1 ++ w.extractLsb' 21 10 ++ w.extractLsb' 20 1 ++ w.extractLsb' 12 8 ++
      w.extractLsb' 7 5 ++ w.extractLsb' 0 7 = w := by
    simp (disch := rfl) only [BitVec.extractLsb'_append_extractLsb'_eq_extractLsb', BitVec.extractLsb'_eq_self]
  rw [encode, b20, b1, b11, b12, ← opcode]
  exact join

/-! ### The rows -/

/-- What O2 says of one row: what it builds from a word of its own is well formed and encodes to that word, a 16-bit
form to the low 16 bits. -/
def Row.ReadsBack (r : Row) : Prop :=
  ∀ w, r.hits w = true →
    (r.build w).wellFormed = true ∧ encode (r.build w) = if w &&& 3 = 3 then w else (w.setWidth 16).setWidth 32

/-- A field that a row's mask covers has the row's bits. -/
theorem field_of_fixed {m p : BitVec 32} (fixed : w &&& m = p) (k n : Nat)
    (covered : m.extractLsb' k n = BitVec.allOnes n) : w.extractLsb' k n = p.extractLsb' k n := by
  rw [← fixed, BitVec.extractLsb'_and, covered, BitVec.and_allOnes]

/-! ### The rows, by format: the row builds from the word's fields, and its own bits are the rest -/

section Formats

variable {m p : BitVec 32} {build : BitVec 32 → Instr}

/-- A row of the 32-bit length: its words end in 11 (R81). -/
theorem Row.ReadsBack.ofWord (mask : m &&& 3 = 3) (low : p &&& 3 = 3)
    (back : ∀ w, w &&& m = p → (build w).wellFormed = true ∧ encode (build w) = w) :
    Row.ReadsBack ⟨m, p, build⟩ := by
  intro w hit
  have fixed : w &&& m = p := Row.hits_iff.mp hit
  have three : w &&& 3 = 3 := by rw [← mask, ← BitVec.and_assoc, fixed, low, mask]
  rw [if_pos three]
  exact back w fixed

theorem Row.ReadsBack.ofI (low : p &&& 3 = 3) (wf : ∀ w, (build w).wellFormed = true)
    (built : ∀ w, encode (build w) = encodeI (w.extractLsb' 20 12) (w.extractLsb' 15 5) (p.extractLsb' 12 3)
      (fieldRd w) (p.extractLsb' 0 7)) : Row.ReadsBack ⟨0x707F, p, build⟩ := by
  refine .ofWord rfl low fun w fixed => ⟨wf w, ?_⟩
  have funct3 : w.extractLsb' 12 3 = p.extractLsb' 12 3 := field_of_fixed fixed 12 3 rfl
  have opcode : w.extractLsb' 0 7 = p.extractLsb' 0 7 := field_of_fixed fixed 0 7 rfl
  exact (built w).trans (by rw [← funct3, ← opcode, encodeI_of_word])

theorem Row.ReadsBack.ofS (opcode : p.extractLsb' 0 7 = 0b0100011) (low : p &&& 3 = 3)
    (wf : ∀ w, (build w).wellFormed = true)
    (built : ∀ w, encode (build w) = encodeS (immS w) (fieldRs2 w) (fieldRs1 w) (p.extractLsb' 12 3)) :
    Row.ReadsBack ⟨0x707F, p, build⟩ := by
  refine .ofWord rfl low fun w fixed => ⟨wf w, ?_⟩
  have funct3 : w.extractLsb' 12 3 = p.extractLsb' 12 3 := field_of_fixed fixed 12 3 rfl
  rw [built w, ← funct3]
  exact encodeS_of_word w ((field_of_fixed fixed 0 7 rfl).trans opcode)

theorem Row.ReadsBack.ofB (opcode : p.extractLsb' 0 7 = 0b1100011) (low : p &&& 3 = 3)
    (wf : ∀ w, (build w).wellFormed = !(immB w).getLsbD 0)
    (built : ∀ w, encode (build w) = encodeB (immB w) (fieldRs2 w) (fieldRs1 w) (p.extractLsb' 12 3)) :
    Row.ReadsBack ⟨0x707F, p, build⟩ := by
  refine .ofWord rfl low fun w fixed => ⟨(wf w).trans (even_append_zero _), ?_⟩
  have funct3 : w.extractLsb' 12 3 = p.extractLsb' 12 3 := field_of_fixed fixed 12 3 rfl
  rw [built w, ← funct3]
  exact encodeB_of_word w ((field_of_fixed fixed 0 7 rfl).trans opcode)

theorem Row.ReadsBack.ofAmo (opcode : p.extractLsb' 0 7 = 0b0101111) (low : p &&& 3 = 3)
    (wf : ∀ w, (build w).wellFormed = true)
    (built : ∀ w, encode (build w) = encodeAmo (p.extractLsb' 27 5) (fieldAq w) (fieldRl w) (fieldRs2 w) (fieldRs1 w)
      (p.extractLsb' 12 3) (fieldRd w)) : Row.ReadsBack ⟨0xF800707F, p, build⟩ := by
  refine .ofWord rfl low fun w fixed => ⟨wf w, ?_⟩
  have funct5 : w.extractLsb' 27 5 = p.extractLsb' 27 5 := field_of_fixed fixed 27 5 rfl
  have funct3 : w.extractLsb' 12 3 = p.extractLsb' 12 3 := field_of_fixed fixed 12 3 rfl
  rw [built w, ← funct5, ← funct3]
  exact encodeAmo_of_word w ((field_of_fixed fixed 0 7 rfl).trans opcode)

/-- A row without free bits. -/
theorem Row.ReadsBack.ofConstant (low : p &&& 3 = 3) (wf : ∀ w, (build w).wellFormed = true)
    (built : ∀ w, encode (build w) = p) : Row.ReadsBack ⟨0xFFFFFFFF, p, build⟩ := by
  refine .ofWord rfl low fun w fixed => ⟨wf w, ?_⟩
  have whole : w &&& BitVec.allOnes 32 = p := fixed
  rw [built w, ← whole, BitVec.and_allOnes]

/-- A refused row whose instruction carries its word. -/
theorem Row.ReadsBack.ofCarried (mask : m &&& 3 = 3) (low : p &&& 3 = 3)
    (wf : ∀ w, (build w).wellFormed = (w &&& m == p)) (built : ∀ w, encode (build w) = w) :
    Row.ReadsBack ⟨m, p, build⟩ :=
  .ofWord mask low fun w fixed => ⟨(wf w).trans (beq_iff_eq.mpr fixed), built w⟩

/-- A 16-bit form, whose low two bits are not 11 (R81). -/
theorem Row.ReadsBack.ofShort (low : p &&& 3 ≠ 3)
    (wf : ∀ w, (build w).wellFormed = (w.setWidth 16 &&& 3 == p.setWidth 16))
    (built : ∀ w, encode (build w) = (w.setWidth 16).setWidth 32) : Row.ReadsBack ⟨3, p, build⟩ := by
  intro w hit
  have fixed : w &&& 3 = p := Row.hits_iff.mp hit
  have short : w &&& 3 ≠ 3 := fun three => low (by rw [← fixed, three]; rfl)
  refine ⟨(wf w).trans (beq_iff_eq.mpr ?_), by rw [if_neg short, built w]⟩
  rw [← fixed, BitVec.setWidth_and]
  rfl

end Formats

theorem admittedRows_readBack : ∀ r ∈ admittedRows, r.ReadsBack := by
  simp only [admittedRows, List.forall_mem_cons]
  refine ⟨?csrrw, ?csrrs, ?csrrc, ?csrrwi, ?csrrsi, ?csrrci, ?lw, ?ld, ?sw, ?sd, ?amoswapW, ?amoswapD, ?amocasW,
    ?amocasD, ?fence, ?lui, ?addi, ?andi, ?slli, ?add, ?beq, ?bne, ?jal, ?mret, nofun⟩
  case csrrw | csrrs | csrrc | csrrwi | csrrsi | csrrci | lw | ld | addi | andi =>
    exact .ofI rfl (fun _ => rfl) fun _ => rfl
  case sw | sd => exact .ofS rfl rfl (fun _ => rfl) fun _ => rfl
  case amoswapW | amoswapD | amocasW | amocasD => exact .ofAmo rfl rfl (fun _ => rfl) fun _ => rfl
  case beq | bne => exact .ofB rfl rfl (fun _ => rfl) fun _ => rfl
  case fence =>
    exact .ofWord rfl rfl fun w fixed =>
      ⟨rfl, encodeFence_of_word w (field_of_fixed fixed 28 4 rfl) (field_of_fixed fixed 12 3 rfl)
        (field_of_fixed fixed 0 7 rfl)⟩
  case lui => exact .ofWord rfl rfl fun w fixed => ⟨rfl, encodeU_of_word w (field_of_fixed fixed 0 7 rfl)⟩
  case jal =>
    exact .ofWord rfl rfl fun w fixed => ⟨even_append_zero _, encodeJ_of_word w (field_of_fixed fixed 0 7 rfl)⟩
  case slli =>
    refine .ofWord rfl rfl fun w fixed => ⟨rfl, ?_⟩
    have top : w.extractLsb' 26 6 = 0b000000 := field_of_fixed fixed 26 6 rfl
    have funct3 : w.extractLsb' 12 3 = 0b001 := field_of_fixed fixed 12 3 rfl
    have opcode : w.extractLsb' 0 7 = 0b0010011 := field_of_fixed fixed 0 7 rfl
    have word := encodeShift_of_word w
    rw [top, funct3, opcode] at word
    exact word
  case add =>
    refine .ofWord rfl rfl fun w fixed => ⟨rfl, ?_⟩
    have funct7 : w.extractLsb' 25 7 = 0b0000000 := field_of_fixed fixed 25 7 rfl
    have funct3 : w.extractLsb' 12 3 = 0b000 := field_of_fixed fixed 12 3 rfl
    have opcode : w.extractLsb' 0 7 = 0b0110011 := field_of_fixed fixed 0 7 rfl
    have word := encodeR_of_word w
    rw [funct7, funct3, opcode] at word
    exact word
  case mret => exact .ofConstant rfl (fun _ => rfl) fun _ => rfl

theorem refusedRows_readBack : ∀ r ∈ refusedRows, r.ReadsBack := by
  simp only [refusedRows, List.forall_mem_cons]
  refine ⟨?ecall, ?ebreak, ?wfi, ?sret, ?uret, ?sfenceVma, ?fenceI, ?auipc, ?jalr, ?sub, ?lb, ?lh, ?lbu, ?lhu, ?lwu,
    ?sb, ?sh, ?blt, ?bge, ?bltu, ?bgeu, ?lrW, ?lrD, ?scW, ?scD, ?amoaddW, ?amoaddD, ?systemFunct3_100, ?fenceTso,
    ?short00, ?short01, ?short10, ?long, nofun⟩
  case ecall | ebreak | wfi | sret | uret | fenceTso => exact .ofConstant rfl (fun _ => rfl) fun _ => rfl
  case short00 | short01 | short10 => exact .ofShort (by decide) (fun _ => rfl) fun _ => rfl
  all_goals exact .ofCarried rfl rfl (fun _ => rfl) fun _ => rfl

/-- Settles O2: a word that decodes matches a row that built the instruction (`decode_eq_ok_iff`), and every row of the
table reads its words back. -/
theorem encodeOfDecodedIsTheWord : Obligations.EncodeOfDecodedIsTheWord := by
  intro w i decoded
  obtain ⟨r, row, hit, rfl⟩ := decode_eq_ok_iff.mp decoded
  rcases List.mem_append.mp row with admitted | refused
  · exact admittedRows_readBack r admitted w hit
  · exact refusedRows_readBack r refused w hit

end Sys2Proof
end

section
/-! PROOFS. The rows and the forms that the spec refuses (30_encoding R81, R86, R87; 44_system R175-R177): the meaning
of each refused row, and the step of a hart that fetches a refused form. -/

namespace Sys2Proof

variable {w : BitVec 32} {i : Instr}

/-- The bytes of a word are read back as the word (R44). -/
theorem decodeBytes_wordBytes (w : BitVec 32) : decodeBytes (wordBytes w) = decode w := by
  have join : w.extractLsb' 24 8 ++ w.extractLsb' 16 8 ++ w.extractLsb' 8 8 ++ w.extractLsb' 0 8 = w := by
    simp (disch := rfl) only [BitVec.extractLsb'_append_extractLsb'_eq_extractLsb', BitVec.extractLsb'_eq_self]
  exact congrArg decode join

/-- A word whose low two bits are not 11 is one of the three 16-bit forms (R81). -/
theorem decode_short (low : w &&& 3 ≠ 3) :
    ∃ i ∈ [Instr.short00 (w.setWidth 16), .short01 (w.setWidth 16), .short10 (w.setWidth 16)], decode w = .ok i := by
  have two : w &&& 3 = 0 ∨ w &&& 3 = 1 ∨ w &&& 3 = 2 := by
    have bound : (w &&& 3).toNat ≤ 3 := by
      rw [BitVec.toNat_and]
      exact Nat.and_le_right
    bv_omega
  rcases two with h | h | h
  · exact ⟨_, by simp, decode_eq_ok_iff.mpr ⟨_, List.mem_of_getElem? (i := 53) rfl, Row.hits_iff.mpr h, rfl⟩⟩
  · exact ⟨_, by simp, decode_eq_ok_iff.mpr ⟨_, List.mem_of_getElem? (i := 54) rfl, Row.hits_iff.mpr h, rfl⟩⟩
  · exact ⟨_, by simp, decode_eq_ok_iff.mpr ⟨_, List.mem_of_getElem? (i := 55) rfl, Row.hits_iff.mpr h, rfl⟩⟩

/-- A word whose low five bits are 11111 is a longer form (R81). -/
theorem decode_long (low : w &&& 0x1F = 0x1F) : decode w = .ok (.long w) :=
  decode_eq_ok_iff.mpr ⟨_, List.mem_of_getElem? (i := 56) rfl, Row.hits_iff.mpr low, rfl⟩

/-- Only the rows of FENCE and FENCE.TSO agree with FENCE's opcode and funct3 where they fix a bit. -/
theorem rows_agreeing_with_fence :
    (admittedRows ++ refusedRows).filter (fun r => r.pattern &&& 0x707F == 0xF &&& r.mask) =
      [admittedRows[14], refusedRows[28]] :=
  rfl

/-- A FENCE with `fm` other than 0 is FENCE.TSO, or is rejected as an unmodelled FENCE (R87). -/
theorem decode_fence (fence : w &&& 0x707F = 0xF) (fm : w &&& 0xF0000000 ≠ 0) :
    decode w = .ok .fenceTso ∨ decode w = .error .unmodelledFence := by
  cases decoded : decode w with
  | error e =>
    have reason : rejectReason w = .unmodelledFence := if_pos (beq_iff_eq.mpr fence)
    rw [rejectReason_of_decode decoded, reason]
    exact .inr rfl
  | ok i =>
    obtain ⟨r, row, hit, rfl⟩ := decode_eq_ok_iff.mp decoded
    have agrees : r ∈ (admittedRows ++ refusedRows).filter (fun r => r.pattern &&& 0x707F == 0xF &&& r.mask) :=
      List.mem_filter.mpr ⟨row, beq_iff_eq.mpr (fixed_agree (Row.hits_iff.mp hit) fence)⟩
    rw [rows_agreeing_with_fence] at agrees
    rcases List.mem_pair.mp agrees with rfl | rfl
    · have fixed : w &&& 0xF000707F = 0xF := Row.hits_iff.mp hit
      have zero : w &&& 0xF0000000 = 0 := calc
        w &&& 0xF0000000 = w &&& 0xF000707F &&& 0xF0000000 := (BitVec.and_assoc w 0xF000707F 0xF0000000).symm
        _ = 0 := by rw [fixed]; rfl
      exact absurd zero fm
    · exact .inl rfl

end Sys2Proof

namespace Sys2Proof.Machine

variable {s : State} {w : BitVec 32} {i : Instr}

/-- Settles O8: each of the 33 rows has its own meaning, which answers the row's refusal in every state. -/
theorem refusedRowsRefuse : Obligations.RefusedRowsRefuse := by
  intro s w p
  simp only [List.mem_cons, List.not_mem_nil, or_false, forall_eq_or_imp, forall_eq]
  and_intros <;> rfl

/-- A hart that fetches a word that decodes executes the instruction. -/
theorem State.runInstruction_of_decode (fetched : s.fetch = .ok (wordBytes w)) (decoded : decode w = .ok i) :
    s.runInstruction = exec i s := by
  simp [State.runInstruction, fetched, decodeBytes_wordBytes, decoded]

/-- A hart that fetches a word that the decoder rejects refuses it by the rejection's name. -/
theorem State.runInstruction_of_reject {e : Reject} (fetched : s.fetch = .ok (wordBytes w))
    (rejected : decode w = .error e) : s.runInstruction = .refused (rejectRefusal e) := by
  simp [State.runInstruction, fetched, decodeBytes_wordBytes, rejected]

/-- Settles O7: the decoder names each of these forms (`decode_short`, `decode_long`, `decode_fence`), and the rows'
meanings refuse (O8). -/
theorem lengthAndFenceFormsAreRefused : Obligations.LengthAndFenceFormsAreRefused := by
  intro s w fetched
  obtain ⟨-, tso, length⟩ := refusedRowsRefuse s w (w.setWidth 16)
  refine ⟨fun form => ?length, fun fence fm => ?fence⟩
  case length =>
    rcases form with low | low
    · obtain ⟨i, short, decoded⟩ := decode_short low
      exact (State.runInstruction_of_decode fetched decoded).trans (length i (List.mem_append_left [_] short))
    · exact (State.runInstruction_of_decode fetched (decode_long low)).trans (length _ (by simp))
  case fence =>
    rcases decode_fence fence fm with decoded | rejected
    · exact (State.runInstruction_of_decode fetched decoded).trans tso
    · exact State.runInstruction_of_reject fetched rejected

end Sys2Proof.Machine
end

section
/-! PROOFS. The loads of one hart that complete, and its access to the timer registers (40_register_interface R115,
R116, R118; 41_timer_arming R121-R123). -/

namespace Sys2Proof.Machine

variable {s t : State} {addr v : Word} {n : Nat} {rd rs1 : Reg} {imm : BitVec 12}

/-! ### The end of an instruction whose access is done -/

theorem exec_lw_of_load (loaded : s.load (effectiveAddress (s.getReg rs1) imm) 4 = .ok (v, t)) :
    exec (.lw rd rs1 imm) s = .next (t.setReg rd (signExtendWord v)).advance := by
  simp [exec, execLw, loaded]

theorem exec_ld_of_load (loaded : s.load (effectiveAddress (s.getReg rs1) imm) 8 = .ok (v, t)) :
    exec (.ld rd rs1 imm) s = .next (t.setReg rd v).advance := by
  simp [exec, execLd, loaded]

theorem exec_sd_of_store {rs2 : Reg}
    (stored : s.store (effectiveAddress (s.getReg rs1) imm) 8 (s.getReg rs2) = .ok t) :
    exec (.sd rs1 rs2 imm) s = .next t.advance := by
  simp [exec, execSd, stored]

/-- A load of RAM that nothing stops: it makes one event, takes the oracle's next value, and leaves RAM to any register
write after it. -/
theorem State.load_completes (active : s.Active) (open' : s.Readable addr.toNat n) :
    ∃ t, s.load addr n = .ok (s.loadValue addr.toNat n, t) ∧ ∀ rd v, s.RamKept (t.setReg rd v).advance ∧
      s.Accesses (t.setReg rd v).advance rd v
        [s.event 0 .read .ram addr.toNat n (s.loadValue addr.toNat n) false false] true := by
  obtain ⟨aligned, outside, inside, unlocked⟩ := open'
  exact ⟨_, State.load_ram aligned outside unlocked inside, fun rd v =>
    ⟨fun _ => rfl, State.accesses_end active rfl rfl rd v⟩⟩

/-- Settles O16: the load is `State.load_completes`. -/
theorem lwLoadsASignExtendedWord : Obligations.LwLoadsASignExtendedWord := by
  rintro s rd rs1 imm _ active rfl open'
  obtain ⟨t, loaded, ends⟩ := State.load_completes (addr := effectiveAddress (s.getReg rs1) imm) active open'
  exact ⟨_, exec_lw_of_load loaded, ends rd _⟩

/-- Settles O17: the load is `State.load_completes`. -/
theorem ldLoadsADoubleword : Obligations.LdLoadsADoubleword := by
  rintro s rd rs1 imm _ active rfl open'
  obtain ⟨t, loaded, ends⟩ := State.load_completes (addr := effectiveAddress (s.getReg rs1) imm) active open'
  exact ⟨_, exec_ld_of_load loaded, ends rd _⟩

/-! ### The timer registers -/

theorem State.timerRead_mtime (s : State) : s.timerRead (s.cfg.timerBase.toNat + 0xBFF8) = some s.mtime := if_pos rfl

/-- With at most 4095 compare registers, none stands at the address of mtime (R124). -/
theorem State.timerRead_slot {h : Nat} (slot : s.mtimecmp[h]? = some v) (few : s.mtimecmp.length ≤ 4095) :
    s.timerRead (s.cfg.timerBase.toNat + 0x4000 + 8 * h) = some v := by
  obtain ⟨lt, -⟩ := List.getElem?_eq_some_iff.mp slot
  rw [State.timerRead, if_neg (by omega), State.timerSlot_of_lt lt, Option.map_some, List.getD_eq_getElem?_getD, slot,
    Option.getD_some]

theorem State.timerWrite_slot {h : Nat} (lt : h < s.mtimecmp.length) (v : Word) :
    s.timerWrite (s.cfg.timerBase.toNat + 0x4000 + 8 * h) v = some { s with mtimecmp := s.mtimecmp.set h v } := by
  rw [State.timerWrite, State.timerSlot_of_lt lt, Option.map_some]

theorem State.touchesTimer_mtime (s : State) : s.touchesTimer (s.cfg.timerBase.toNat + 0xBFF8) 8 = true :=
  State.touchesTimer_iff.mpr (by omega)

theorem State.touchesTimer_slot {h : Nat} (lt : h < s.mtimecmp.length) (few : s.mtimecmp.length ≤ 4095) :
    s.touchesTimer (s.cfg.timerBase.toNat + 0x4000 + 8 * h) 8 = true :=
  State.touchesTimer_iff.mpr (by omega)

/-- Settles O19: both addresses lie in the timer region and are decoded, so the load is `State.load_timer`. -/
theorem ldReadsTheTimerRegisters : Obligations.LdReadsTheTimerRegisters := by
  rintro s rd rs1 imm a v active address aligned unlocked few register
  have decoded : s.touchesTimer a 8 = true ∧ s.timerRead a = some v := by
    rcases register with ⟨rfl, rfl⟩ | ⟨h, rfl, slot⟩
    · exact ⟨s.touchesTimer_mtime, s.timerRead_mtime⟩
    · exact ⟨State.touchesTimer_slot (List.getElem?_eq_some_iff.mp slot).1 few, State.timerRead_slot slot few⟩
  subst address
  exact ⟨_, exec_ld_of_load (State.load_timer aligned decoded.1 unlocked decoded.2), fun _ => rfl,
    State.accesses_end active rfl rfl rd v⟩

/-- Settles O22: the address is decoded as the slot of `h`, so the store is `State.store_timer`; its event is made in
the state with that compare register set. -/
theorem sdWritesACompareRegister : Obligations.SdWritesACompareRegister := by
  rintro s rs1 rs2 imm a h active address aligned unlocked slot lt few
  have inside : s.touchesTimer a 8 = true := by rw [slot]; exact State.touchesTimer_slot lt few
  have decoded := State.timerWrite_slot lt (s.getReg rs2)
  rw [← slot] at decoded
  subst address
  exact ⟨_, exec_sd_of_store (State.store_timer aligned inside unlocked decoded), fun _ => rfl,
    List.getElem?_set_self lt, fun k other => List.getElem?_set_ne (Ne.symm other),
    State.accesses_of_event (s := { s with mtimecmp := s.mtimecmp.set h (s.getReg rs2) }) active rfl rfl⟩

end Sys2Proof.Machine
end

section
/-! PROOFS. The six CSR instructions (40_register_interface R96-R111): where the number's checks end them, what they do
where the read and the write are accepted, and the interrupt-masked critical section (R114). -/

namespace Sys2Proof.Machine

/-! ### The number's checks (R97, R99) -/

section
variable {s t : State} {rd : Reg} {number : BitVec 12} {reads : Bool}

/-- A number outside the table is refused, whatever the instruction would do (R97). -/
theorem State.csrInstruction_unmodelled {change : Option (Word → Word)} (unnamed : csrOfNumber number = none) :
    s.csrInstruction rd number reads change = .refused .unmodelledCsr := by
  simp [State.csrInstruction, unnamed]

/-- A write of a read-only CSR raises, whatever it would write. -/
theorem State.csrInstruction_readOnly {r : Csr} {change : Option (Word → Word)} (machine : s.hart.priv = .machine)
    (named : csrOfNumber number = some r) (readOnly : csrReadOnly number = true) (writes : change.isSome = true) :
    s.csrInstruction rd number reads change = .next (s.takeException .illegalInstruction) := by
  simp [State.csrInstruction, named, readOnly, writes, csrAllowed_machine machine]

/-- Settles O34: the six instructions are `State.csrInstruction` with their own changes. -/
theorem csrNumberChecks : Obligations.CsrNumberChecks := by
  intro s rd rs1 uimm number
  refine ⟨fun unnamed => ?refused, fun active machine => ?raised⟩
  case refused =>
    simp only [List.mem_cons, List.not_mem_nil, or_false, forall_eq_or_imp, forall_eq]
    and_intros <;> exact State.csrInstruction_unmodelled unnamed
  case raised =>
    have raises (reads : Bool) {change : Option (Word → Word)} (writes : change.isSome = true) :
        ∃ t, s.csrInstruction rd 0xF14 reads change = .next t ∧ s.Trapped t false 2 ∧ t.draws = s.draws :=
      ⟨_, State.csrInstruction_readOnly (r := .mhartid) machine (by decide) (by decide) writes,
        State.takeException_trapped active .illegalInstruction, rfl⟩
    simp only [List.mem_cons, List.not_mem_nil, or_false, forall_eq_or_imp, forall_eq]
    refine ⟨⟨raises (rd != 0) rfl, raises (rd != 0) rfl⟩, fun source => ?_, fun source => ?_⟩
    · have writes : (rs1 != 0) = true := bne_iff_ne.mpr source
      exact ⟨raises true (Option.isSome_ite.mpr writes), raises true (Option.isSome_ite.mpr writes)⟩
    · have writes : (uimm != 0) = true := bne_iff_ne.mpr source
      exact ⟨raises true (Option.isSome_ite.mpr writes), raises true (Option.isSome_ite.mpr writes)⟩

/-! ### Where the read and the write are accepted (R100, R101) -/

/-- What is written to x0 is discarded, whatever it is (10_state R13). -/
theorem State.WritesOnly.ofZero {v next : Word} (ends : s.WritesOnly t 0 v next) (w : Word) :
    s.WritesOnly t 0 w next :=
  { ends with dest := ends.dest }

variable {r : Csr} (machine : s.hart.priv = .machine) (named : csrOfNumber number = some r)
include machine named

/-- An instruction that names no write: a read-only CSR is no hindrance. -/
theorem State.csrInstruction_reads {old : Word} (read : s.hart.csrRead s.cfg s.cur r = .ok old) :
    s.csrInstruction rd number true none = .next (s.setReg rd old).advance := by
  simp [State.csrInstruction, named, csrAllowed_machine machine, read]

/-- An instruction that writes changes the CSR's own storage, `rd` and pc. -/
theorem State.csrInstruction_writes {f : Word → Word} {old : Word} {k : Hart} (active : s.Active)
    (writable : number.extractLsb' 10 2 ≠ 3)
    (read : (if reads then s.hart.csrRead s.cfg s.cur r else .ok 0) = .ok old)
    (write : s.hart.csrWrite s.cfg r (f (s.hart.csrRmw s.cfg r old)) = .ok k) :
    ∃ t, s.csrInstruction rd number reads (some f) = .next t ∧ (s.setHart k).WritesOnly t rd old (s.pc + 4) ∧
      s.hart.OnlyCsr k r := by
  have only := Hart.csrWrite_only write
  have ends := State.setReg_advance_writesOnly ((s.setHart_active k).mpr active) rd old
  rw [State.pc_eq, s.setHart_hart k active, only.pc_priv.1] at ends
  refine ⟨_, ?_, ends, only⟩
  simp only [State.csrInstruction, named, csrAllowed_machine machine, csrReadOnly_of_ne writable, read, write,
    Bool.not_true, Bool.and_false, Bool.false_eq_true, if_false]

/-- A read that may be followed by a write of what the read-modify-write sees, changed. -/
theorem State.csrInstruction_modifies {f : Word → Word} {old : Word} {writes : Bool} (active : s.Active)
    (read : s.hart.csrRead s.cfg s.cur r = .ok old) {o : Host.Outcome State Fault Refusal}
    (run : o = s.csrInstruction rd number true (if writes then some f else none)) :
    (writes = false → ∃ t, o = .next t ∧ s.WritesOnly t rd old (s.pc + 4)) ∧
      ∀ k, writes = true → number.extractLsb' 10 2 ≠ 3 →
        s.hart.csrWrite s.cfg r (f (s.hart.csrRmw s.cfg r old)) = .ok k →
        ∃ t, o = .next t ∧ (s.setHart k).WritesOnly t rd old (s.pc + 4) ∧ s.hart.OnlyCsr k r := by
  subst run
  constructor
  · rintro rfl
    exact ⟨_, State.csrInstruction_reads machine named read, State.setReg_advance_writesOnly active rd old⟩
  · rintro k rfl writable write
    exact State.csrInstruction_writes machine named active writable read write

end

/-- Settles O31: with x0 for `rd` nothing is read, and what `rd` would take is discarded. -/
theorem csrSwapWritesTheSource : Obligations.CsrSwapWritesTheSource := by
  intro s rd rs1 uimm number i src old r k active machine named writable form write read
  have run : exec i s = s.csrInstruction rd number (rd != 0) (some fun _ => src) := by
    rcases form with ⟨rfl, rfl⟩ | ⟨rfl, rfl⟩ <;> rfl
  rw [run]
  by_cases zero : rd = 0
  · subst zero
    obtain ⟨t, done, ends, only⟩ :=
      State.csrInstruction_writes (rd := 0) (reads := false) (f := fun _ => src) machine named active writable rfl write
    exact ⟨t, done, ends.ofZero old, only⟩
  · have reads : (rd != 0) = true := by simpa using zero
    exact State.csrInstruction_writes machine named active writable ((if_pos reads).trans (read zero)) write

/-- Settles O32: CSRRS and CSRRSI are one read-modify-write. -/
theorem csrSetSetsBits : Obligations.CsrSetSetsBits := by
  intro s rd rs1 uimm number i mask old writes r active machine named form read
  have run : exec i s = s.csrSet rd number writes mask := by
    rcases form with ⟨rfl, rfl, rfl⟩ | ⟨rfl, rfl, rfl⟩ <;> rfl
  exact State.csrInstruction_modifies machine named active read run

/-- Settles O33: CSRRC and CSRRCI are one read-modify-write. -/
theorem csrClearClearsBits : Obligations.CsrClearClearsBits := by
  intro s rd rs1 uimm number i mask old writes r active machine named form read
  have run : exec i s = s.csrClear rd number writes mask := by
    rcases form with ⟨rfl, rfl, rfl⟩ | ⟨rfl, rfl, rfl⟩ <;> rfl
  exact State.csrInstruction_modifies machine named active read run

/-! ### The pending bits that no write reaches (R105) -/

/-- Settles O39: the three bits read the inputs and MTIP_seen (`getLsbD_mipRead`), which a CSR write leaves
(`Hart.csrWrite_frame`). -/
theorem noCsrWriteChangesMtip : Obligations.NoCsrWriteChangesMtip := by
  intro c h k r v written i mem
  have kept := Hart.csrWrite_frame written
  simp only [List.mem_cons, List.not_mem_nil, or_false] at mem
  rcases mem with rfl | rfl | rfl
  all_goals
    rw [getLsbD_mipRead c k _ (by decide), getLsbD_mipRead c h _ (by decide), kept]
    rfl

/-! ### The interrupt-masked critical section (R114) -/

/-- A bit set to the value it had is the word it was, whatever it was set to between. -/
theorem withBit_withBit_self (w : Word) (i : Nat) (b : Bool) :
    withBit (withBit w i b) i (w.getLsbD i) = w := by
  apply BitVec.eq_of_getLsbD_eq
  intro j ltj
  rw [getLsbD_withBit _ _ _ _ ltj, getLsbD_withBit _ _ _ _ ltj]
  split
  · next own => rw [own]
  · rfl

/-- The bit of another word set in a word that has it clear. -/
theorem or_and_mie {w : Word} (clear : w.getLsbD 3 = false) (v : Word) :
    w ||| (v &&& 8) = withMie w (v.getLsbD 3) := by
  have eight (i : Nat) : (8 : Word).getLsbD i = decide (i ∈ [3]) := getLsbD_of_list (by decide) (by decide) i
  apply BitVec.eq_of_getLsbD_eq
  intro i lt
  rw [withMie, getLsbD_withBit _ _ _ _ lt, BitVec.getLsbD_or, BitVec.getLsbD_and, eight]
  by_cases own : i = 3
  · subst own; rw [if_pos rfl, clear]; simp
  · simp [own]

/-- A write of mstatus as it is read but for MIE is accepted, and stores mstatus but for MIE (R22, R104). -/
theorem Hart.csrWrite_mstatus_withMie {c : Config} {h : Hart} (within : h.mstatus &&& ~~~mstatusMod c = 0)
    (legal : mstatusMpp h.mstatus ≠ 2) (b : Bool) :
    h.csrWrite c .mstatus (withMie (h.mstatusRead c) b) = .ok { h with mstatus := withMie h.mstatus b } := by
  have bits (w : Word) {i : Nat} (lt : i < 64) : (withMie w b).getLsbD i = if i = 3 then b else w.getLsbD i :=
    getLsbD_withBit w 3 b i lt
  refine Hart.mstatusWrite_ok_iff.mpr ⟨and_eq_and_iff.mpr fun i lt unmodelled => ?_, fun reserved => legal ?_, ?_⟩
  · have other : i ≠ 3 := by
      rintro rfl
      exact absurd unmodelled (by decide)
    rw [bits _ lt, if_neg other, getLsbD_mstatusRead_of_unmod c h lt unmodelled]
  · rw [← reserved]
    apply mstatusMpp_congr <;> rw [bits _ (by decide), getLsbD_mstatusRead c h _ (by decide)] <;> rfl
  · congr 1
    apply BitVec.eq_of_getLsbD_eq
    intro i lt
    rw [BitVec.getLsbD_and, bits _ lt, bits _ lt]
    split
    · next own => rw [own, (mstatusMod_bit c).1, Bool.and_true]
    · rw [getLsbD_mstatusRead_of_mod, getLsbD_and_of_masked within]

theorem getLsbD_mstatusRead_mie (c : Config) (h : Hart) : (h.mstatusRead c).getLsbD 3 = mstatusMie h.mstatus :=
  getLsbD_mstatusRead c h 3 (by decide)

section
variable {s t : State} {rd : Reg} {v next : Word} (ends : s.WritesOnly t rd v next)
include ends

theorem State.WritesOnly.mstatus : t.hart.mstatus = s.hart.mstatus := by rw [ends.frame.csrs]

theorem State.WritesOnly.priv : t.hart.priv = s.hart.priv := by rw [ends.frame.csrs]

theorem State.WritesOnly.cfg : t.cfg = s.cfg := by rw [ends.rest]

theorem State.WritesOnly.active (active : s.Active) : t.Active := by
  have cur : t.cur = s.cur := by rw [ends.rest]
  have count : t.harts.length = s.harts.length := ends.frame.count
  rwa [State.Active, cur, count]

end

/-- CSRRCI of mstatus with 8 saves mstatus as it is read and clears MIE (R111). -/
theorem exec_csrrci_mie {s : State} {save : Reg} (active : s.Active) (inv : s.hart.Inv s.cfg) (dest : save ≠ 0) :
    ∃ t, exec (.csrrci save 8 0x300) s = .next t ∧ t.hart.mstatus = withMie s.hart.mstatus false ∧
      t.getReg save = s.hart.mstatusRead s.cfg := by
  have write := Hart.csrWrite_mstatus_withMie inv.mstatusBits inv.mppLegal false
  obtain ⟨-, clears⟩ := csrClearClearsBits s save 0 8 0x300 _ _ _ true .mstatus active inv.machineMode (by decide)
    (.inr ⟨rfl, rfl, rfl⟩) rfl
  obtain ⟨t, run, ends, -⟩ := clears _ rfl (by decide) write
  refine ⟨t, run, ?_, ?_⟩
  · rw [ends.mstatus, s.setHart_hart _ active]
  · rw [ends.dest, if_neg dest]

/-- CSRRS of mstatus whose source has no bit but MIE's sets MIE, if it was clear, as the source has it (R107). -/
theorem exec_csrrs_mie {s : State} {source : Reg} {v : Word} (active : s.Active) (machine : s.hart.priv = .machine)
    (within : s.hart.mstatus &&& ~~~mstatusMod s.cfg = 0) (legal : mstatusMpp s.hart.mstatus ≠ 2)
    (clear : mstatusMie s.hart.mstatus = false) (writes : source ≠ 0) (value : s.getReg source = v &&& 8) :
    ∃ t, exec (.csrrs 0 source 0x300) s = .next t ∧ t.hart.mstatus = withMie s.hart.mstatus (v.getLsbD 3) := by
  have write := Hart.csrWrite_mstatus_withMie within legal (v.getLsbD 3)
  rw [← or_and_mie ((getLsbD_mstatusRead_mie _ _).trans clear), ← value] at write
  obtain ⟨-, sets⟩ := csrSetSetsBits s 0 source 0 0x300 _ _ _ true .mstatus active machine (by decide)
    (.inl ⟨rfl, rfl, by simpa using writes⟩) rfl
  obtain ⟨t, run, ends, -⟩ := sets _ rfl (by decide) write
  exact ⟨t, run, by rw [ends.mstatus, s.setHart_hart _ active]⟩

/-- Settles O42: the first instruction is `exec_csrrci_mie`; ANDI keeps MIE of the saved value alone, and
`exec_csrrs_mie` puts that back. -/
theorem maskedSectionRestoresMstatus : Obligations.MaskedSectionRestoresMstatus := by
  intro s save active inv dest
  obtain ⟨t, masks, status, saved⟩ := exec_csrrci_mie active inv dest
  have bits {i : Nat} (lt : i < 64) : t.hart.mstatus.getLsbD i = if i = 3 then false else s.hart.mstatus.getLsbD i := by
    rw [status]; exact getLsbD_withBit _ _ _ _ lt
  refine ⟨t, masks, bits (by decide), fun i other => ?kept, fun u activeU cfg machine same kept => ?restored⟩
  case kept =>
    by_cases lt : i < 64
    · rw [bits lt, if_neg other]
    · rw [BitVec.getLsbD_of_ge _ _ (by omega), BitVec.getLsbD_of_ge _ _ (by omega)]
  case restored =>
    have anded := State.setReg_advance_writesOnly activeU save (u.getReg save &&& 8)
    generalize after : (u.setReg save (u.getReg save &&& 8)).advance = w at anded
    have statusW : w.hart.mstatus = t.hart.mstatus := anded.mstatus.trans same
    have value : w.getReg save = s.hart.mstatusRead s.cfg &&& 8 := by rw [anded.dest, if_neg dest, kept, saved]
    have within : w.hart.mstatus &&& ~~~mstatusMod w.cfg = 0 := by
      rw [statusW, status, anded.cfg, cfg]
      exact withBit_masked _ inv.mstatusBits (mstatusMod_bit _).1
    have legal : mstatusMpp w.hart.mstatus ≠ 2 := by
      rw [statusW, mstatusMpp_congr (bits (by decide)) (bits (by decide))]
      exact inv.mppLegal
    have clear : mstatusMie w.hart.mstatus = false := by rw [statusW]; exact bits (by decide)
    obtain ⟨x, run, restored⟩ :=
      exec_csrrs_mie (anded.active activeU) (anded.priv.trans machine) within legal clear dest value
    refine ⟨w, x, after ▸ rfl, run, ?_⟩
    rw [restored, statusW, status, getLsbD_mstatusRead_mie]
    exact withBit_withBit_self _ _ _

end Sys2Proof.Machine
end

section
/-! PROOFS. The deadline that arming writes (41_timer_arming R125, R128, R130, R131). -/

namespace Sys2Proof.Machine

/-- A sum that wraps is at most its first summand: what is lost, 2^64, is more than the second (41_timer_arming R131). -/
theorem toNat_add_le_of_wraps {a b : Word} (wraps : 2 ^ 64 ≤ a.toNat + b.toNat) : (a + b).toNat ≤ a.toNat := by
  have bound : b.toNat < 2 ^ 64 := b.isLt
  rw [BitVec.toNat_add]
  omega

/-- A deadline at or below a count that the counter has reached is due. -/
theorem State.mtipDev_of_le {s : State} {k : Nat} {deadline count : Word} (slot : s.mtimecmp[k]? = some deadline)
    (reached : count.toNat ≤ s.mtime.toNat) (le : deadline.toNat ≤ count.toNat) : s.mtipDev k = true := by
  rw [State.mtipDev_of_getElem? slot]
  exact decide_eq_true (Nat.le_trans le reached)

/-- Settles O49: for a zero interval and for a wrapped sum the deadline is at most the count, which the counter has
reached (`State.mtipDev_of_le`); otherwise the sum is exact, and the comparator compares it (R125). -/
theorem deadlineIsDueWhenReached : Obligations.DeadlineIsDueWhenReached := by
  intro s h count interval slot reached
  refine ⟨fun zero => ?_, fun wraps => ?_, fun fits => ?_⟩
  · subst zero
    exact State.mtipDev_of_le slot reached (Nat.le_of_eq (congrArg BitVec.toNat (BitVec.add_zero count)))
  · exact State.mtipDev_of_le slot reached (toNat_add_le_of_wraps wraps)
  · rw [State.mtipDev_of_getElem? slot, BitVec.toNat_add_of_lt fits]

end Sys2Proof.Machine
end

section
/-! PROOFS. The AMOs of one hart that complete (42_atomic_lock R139-R148): the swap, which always writes, and the
compare-and-swap, which writes where the comparison holds. Each is `State.amo_complete` of its own function. -/

namespace Sys2Proof.Machine

variable {s : State} {rd : Reg} {addr : Word} {n : Nat} {aq rl : Bool} {result : Word → Word}

/-! ### What an access of each width moves (20_memory R51) -/

theorem truncateBytes_lowWord (v : Word) : truncateBytes 4 (lowWord v) = lowWord v := by
  simp [truncateBytes, lowWord]

theorem truncateBytes_doubleword (v : Word) : truncateBytes 8 v = v := if_neg (by decide)

/-! ### Swap and compare-and-swap, at either width -/

/-- An AMO whose function always gives `new`, a value of the access's width (R141, R142). -/
theorem State.amo_swaps {new : Word} (active : s.Active) (wf : s.ram.wf) (open' : s.Writable addr.toNat n)
    (narrow : truncateBytes n new = new) :
    ∃ t, s.amo rd addr n (fun _ => some new) aq rl result = .next t ∧ s.Stores t addr.toNat n new ∧
      s.Accesses t rd (result (s.loadValue addr.toNat n))
        [s.event 0 .amoRead .ram addr.toNat n (s.loadValue addr.toNat n) aq rl,
          s.event 1 .amoWrite .ram addr.toNat n new aq rl] true := by
  obtain ⟨t, run, writes, -⟩ := State.amo_complete (f := fun _ => some new) active wf open' rfl
  obtain ⟨stores, accesses⟩ := writes new rfl
  rw [narrow] at accesses
  exact ⟨t, run, stores, accesses⟩

/-- An AMO whose function gives `new` for the value `expected` alone: the comparison decides between the swap and one
read (R144-R146). -/
theorem State.amo_compares {expected new : Word} (active : s.Active) (wf : s.ram.wf)
    (open' : s.Writable addr.toNat n) (narrow : truncateBytes n new = new) :
    ∃ t, s.amo rd addr n (fun old => if old = expected then some new else none) aq rl result = .next t ∧
      if s.loadValue addr.toNat n = expected then
        s.Stores t addr.toNat n new ∧ s.Accesses t rd (result (s.loadValue addr.toNat n))
          [s.event 0 .amoRead .ram addr.toNat n (s.loadValue addr.toNat n) aq rl,
            s.event 1 .amoWrite .ram addr.toNat n new aq rl] true
      else
        s.RamKept t ∧ s.Accesses t rd (result (s.loadValue addr.toNat n))
          [s.event 0 .read .ram addr.toNat n (s.loadValue addr.toNat n) aq rl] true := by
  obtain ⟨t, run, writes, reads⟩ :=
    State.amo_complete (f := fun old => if old = expected then some new else none) active wf open' rfl
  refine ⟨t, run, ?_⟩
  split
  case isTrue equal =>
    obtain ⟨stores, accesses⟩ := writes new (if_pos equal)
    rw [narrow] at accesses
    exact ⟨stores, accesses⟩
  case isFalse differ => exact reads (if_neg differ)

/-! ### The four instructions -/

/-- Settles O24: `State.amo_swaps` of the low word. -/
theorem amoswapWSwapsTheWord : Obligations.AmoswapWSwapsTheWord := by
  rintro s rd rs1 rs2 aq rl _ _ _ active wf rfl open' rfl rfl
  exact State.amo_swaps active wf open' (truncateBytes_lowWord _)

/-- Settles O25: `State.amo_swaps` of the doubleword. -/
theorem amoswapDSwapsTheDoubleword : Obligations.AmoswapDSwapsTheDoubleword := by
  rintro s rd rs1 rs2 aq rl _ _ active wf rfl open' rfl
  exact State.amo_swaps active wf open' (truncateBytes_doubleword _)

/-- Settles O26: `State.amo_compares` of the low words. -/
theorem amocasWComparesAndSwaps : Obligations.AmocasWComparesAndSwaps := by
  rintro s rd rs1 rs2 aq rl _ _ _ active wf rfl open' rfl rfl
  exact State.amo_compares active wf open' (truncateBytes_lowWord _)

/-- Settles O27: `State.amo_compares` of the doublewords. -/
theorem amocasDComparesAndSwaps : Obligations.AmocasDComparesAndSwaps := by
  rintro s rd rs1 rs2 aq rl _ _ active wf rfl open' rfl
  exact State.amo_compares active wf open' (truncateBytes_doubleword _)

end Sys2Proof.Machine
end

section
/-! PROOFS. The integer instructions and the control transfers of one hart that complete (43_integer_support
R163-R172): a result or a link written to `rd`, and a new pc. A transfer to a misaligned target is
`misalignedTargetsTrapOrRefuse`. -/

namespace Sys2Proof.Machine

variable {s : State} {i : Instr} {rd rs1 rs2 : Reg}

/-! ### Integer instructions (R163-R168) -/

/-- An instruction that ends in `State.result` writes its result to `rd` and goes on; `same` is the result as the
statement writes it. -/
theorem State.result_writesOnly {v w : Word} (active : s.Active) (run : exec i s = s.result rd v) (same : v = w) :
    ∃ t, exec i s = .next t ∧ s.WritesOnly t rd w (s.pc + 4) := by
  subst same
  exact ⟨_, run, State.setReg_advance_writesOnly active rd v⟩

/-- Putting twelve zero bits below the U immediate shifts it by twelve (R164). -/
theorem upperWord_eq_shiftLeft (imm : BitVec 20) : upperWord imm = (imm.setWidth 32 <<< 12).signExtend 64 := by
  rw [upperWord, BitVec.append_def]
  simp [BitVec.shiftLeftZeroExtend_eq]

/-- Settles O9: the result is `upperWord`, and the word the statement shifts. -/
theorem luiLoadsTheUpperImmediate : Obligations.LuiLoadsTheUpperImmediate := fun _ _ imm active =>
  State.result_writesOnly active rfl (upperWord_eq_shiftLeft imm)

/-- Settles O10: both take the immediate as `immWord`, which is its sign extension by definition. -/
theorem addiAndAndiUseTheSignExtendedImmediate : Obligations.AddiAndAndiUseTheSignExtendedImmediate :=
  fun _ _ _ _ active => ⟨State.result_writesOnly active rfl rfl, State.result_writesOnly active rfl rfl⟩

/-- Settles O11: a shift to the left is a product, and both drop the bits above 63. -/
theorem slliShiftsLeft : Obligations.SlliShiftsLeft := by
  intro s rd rs1 shamt active
  refine State.result_writesOnly active rfl (BitVec.eq_of_toNat_eq ?_)
  rw [BitVec.toNat_shiftLeft, BitVec.toNat_ofNat, Nat.shiftLeft_eq]

/-- Settles O12: the sum of two words is that of their numbers, modulo 2^64. -/
theorem addWraps : Obligations.AddWraps := by
  intro s rd rs1 rs2 active
  refine State.result_writesOnly active rfl (BitVec.eq_of_toNat_eq ?_)
  rw [BitVec.toNat_add, BitVec.toNat_ofNat]

/-! ### Control transfer (R169-R172) -/

/-- A branch that is taken goes to an aligned target. -/
theorem State.branch_taken {offset : BitVec 13} (aligned : (branchTarget s.pc offset).toNat % 4 = 0) :
    s.branch true offset = .next (s.setPc (branchTarget s.pc offset)) := by
  simp [State.branch, State.targetStop_none.mpr aligned]

/-- A branch that is not taken goes on, whatever its target. -/
theorem State.branch_notTaken (s : State) (offset : BitVec 13) : s.branch false offset = .next (s.setPc (s.pc + 4)) :=
  rfl

/-- BEQ and BNE are `State.branch` of what the comparison of the registers decides (R170, R171). -/
theorem exec_branch {offset : BitVec 13} {taken : Prop}
    (form : i = .beq rs1 rs2 offset ∧ (taken ↔ s.getReg rs1 = s.getReg rs2) ∨
      i = .bne rs1 rs2 offset ∧ (taken ↔ s.getReg rs1 ≠ s.getReg rs2)) :
    ∃ b, exec i s = s.branch b offset ∧ (b = true ↔ taken) := by
  rcases form with ⟨rfl, decides⟩ | ⟨rfl, decides⟩
  · exact ⟨s.getReg rs1 == s.getReg rs2, rfl, beq_iff_eq.trans decides.symm⟩
  · exact ⟨s.getReg rs1 != s.getReg rs2, rfl, bne_iff_ne.trans decides.symm⟩

/-- A jump to an aligned target links and goes there (R172). -/
theorem exec_jal_of_aligned {offset : BitVec 21} (aligned : (jumpTarget s.pc offset).toNat % 4 = 0) :
    exec (.jal rd offset) s = .next ((s.setReg rd (s.pc + 4)).setPc (jumpTarget s.pc offset)) := by
  simp [exec, execJal, State.targetStop_none.mpr aligned]

/-- Settles O13: either outcome of `State.branch` is a new pc alone. -/
theorem branchesGoToTheTargetOrOn : Obligations.BranchesGoToTheTargetOrOn := by
  intro s rs1 rs2 offset branch taken active form
  obtain ⟨b, run, decides⟩ := exec_branch form
  constructor
  · intro goes aligned
    obtain rfl : b = true := decides.mpr goes
    exact ⟨_, run.trans (State.branch_taken aligned), State.setPc_writesOnly active _⟩
  · intro stays
    obtain rfl : b = false := Bool.eq_false_of_not_eq_true (mt decides.mp stays)
    exact ⟨_, run.trans (s.branch_notTaken offset), State.setPc_writesOnly active _⟩

/-- Settles O14: the link is a register write, and the target the pc after it. -/
theorem jalLinksAndJumps : Obligations.JalLinksAndJumps := fun _ rd _ active aligned =>
  ⟨_, exec_jal_of_aligned aligned, State.setReg_setPc_writesOnly active rd _ _⟩

end Sys2Proof.Machine
end

section
/-! PROOFS. Trap return (44_system R174): what MRET leaves in mstatus, when it completes, and that it undoes the trap
entry of 60_exceptions R186. -/

namespace Sys2Proof.Machine

variable {s : State}

/-! ### mstatus after the return -/

theorem mstatusMie_returnMstatus (ms : Word) : mstatusMie (returnMstatus ms) = mstatusMpie ms := by
  rw [returnMstatus, mstatusMie_withMpp, mstatusMie, withMpie, getLsbD_withBit _ _ _ _ (by decide), if_neg (by decide),
    withMie, getLsbD_withBit _ _ _ _ (by decide), if_pos rfl]

theorem mstatusMpie_returnMstatus (ms : Word) : mstatusMpie (returnMstatus ms) = true := by
  rw [returnMstatus, mstatusMpie_withMpp, mstatusMpie, withMpie, getLsbD_withBit _ _ _ _ (by decide), if_pos rfl]

theorem mstatusMpp_returnMstatus (ms : Word) : mstatusMpp (returnMstatus ms) = 0 := mstatusMpp_withMpp _ _

theorem getLsbD_returnMstatus_other (ms : Word) (i : Nat) (h3 : i ≠ 3) (h7 : i ≠ 7) (h11 : i ≠ 11) (h12 : i ≠ 12) :
    (returnMstatus ms).getLsbD i = ms.getLsbD i :=
  getLsbD_withMpp_withBit_withBit _ _ _ _ _ _ _ h3 h7 h11 h12

/-! ### MRET in machine mode -/

section
variable (machine : s.hart.priv = .machine)
include machine

theorem exec_mret_of_machineMode : exec .mret s =
    if mstatusMpp s.hart.mstatus ≠ 3 then .refused .leavesMachineMode
    else if s.hart.mepc.toNat % 4 ≠ 0 then .refused .unmodelledLength else .next s.trapReturn :=
  if_neg (not_not.mpr machine)

theorem exec_mret_of_mpp_ne (other : mstatusMpp s.hart.mstatus ≠ 3) : exec .mret s = .refused .leavesMachineMode := by
  rw [exec_mret_of_machineMode machine, if_pos other]

theorem exec_mret_of_misaligned (mpp : mstatusMpp s.hart.mstatus = 3) (misaligned : s.hart.mepc.toNat % 4 ≠ 0) :
    exec .mret s = .refused .unmodelledLength := by
  rw [exec_mret_of_machineMode machine, if_neg (not_not.mpr mpp), if_pos misaligned]

theorem exec_mret_of_aligned (mpp : mstatusMpp s.hart.mstatus = 3) (aligned : s.hart.mepc.toNat % 4 = 0) :
    exec .mret s = .next s.trapReturn := by
  rw [exec_mret_of_machineMode machine, if_neg (not_not.mpr mpp), if_neg (not_not.mpr aligned)]

end

/-- Settles O46: the three cases of `execMret`; where MRET completes, the mode it sets is the one it had, so mstatus and
pc alone change. -/
theorem mretReturnsToMepcOrRefuses : Obligations.MretReturnsToMepcOrRefuses := by
  intro s active machine
  refine ⟨fun mpp aligned => ⟨s.trapReturn, exec_mret_of_aligned machine mpp aligned, ?_⟩,
    exec_mret_of_mpp_ne machine, exec_mret_of_misaligned machine⟩
  rw [State.pc_eq, State.trapReturn_hart active]
  refine ⟨rfl, mstatusMie_returnMstatus _, mstatusMpie_returnMstatus _, mstatusMpp_returnMstatus _,
    getLsbD_returnMstatus_other _, ?_, State.setHart_other s _, fun _ => rfl, rfl⟩
  rw [← machine]

/-! ### MRET after a trap entry -/

/-- The bit that trap entry clears in mepc is 0 in the address of an instruction (10_state R16, R33). -/
theorem and_not_one_of_aligned {a : Word} (aligned : a.toNat % 4 = 0) : a &&& ~~~1#64 = a := by
  have even : a.getLsbD 0 = false := by
    rw [BitVec.getLsbD, Nat.testBit_zero, decide_eq_false_iff_not]
    omega
  ext k hk
  cases k with
  | zero => simpa using even
  | succ k => rw [BitVec.getElem_and, BitVec.getElem_not, BitVec.getElem_one]; simp

/-- Settles O47: by `State.trapEntry_trapped` the entry from M-mode saves M in MPP, MIE in MPIE, and in mepc the pc, which
is aligned, so MRET completes and puts both back. -/
theorem mretUndoesTrapEntry : Obligations.MretUndoesTrapEntry := by
  intro s u interrupt code active inv active' machine sameStatus sameMepc
  have entry := State.trapEntry_trapped active interrupt code
  have mepc : u.hart.mepc = s.pc := by
    rw [sameMepc, entry.mepc]
    exact and_not_one_of_aligned inv.pcAligned
  have mpp : mstatusMpp u.hart.mstatus = 3 := by
    rw [sameStatus, entry.mpp, inv.machineMode]
    rfl
  have aligned : u.hart.mepc.toNat % 4 = 0 := by
    rw [mepc]
    exact inv.pcAligned
  obtain ⟨returns, -, -⟩ := mretReturnsToMepcOrRefuses u active' machine
  obtain ⟨t, run, pc, mie, -⟩ := returns mpp aligned
  exact ⟨t, run, pc.trans mepc, by rw [mie, sameStatus, entry.mpie]⟩

end Sys2Proof.Machine
end

section
/-! PROOFS. The interrupt check at a hart's boundary (60_exceptions R182-R186): which interrupt is next in the order of
priority, what a hart's step is with one and without, and the trap entry it ends in. -/

namespace Sys2Proof.Machine

/-! ### The next interrupt -/

section
variable {cfg : Config} {h : Hart} {c : InterruptCause}

theorem InterruptCause.code_lt (c : InterruptCause) : c.code < 64 := by cases c <;> decide

/-- R182 over the three registers as words: with MIE 1, what is pending, enabled and not delegated is takeable. -/
theorem Hart.takeable_eq (cfg : Config) (h : Hart) (c : InterruptCause) : h.takeable cfg c =
    (mstatusMie h.mstatus && (h.mipRead cfg &&& h.mieRead cfg &&& ~~~h.midelegRead cfg).getLsbD c.code) := by
  rw [Hart.takeable, Hart.pendingEnabled, BitVec.getLsbD_and, BitVec.getLsbD_and, BitVec.getLsbD_not,
    decide_eq_true c.code_lt, Bool.true_and, Bool.and_right_comm, Bool.and_comm]

theorem Hart.takeable_eq_false_of_mie (mie : mstatusMie h.mstatus = false) : h.takeable cfg c = false := by
  rw [Hart.takeable_eq, mie, Bool.false_and]

theorem Hart.takeable_eq_false_of_delegated
    (delegated : (h.mipRead cfg &&& h.mieRead cfg).getLsbD c.code = true →
      (h.midelegRead cfg).getLsbD c.code = true) : h.takeable cfg c = false := by
  rw [Hart.takeable_eq, BitVec.getLsbD_and, BitVec.getLsbD_not]
  cases waiting : (h.mipRead cfg &&& h.mieRead cfg).getLsbD c.code with
  | false => rw [Bool.false_and, Bool.and_false]
  | true => rw [delegated waiting, Bool.not_true, Bool.and_false, Bool.and_false, Bool.and_false]

/-- R183, R185: the next interrupt is takeable, and none before it in the order is. -/
theorem Hart.nextInterrupt_eq_some_iff : h.nextInterrupt cfg = some c ↔ h.takeable cfg c = true ∧
    ∃ before after, interruptPriority = before ++ c :: after ∧ ∀ b ∈ before, (!h.takeable cfg b) = true :=
  List.find?_eq_some_iff_append

theorem mem_interruptPriority (c : InterruptCause) : c ∈ interruptPriority := by cases c <;> decide

theorem Hart.nextInterrupt_eq_none_iff : h.nextInterrupt cfg = none ↔ ∀ c, h.takeable cfg c = false := by
  simp [Hart.nextInterrupt, mem_interruptPriority]

end

/-! ### A hart's step -/

section
variable {s : State}

theorem State.hartStep_true_of_nextInterrupt {c : InterruptCause} (next : s.hart.nextInterrupt s.cfg = some c) :
    s.hartStep true = .next (s.takeInterrupt c) := by simp [State.hartStep, next]

theorem State.hartStep_false (s : State) : s.hartStep false = s.runInstruction := by
  simp [State.hartStep]

theorem State.hartStep_eq_runInstruction (nothing : s.hart.nextInterrupt s.cfg = none) (take : Bool) :
    s.hartStep take = s.runInstruction := by simp [State.hartStep, nothing]

end

/-! ### The statements -/

/-- Settles O43: every trap is taken by the one operation of `State.trapEntry_trapped`, which draws nothing. -/
theorem trapEntrySavesAndVectors : Obligations.TrapEntrySavesAndVectors := fun s active =>
  ⟨fun c => ⟨State.takeException_trapped active c, s.trapEntry_draws false c.code⟩,
    fun c => ⟨State.takeInterrupt_trapped active c, s.takeInterrupt_draws c⟩⟩

/-- Settles O44: the hypotheses say of `c` what `Hart.nextInterrupt_eq_some_iff` asks of the next interrupt. -/
theorem theHighestPriorityInterruptIsTaken : Obligations.TheHighestPriorityInterruptIsTaken := by
  intro s before after c active order mie waiting earlier
  have next : s.hart.nextInterrupt s.cfg = some c := by
    refine Hart.nextInterrupt_eq_some_iff.mpr ⟨?_, before, after, order.symm, fun b mem => ?_⟩
    · rw [Hart.takeable_eq, mie, waiting, Bool.true_and]
    · rw [Hart.takeable_eq, earlier b mem, Bool.and_false, Bool.not_false]
  exact ⟨s.takeInterrupt c, State.hartStep_true_of_nextInterrupt next, State.takeInterrupt_trapped active c,
    s.hartStep_false⟩

/-- Settles O45: in both cases no cause is takeable, so there is no next interrupt. -/
theorem noInterruptWithoutMie : Obligations.NoInterruptWithoutMie := by
  intro s take quiet
  refine State.hartStep_eq_runInstruction (Hart.nextInterrupt_eq_none_iff.mpr fun c => ?_) take
  rcases quiet with mie | delegated
  · exact Hart.takeable_eq_false_of_mie mie
  · exact Hart.takeable_eq_false_of_delegated (delegated c)

end Sys2Proof.Machine
end

section
/-! PROOFS. The reset of a launch satisfies the invariant (70_reset R198-R203), and is a state of the simulator
(20_memory R79). -/

namespace Sys2Proof.Machine

/-! ### Where the image lists bytes -/

theorem Memory.mem_writeCells {m : Memory} {cells : List Host.Cell} {c : Host.Cell} (mem : c ∈ m.writeCells cells) :
    c ∈ m ∨ c ∈ cells := by
  induction cells generalizing m with
  | nil => exact .inl mem
  | cons d cells ih =>
    rcases ih mem with earlier | later
    · rcases Memory.mem_write earlier with old | ⟨rfl, -⟩
      · exact .inl old
      · exact .inr List.mem_cons_self
    · exact .inr (List.mem_cons_of_mem _ later)

theorem Memory.mem_writeWords {m : Memory} {a : Nat} {ws : List (BitVec 32)} {c : Host.Cell}
    (mem : c ∈ m.writeWords a ws) : c ∈ m ∨ (a ≤ c.1 ∧ c.1 < a + 4 * ws.length) := by
  induction ws generalizing m a with
  | nil => exact .inl mem
  | cons w ws ih =>
    simp only [List.length_cons]
    rcases ih mem with earlier | later
    · rcases Memory.mem_writeBytes earlier with old | first
      · exact .inl old
      · exact .inr (by omega)
    · exact .inr (by omega)

/-- The data and TEXT of a legal launch lie in RAM (20_memory R54, R55). -/
theorem Launch.Legal.image_inside {l : Launch} (legal : l.Legal) {c : Host.Cell} (mem : c ∈ l.image) :
    l.cfg.ramBase.toNat ≤ c.1 ∧ c.1 < l.cfg.ramBase.toNat + l.cfg.ramSize := by
  obtain ⟨-, -, -, -, textFrom, textTo, -⟩ := legal.cfgLegal
  rcases Memory.mem_writeWords mem with data | text
  · rcases Memory.mem_writeCells data with empty | given
    · cases empty
    · exact legal.dataInside c given
  · dsimp only at textFrom textTo
    omega

/-! ### The harts -/

theorem resetMstatus_masked (c : Config) (drawn : Word) : resetMstatus c drawn &&& ~~~mstatusMod c = 0 := by
  have cleared : withMie (drawn &&& mstatusMod c) false &&& ~~~mstatusMod c = 0 :=
    withBit_masked _ (and_masked _ _) (mstatusMod_bit c).1
  unfold resetMstatus
  dsimp only
  split
  · exact withMpp_masked _ cleared
  · exact cleared

/-- The drawn satp, or the 0 that stands for one of another mode, has a legal mode: 0 always is one (10_state R28). -/
theorem satpModeLegal_reset {c : Config} (bare : (0 : BitVec 4) ∈ c.satpModes) (drawn : Word) :
    satpModeLegal c (if satpModeLegal c drawn then drawn else 0) = true := by
  split
  · next legal => exact legal
  · exact List.contains_iff_mem.mpr bare

/-- The drawn mtvec, or the 0 that stands for one that is not legal, is legal (10_state R32). -/
theorem mtvecLegal_reset (drawn : Word) : mtvecLegal (if mtvecLegal drawn then drawn else 0) = true := by
  split
  · next legal => exact legal
  · exact mtvecLegal_direct rfl

/-- A configuration byte of which reset keeps bits 2:0 has bits 6:5 at 0 (10_state R30). -/
theorem pmpReserved_of_reset (b : Byte) : b &&& 0x07 &&& 0x60 = 0 := by
  rw [BitVec.and_assoc]
  simp

/-- A hart's reset satisfies its invariant, whatever the launch draws: RESET_VECTOR has to be aligned, and bare
translation a legal mode. -/
theorem HartLaunch.reset_inv {c : Config} (aligned : c.resetVector.toNat % 4 = 0)
    (bare : (0 : BitVec 4) ∈ c.satpModes) (given : HartLaunch) : (given.reset c).Inv c where
  pcAligned := aligned
  machineMode := rfl
  mstatusBits := resetMstatus_masked c _
  mppLegal := mstatusMpp_resetMstatus c _
  mieBits := and_masked _ _
  mipBits := and_masked _ _
  satpLegal := satpModeLegal_reset bare _
  medelegBits := and_masked _ _
  midelegBits := and_masked _ _
  mtvecIsLegal := mtvecLegal_reset _
  mepcBits := and_masked _ _
  mcauseIsLegal := .inr rfl
  pmpReservedZero i := by
    have byte : (given.reset c).pmpcfg[i] = given.pmpcfg[i] &&& 0x07 := Vector.getElem_map _ _
    rw [byte]
    exact pmpReserved_of_reset _
  pmpaddrBits i := by
    have word : (given.reset c).pmpaddr[i] = given.pmpaddr[i] &&& pmpaddrMask := Vector.getElem_map _ _
    rw [word]
    exact and_masked _ _

theorem Hart.reset_inv : (Hart.reset Config.default).Inv Config.default := by constructor <;> decide

/-! ### The machine -/

theorem State.reset_inv : State.reset.Inv where
  ramWf := State.reset_ram_wf
  ramInside := fun _ mem => nomatch mem
  slots := rfl
  active := Nat.one_pos
  harts := fun _ mem => List.mem_singleton.mp mem ▸ Hart.reset_inv

theorem State.launch_inv {l : Launch} (legal : l.Legal) : (State.launch l).Inv where
  ramWf := State.launch_ram_wf l
  ramInside c mem := by
    obtain ⟨low, high⟩ := legal.image_inside mem
    simp only [State.inRam, Bool.and_eq_true, decide_eq_true_eq]
    exact ⟨low, high⟩
  slots := legal.slots.trans (List.length_map _).symm
  active := by
    have positive : 0 < l.harts.length := List.length_pos_of_ne_nil legal.someHart
    simpa [State.launch] using positive
  harts h mem := by
    obtain ⟨-, -, -, -, -, -, aligned, -, -, -, -, -, -, bare, -⟩ := legal.cfgLegal
    obtain ⟨given, -, rfl⟩ := List.mem_map.mp mem
    exact given.reset_inv aligned bare

/-- Before any event, memory is the launch's image, and no read has a value to justify. -/
theorem State.sequentiallyConsistent_of_start {s : State} (noOracle : s.oracle = []) (wf : s.ram.wf)
    (image : s.ram = s.image) (history : s.history = []) : s.SequentiallyConsistent where
  noOracle := noOracle
  ramWf := wf
  ramAgrees x := by
    rw [isFinalByte_stepOrder, history, image]
    rfl
  consistent := by
    rw [history]
    exact consistent_stepOrder_iff.mpr fun _ _ _ event => nomatch event

/-- Settles O52: field by field of the invariant, and a launch starts from its image with no event. -/
theorem resetSatisfiesTheInvariant : Obligations.ResetSatisfiesTheInvariant :=
  ⟨State.reset_inv, fun l legal => ⟨State.launch_inv legal, fun noOracle =>
    State.sequentiallyConsistent_of_start noOracle (State.launch_ram_wf l) rfl rfl⟩⟩

end Sys2Proof.Machine
end
